-- ==== Sys2Proof/Word.lean ====
section
/-! DEFINITION. The word types of the block: bytes, 16-bit and 32-bit words, byte strings (spec/00_scope.md R7, R9, R10). -/

namespace Sys2Proof

/-- One byte of a buffer or of the wire (R10). -/
abbrev Byte := BitVec 8

/-- A 16-bit word: the frame control word, a PAN identifier, a short address (R7). -/
abbrev Half := BitVec 16

/-- A 32-bit register or bus word (R7: register width 32 bits). -/
abbrev Word := BitVec 32

/-- A byte string (R10). -/
abbrev Bytes := List Byte

end Sys2Proof
end

