-- ==== Sys2Proof/Machine/Fields.lean ====
section
/-! DEFINITION. Byte order and bit fields (spec/00_scope.md R9, R10; spec/20_memory.md R65, R66; spec/30_encoding.md
R95, R101). -/

namespace Sys2Proof

/-- The number a little-endian byte string holds: `fromLE` (R10). -/
def fromLE : Bytes → Nat
  | [] => 0
  | b :: bs => b.toNat + 256 * fromLE bs

/-- `fromLE` as a field of `w` bits. -/
def ofLE (w : Nat) (bs : Bytes) : BitVec w := BitVec.ofNat w (fromLE bs)

/-- The `n` low bytes of a number, least significant first (R10). -/
def toLE : Nat → Nat → Bytes
  | 0, _ => []
  | n + 1, v => BitVec.ofNat 8 v :: toLE n (v / 256)

/-- `LE16` (R10). -/
def le16 (v : Half) : Bytes := toLE 2 v.toNat

/-- `LE32` (R10). -/
def le32 (v : Word) : Bytes := toLE 4 v.toNat

/-- `LE64` (R10). -/
def le64 (v : BitVec 64) : Bytes := toLE 8 v.toNat

/-- `BE32` (R10, R66): most significant byte first. -/
def be32 (v : Word) : Bytes := (le32 v).reverse

/-- `BE64` (R10, R66). -/
def be64 (v : BitVec 64) : Bytes := (le64 v).reverse

/-! The frame control word (R95). -/

/-- Frame type, `fc[2:0]`. -/
def fcType (fc : Half) : BitVec 3 := fc.extractLsb' 0 3
/-- Security enabled, `fc[3]`. -/
def fcSecurity (fc : Half) : Bool := fc.getLsbD 3
/-- Frame pending, `fc[4]`. -/
def fcPending (fc : Half) : Bool := fc.getLsbD 4
/-- Acknowledgement request, `fc[5]`. -/
def fcAck (fc : Half) : Bool := fc.getLsbD 5
/-- PAN ID compression, `fc[6]`. -/
def fcCompress (fc : Half) : Bool := fc.getLsbD 6
/-- Reserved, `fc[9:7]`. -/
def fcRsvd (fc : Half) : BitVec 3 := fc.extractLsb' 7 3
/-- Destination address mode, `fc[11:10]`. -/
def fcDstMode (fc : Half) : BitVec 2 := fc.extractLsb' 10 2
/-- Frame version, `fc[13:12]`. -/
def fcVersion (fc : Half) : BitVec 2 := fc.extractLsb' 12 2
/-- Source address mode, `fc[15:14]`. -/
def fcSrcMode (fc : Half) : BitVec 2 := fc.extractLsb' 14 2

/-- The frame control word with the given bits 9:7 (R37, R99). -/
def fcWithRsvd (fc : Half) (r : BitVec 3) : Half := fc.extractLsb' 10 6 ++ r ++ fc.extractLsb' 0 7

/-! The security control byte (R101). -/

/-- Security level, `sc[2:0]`. -/
def scLevel (sc : Byte) : BitVec 3 := sc.extractLsb' 0 3
/-- Key identifier mode, `sc[4:3]`. -/
def scKeyIdMode (sc : Byte) : BitVec 2 := sc.extractLsb' 3 2
/-- Frame counter suppression, `sc[5]`. -/
def scFcSuppress (sc : Byte) : Bool := sc.getLsbD 5
/-- ASN in nonce, `sc[6]`. -/
def scAsnInNonce (sc : Byte) : Bool := sc.getLsbD 6
/-- Reserved, `sc[7]`. -/
def scRsvd (sc : Byte) : Bool := sc.getLsbD 7

end Sys2Proof
end

