-- ==== Sys2Proof/Syntax.lean ====
section
/-! DEFINITION. The instructions: one constructor per row of spec/opcode_table.json (spec/30_encoding.md R90-R93,
R95, R96, R101, R102, R110). -/

namespace Sys2Proof

/-- The three encodings of the opcode table (R110): the 32-bit command word, the 16-bit frame control word, the
8-bit security control byte. -/
inductive Format where
  | cmd32
  | fc16
  | sc8
deriving DecidableEq, Repr

/-- The fields of a frame control word beside its frame type (R95). -/
structure FcFields where
  security : Bool
  framePending : Bool
  ackRequest : Bool
  panIdCompress : Bool
  rsvd : BitVec 3
  dstMode : BitVec 2
  version : BitVec 2
  srcMode : BitVec 2
deriving DecidableEq, Repr

/-- The fields of a security control byte beside its security level (R101). -/
structure ScFields where
  keyIdMode : BitVec 2
  fcSuppress : Bool
  asnInNonce : Bool
  rsvd : Bool
deriving DecidableEq, Repr

/-- The rows of the opcode table. The first six are the words a host writes to CMD; the others are the rows of the
two dispatches inside a command. -/
inductive Instr where
  /-- NOP (R222), CMD word 0. -/
  | nop
  /-- DECODE (R220), CMD word 1. -/
  | decode
  /-- ENCODE (R221), CMD word 2. -/
  | encode
  /-- SECURE (R188), CMD word 3. -/
  | secure
  /-- VERIFY (R189), CMD word 4. -/
  | verify
  /-- ILLEGAL (R223): every other CMD word, kept whole. -/
  | illegal (w : Word)
  /-- CONTENT.BEACON (R170, R171): frame type 0. -/
  | contentBeacon (f : FcFields)
  /-- CONTENT.DATA (R170, R171): frame type 1. -/
  | contentData (f : FcFields)
  /-- CONTENT.ACK (R170, R171): frame type 2. -/
  | contentAck (f : FcFields)
  /-- CONTENT.COMMAND (R170, R171): frame type 3. -/
  | contentCommand (f : FcFields)
  /-- CONTENT.INVALID (R140, R149): frame types 4 to 7. -/
  | contentInvalid (ft : BitVec 3) (f : FcFields)
  /-- SEC.NONE (R181, R182): security level 0. -/
  | secNone (f : ScFields)
  /-- SEC.MIC32 (R181, R182): security level 1. -/
  | secMic32 (f : ScFields)
  /-- SEC.MIC64 (R181, R182): security level 2. -/
  | secMic64 (f : ScFields)
  /-- SEC.MIC128 (R181, R182): security level 3. -/
  | secMic128 (f : ScFields)
  /-- SEC.ENC (R181, R182): security level 4. -/
  | secEnc (f : ScFields)
  /-- SEC.ENCMIC32 (R181, R182): security level 5. -/
  | secEncMic32 (f : ScFields)
  /-- SEC.ENCMIC64 (R181, R182): security level 6. -/
  | secEncMic64 (f : ScFields)
  /-- SEC.ENCMIC128 (R181, R182): security level 7. -/
  | secEncMic128 (f : ScFields)
deriving DecidableEq, Repr

/-- Which of the three encodings an instruction has (R110). -/
def Instr.format : Instr → Format
  | .nop | .decode | .encode | .secure | .verify | .illegal _ => .cmd32
  | .contentBeacon _ | .contentData _ | .contentAck _ | .contentCommand _ | .contentInvalid _ _ => .fc16
  | .secNone _ | .secMic32 _ | .secMic64 _ | .secMic128 _ | .secEnc _ | .secEncMic32 _ | .secEncMic64 _
  | .secEncMic128 _ => .sc8

/-- The name the opcode table gives the instruction's row. -/
def Instr.mnemonic : Instr → String
  | .nop => "NOP"
  | .decode => "DECODE"
  | .encode => "ENCODE"
  | .secure => "SECURE"
  | .verify => "VERIFY"
  | .illegal _ => "ILLEGAL"
  | .contentBeacon _ => "CONTENT.BEACON"
  | .contentData _ => "CONTENT.DATA"
  | .contentAck _ => "CONTENT.ACK"
  | .contentCommand _ => "CONTENT.COMMAND"
  | .contentInvalid _ _ => "CONTENT.INVALID"
  | .secNone _ => "SEC.NONE"
  | .secMic32 _ => "SEC.MIC32"
  | .secMic64 _ => "SEC.MIC64"
  | .secMic128 _ => "SEC.MIC128"
  | .secEnc _ => "SEC.ENC"
  | .secEncMic32 _ => "SEC.ENCMIC32"
  | .secEncMic64 _ => "SEC.ENCMIC64"
  | .secEncMic128 _ => "SEC.ENCMIC128"

end Sys2Proof
end

