-- ==== Sys2Proof/WellFormed.lean ====
section
/-! DEFINITION. Which terms of `Instr` stand for an encoding (spec/30_encoding.md R91-R93, R96). -/

namespace Sys2Proof

/-- An ILLEGAL word is none of the five commands' words (R92, R93); a CONTENT.INVALID row has a frame type of 4 to 7
(R96). Every other term is well-formed. -/
def Instr.wellFormed : Instr → Bool
  | .illegal w => decide (5 ≤ w.toNat)
  | .contentInvalid ft _ => decide (4 ≤ ft.toNat)
  | _ => true

/-- `wellFormed` as a proposition. -/
abbrev Instr.WellFormed (i : Instr) : Prop := i.wellFormed = true

end Sys2Proof
end

