-- ==== Sys2Proof/Decode.lean ====
section
/-! DEFINITION. The decoder of the command word and of the two dispatch words, and after it the encoder
(spec/30_encoding.md R90-R93, R95, R96, R101, R102, R110). -/

namespace Sys2Proof

/-- Why a byte string is no instruction: it has not the length its format has. -/
inductive DecodeError where
  | wrongLength (f : Format) (n : Nat)
deriving DecidableEq, Repr

/-- How many bytes an encoding of the format has. -/
def Format.bytes : Format → Nat
  | .cmd32 => 4
  | .fc16 => 2
  | .sc8 => 1

/-- The opcode map (R91-R93): five words are commands, every other word is illegal. -/
def decodeCmd (w : Word) : Instr :=
  match w.toNat with
  | 0 => .nop
  | 1 => .decode
  | 2 => .encode
  | 3 => .secure
  | 4 => .verify
  | _ => .illegal w

/-- The fields of a frame control word beside its type (R95). -/
def fcFields (fc : Half) : FcFields :=
  { security := fcSecurity fc, framePending := fcPending fc, ackRequest := fcAck fc, panIdCompress := fcCompress fc,
    rsvd := fcRsvd fc, dstMode := fcDstMode fc, version := fcVersion fc, srcMode := fcSrcMode fc }

/-- The frame-type dispatch (R96). -/
def decodeFc (fc : Half) : Instr :=
  match (fcType fc).toNat with
  | 0 => .contentBeacon (fcFields fc)
  | 1 => .contentData (fcFields fc)
  | 2 => .contentAck (fcFields fc)
  | 3 => .contentCommand (fcFields fc)
  | _ => .contentInvalid (fcType fc) (fcFields fc)

/-- The fields of a security control byte beside its level (R101). -/
def scFields (sc : Byte) : ScFields :=
  { keyIdMode := scKeyIdMode sc, fcSuppress := scFcSuppress sc, asnInNonce := scAsnInNonce sc, rsvd := scRsvd sc }

/-- The security-level dispatch (R102). -/
def decodeSc (sc : Byte) : Instr :=
  match (scLevel sc).toNat with
  | 0 => .secNone (scFields sc)
  | 1 => .secMic32 (scFields sc)
  | 2 => .secMic64 (scFields sc)
  | 3 => .secMic128 (scFields sc)
  | 4 => .secEnc (scFields sc)
  | 5 => .secEncMic32 (scFields sc)
  | 6 => .secEncMic64 (scFields sc)
  | _ => .secEncMic128 (scFields sc)

/-- The decoder, total on any bytes: the instruction of the given format that the bytes, least significant first
(R65, R67), encode. -/
def decodeBytes (f : Format) (bs : Bytes) : Except DecodeError Instr :=
  match f, bs with
  | .cmd32, [a, b, c, d] => .ok (decodeCmd (ofLE 32 [a, b, c, d]))
  | .fc16, [a, b] => .ok (decodeFc (ofLE 16 [a, b]))
  | .sc8, [a] => .ok (decodeSc a)
  | f, bs => .error (.wrongLength f bs.length)

/-! The encoder, from the same tables. -/

/-- The frame control word with the given type and fields (R95). -/
def packFc (ft : BitVec 3) (f : FcFields) : Half :=
  f.srcMode ++ f.version ++ f.dstMode ++ f.rsvd ++ BitVec.ofBool f.panIdCompress ++ BitVec.ofBool f.ackRequest ++
    BitVec.ofBool f.framePending ++ BitVec.ofBool f.security ++ ft

/-- The security control byte with the given level and fields (R101). -/
def packSc (lvl : BitVec 3) (f : ScFields) : Byte :=
  BitVec.ofBool f.rsvd ++ BitVec.ofBool f.asnInNonce ++ BitVec.ofBool f.fcSuppress ++ f.keyIdMode ++ lvl

/-- The bytes of an instruction, least significant first. -/
def encode : Instr → Bytes
  | .nop => le32 0
  | .decode => le32 1
  | .encode => le32 2
  | .secure => le32 3
  | .verify => le32 4
  | .illegal w => le32 w
  | .contentBeacon f => le16 (packFc 0 f)
  | .contentData f => le16 (packFc 1 f)
  | .contentAck f => le16 (packFc 2 f)
  | .contentCommand f => le16 (packFc 3 f)
  | .contentInvalid ft f => le16 (packFc ft f)
  | .secNone f => [packSc 0 f]
  | .secMic32 f => [packSc 1 f]
  | .secMic64 f => [packSc 2 f]
  | .secMic128 f => [packSc 3 f]
  | .secEnc f => [packSc 4 f]
  | .secEncMic32 f => [packSc 5 f]
  | .secEncMic64 f => [packSc 6 f]
  | .secEncMic128 f => [packSc 7 f]

/-- The format whose encodings have the given number of bits. -/
def formatOfBits (nbits : Nat) : Option Format :=
  match nbits with
  | 32 => some .cmd32
  | 16 => some .fc16
  | 8 => some .sc8
  | _ => none

/-- The instruction the decoder reads from the bits `w`, numbered as spec/opcode_table.json numbers them: the bytes of
`w`, least significant first, given to the decoder of the format of `nbits` bits. -/
def decodeTableWord (nbits w : Nat) : Option Instr :=
  match formatOfBits nbits with
  | none => none
  | some f =>
    match decodeBytes f (toLE f.bytes w) with
    | .ok i => some i
    | .error _ => none

/-! The opcode table itself, as data (R110). -/

/-- One row of spec/opcode_table.json that has a match and a mask. -/
structure OpRow where
  mnemonic : String
  format : Format
  pattern : Nat
  mask : Nat
deriving DecidableEq, Repr

/-- The word `w` matches the row: `w AND mask = match` (R110). -/
def OpRow.matchesWord (r : OpRow) (w : Nat) : Bool := (w &&& r.mask) == r.pattern

/-- The five command rows. ILLEGAL is "any word not matched above". -/
def cmdRows : List OpRow :=
  [⟨"NOP", .cmd32, 0x00000000, 0xFFFFFFFF⟩, ⟨"DECODE", .cmd32, 0x00000001, 0xFFFFFFFF⟩,
   ⟨"ENCODE", .cmd32, 0x00000002, 0xFFFFFFFF⟩, ⟨"SECURE", .cmd32, 0x00000003, 0xFFFFFFFF⟩,
   ⟨"VERIFY", .cmd32, 0x00000004, 0xFFFFFFFF⟩]

/-- The five frame-type rows. -/
def fcRows : List OpRow :=
  [⟨"CONTENT.BEACON", .fc16, 0x0000, 0x0007⟩, ⟨"CONTENT.DATA", .fc16, 0x0001, 0x0007⟩,
   ⟨"CONTENT.ACK", .fc16, 0x0002, 0x0007⟩, ⟨"CONTENT.COMMAND", .fc16, 0x0003, 0x0007⟩,
   ⟨"CONTENT.INVALID", .fc16, 0x0004, 0x0004⟩]

/-- The eight security-level rows. -/
def scRows : List OpRow :=
  [⟨"SEC.NONE", .sc8, 0x00, 0x07⟩, ⟨"SEC.MIC32", .sc8, 0x01, 0x07⟩, ⟨"SEC.MIC64", .sc8, 0x02, 0x07⟩,
   ⟨"SEC.MIC128", .sc8, 0x03, 0x07⟩, ⟨"SEC.ENC", .sc8, 0x04, 0x07⟩, ⟨"SEC.ENCMIC32", .sc8, 0x05, 0x07⟩,
   ⟨"SEC.ENCMIC64", .sc8, 0x06, 0x07⟩, ⟨"SEC.ENCMIC128", .sc8, 0x07, 0x07⟩]

/-- The mnemonic the table gives a word of a format: its first matching row, and ILLEGAL for a command word that
matches none (R92, R93, R110). -/
def tableMnemonic (f : Format) (w : Nat) : Option String :=
  match f with
  | .cmd32 => some (((cmdRows.find? fun r => r.matchesWord w).map OpRow.mnemonic).getD "ILLEGAL")
  | .fc16 => (fcRows.find? fun r => r.matchesWord w).map OpRow.mnemonic
  | .sc8 => (scRows.find? fun r => r.matchesWord w).map OpRow.mnemonic

end Sys2Proof
end

