-- ==== Sys2Proof/Config.lean ====
section
/-! DEFINITION. What stands outside the block: the types its ports speak, and the free values
(spec/00_scope.md R8; spec/10_state.md R49-R52, R55). Every constant is opaque: no proof can see its value,
nor whether an answer keeps the contract of its port. -/

namespace Sys2Proof

/-- A device address (spec/10_state.md R38): "Short(PanId(u16), ShortAddress(u16)) | Extended(PanId(u16),
ExtendedAddress(u64))". An absent address is `none` of `Option Address`. -/
inductive Address where
  | short (pan : Half) (addr : Half)
  | extended (pan : Half) (addr : BitVec 64)
deriving DecidableEq, Repr

/-- The two external body codecs (R51). -/
inductive BodyPort where
  | beacon
  | command
deriving DecidableEq, Repr

/-- The error a body codec answers (R51: "`e` is any value"); only a shortage of bytes is told apart (R172). -/
inductive CodecErr where
  | notEnoughBytes
  | other (e : Nat)
deriving DecidableEq, Repr

/-- The two results of a body-codec call (R51). -/
inductive CodecReply (α : Type) where
  | ok (a : α)
  | err (e : CodecErr)
deriving DecidableEq, Repr, Inhabited

/-- The free draw a host read of an undefined byte returns (R55), one for each value of the draw counter. -/
opaque Config.freeByte (draw : Nat) : Byte

/-- What KEY_LOOKUP answers where State lists no answer (R49): Hit with a key, or Miss. The first argument is the
number of port calls made so far: the key store may change between calls. -/
opaque Config.keyLookup (calls : Nat) (mode : BitVec 2) (kim : BitVec 2) (kid : Bytes) (dst : Option Address) :
  Option Bytes

/-- What AEAD.init answers where State lists no answer (R50). An instance is an opaque byte string. -/
opaque Config.aeadInit (key : Bytes) : Option Bytes

/-- What AEAD.seal answers where State lists no answer (R50): Err, or a ciphertext and a tag, of whatever lengths. -/
opaque Config.aeadSeal (inst nonce ad pt : Bytes) (t : Nat) : Option (Bytes × Bytes)

/-- What AEAD.open answers where State lists no answer (R50): Err, or a plaintext of whatever length. -/
opaque Config.aeadOpen (inst nonce ad ct tag : Bytes) (t : Nat) : Option Bytes

/-- What a body codec's decode answers where State lists no answer (R51): Err, or any number of bytes. -/
opaque Config.bodyDecode (port : BodyPort) (calls : Nat) (bytes : Bytes) : CodecReply Nat

/-- What a body codec's encode answers where State lists no answer (R51): Err, or bytes of whatever length. -/
opaque Config.bodyEncode (port : BodyPort) (calls : Nat) (cap : Nat) : CodecReply Bytes

end Sys2Proof
end

