-- ==== Sys2Proof/Machine/State.lean ====
section
/-! DEFINITION. The state of the block as plain data, and the state after reset (spec/10_state.md R20-R58;
spec/60_exceptions.md R240, R257, R258; spec/70_reset_and_hazards.md R280-R282). -/

namespace Sys2Proof.Machine

/-- The status codes (spec/60_exceptions.md R240). Every other value of STATUS.CODE is reserved and never written. -/
inductive Code where
  | ok
  | notEnoughBytes
  | invalidFrameType
  | invalidAddressMode
  | invalidFrameVersion
  /-- Never raised (spec/41_header_codec.md R147). -/
  | invalidSecurityLevel
  /-- Never raised (spec/41_header_codec.md R147). -/
  | invalidKeyIdentifierMode
  /-- Never raised (spec/60_exceptions.md R240). -/
  | securityNotSupported
  | securityNotEnabled
  | auxSecHeaderAbsent
  | invalidValue
  | frameTooLong
  | counterError
  | keyFailure
  | unavailableKey
  | verificationFailure
  | nonceAddressUnavailable
  | illegalCommand
  | sequenceError
deriving DecidableEq, Repr

/-- The values of STATUS.SEC_PHASE (R31): 6 and 7 do not occur. -/
inductive SecPhase where
  | unsecured
  | validating
  | keyLookup
  | transforming
  | secured
  | rejected
deriving DecidableEq, Repr

/-- CFG.FOOTER_MODE (R32). -/
inductive FooterMode where
  | noFooter
  | explicit
deriving DecidableEq, Repr

/-- The STATUS register (R24-R31). ERR is computed: it always equals CODE != 0 (R25). -/
structure Status where
  busy : Bool
  frameValid : Bool
  verified : Bool
  secured : Bool
  code : Code
  errVal : Byte
  secPhase : SecPhase
deriving DecidableEq, Repr

/-- The header registers HDR_CTRL to KID2 (R35-R43). -/
structure HeaderRegs where
  /-- HDR_CTRL bits 15:0, the frame control word, FC_RSVD included (R35, R37). -/
  fc : Half
  /-- HDR_CTRL.SEQ (R36). -/
  seq : Byte
  /-- HDR_CTRL.AUX_PRESENT (R36). -/
  auxPresent : Bool
  /-- DST_PAN (R38). -/
  dstPan : Half
  /-- DST_ADDR_LO (R38). -/
  dstLo : Word
  /-- DST_ADDR_HI (R38). -/
  dstHi : Word
  /-- SRC_PAN (R39). -/
  srcPan : Half
  /-- SRC_ADDR_LO (R39). -/
  srcLo : Word
  /-- SRC_ADDR_HI (R39). -/
  srcHi : Word
  /-- AUX_CTRL (R41). -/
  auxCtrl : Byte
  /-- AUX_FC (R42). -/
  auxFc : Word
  /-- KID0 (R43). -/
  kid0 : Word
  /-- KID1 (R43). -/
  kid1 : Word
  /-- KID2 (R43). -/
  kid2 : Byte
deriving DecidableEq, Repr

/-- A view into FBUF: CONTENT (R45), PAYLOAD (R46). -/
structure View where
  off : BitVec 7
  len : BitVec 7
deriving DecidableEq, Repr

/-- The registers of the window, by name (R22). -/
inductive Reg where
  | cmd | status | cfg | len | plen | hdrCtrl
  | dstPan | dstAddrLo | dstAddrHi | srcPan | srcAddrLo | srcAddrHi
  | auxCtrl | auxFc | kid0 | kid1 | kid2
  | hdrLen | content | payload | footer | frameCounter
deriving DecidableEq, Repr

/-- Memory: the defined bytes of FBUF and PBUF with their window offsets, strictly rising. A byte that is not listed
is undefined (R55). -/
abbrev Memory := List Host.Cell

/-- The two buffers (R53, R54). -/
inductive Buffer where
  | fbuf
  | pbuf
deriving DecidableEq, Repr

/-- The command-internal state (R21, R56): the operands of a dispatch a command has asked for, or the result the
dispatched row has left. Between commands it is `idle`. -/
inductive Engine where
  | idle
  /-- ContentDecode of R170: the frame control word, the cursor (where the content begins) and the end of the content
  and payload area. -/
  | decoding (fc : Half) (cur : Nat) (fin : Nat)
  /-- ContentEncode of R171: the frame control word, the length of the header already built and `max(cap, 0)`. -/
  | encoding (fc : Half) (outLen : Nat) (cap : Nat)
  /-- SealBody of R181: the security control byte, the AEAD instance, the nonce and the payload. -/
  | sealing (sc : Byte) (inst : Bytes) (nonce : Bytes) (p : Bytes)
  /-- OpenBody of R182: the security control byte, the AEAD instance, the nonce, the body and the tag. -/
  | opening (sc : Byte) (inst : Bytes) (nonce : Bytes) (body : Bytes) (tag : Bytes)
  /-- ContentDecode returned the number of content bytes. -/
  | consumed (n : Nat)
  /-- ContentEncode returned the content bytes. -/
  | produced (bytes : Bytes)
  /-- SealBody returned the payload and the tag. -/
  | sealed (p : Bytes) (tag : Bytes)
  /-- OpenBody returned Ok. -/
  | opened (pt : Bytes)
  /-- OpenBody returned Fail. -/
  | openFailed
  /-- The row raised a status code with its error value. -/
  | raised (c : Code) (v : Byte)
deriving DecidableEq, Repr

/-- A request the block has sent to a port (R49-R51). -/
inductive PortCall where
  | keyLookup (mode : BitVec 2) (kim : BitVec 2) (kid : Bytes) (dst : Option Address)
  | aeadInit (key : Bytes)
  | aeadSeal (inst nonce ad pt : Bytes) (t : Nat)
  | aeadOpen (inst nonce ad ct tag : Bytes) (t : Nat)
  | bodyDecode (port : BodyPort) (bytes : Bytes)
  | bodyEncode (port : BodyPort) (cap : Nat)
deriving DecidableEq, Repr

/-- The ports (R49-R51): the answers each will give, in order, and the requests sent so far, oldest first. Where no
answer is listed, a constant of Config answers. `none` is Miss (KEY_LOOKUP) or Err (AEAD). -/
structure Ports where
  keyLookup : List (Option Bytes)
  aeadInit : List (Option Bytes)
  aeadSeal : List (Option (Bytes × Bytes))
  aeadOpen : List (Option Bytes)
  beaconDecode : List (CodecReply Nat)
  beaconEncode : List (CodecReply Bytes)
  commandDecode : List (CodecReply Nat)
  commandEncode : List (CodecReply Bytes)
  log : List PortCall
deriving DecidableEq, Repr

/-- What the platform fixes for a whole run (spec/70_reset_and_hazards.md R283): FHP_BASE (spec/20_memory.md R60) and
EXT_ADDR_OF on absent sources (`none`) and Short sources (`some (pan, addr)`) (R52). -/
structure Platform where
  base : Nat
  extAddr : List (Option (Half × Half) × BitVec 64)
deriving DecidableEq, Repr

/-- What the outside does to the block: the host's bus transactions (spec/30_encoding.md R108; the address is a bus
address, the width is in bits), reset (spec/70_reset_and_hazards.md R280), and an access by a second host
(spec/60_exceptions.md R254). -/
inductive BusOp where
  | read (addr : Nat) (width : Nat)
  | write (addr : Nat) (width : Nat) (data : Word)
  | reset
  | otherHost
deriving DecidableEq, Repr

/-- The model's faults (spec/60_exceptions.md R257): the machine stops. -/
inductive Fault where
  /-- A command reads an undefined byte of FBUF or PBUF (R55, R257). Raised by DECODE, ENCODE, SECURE, VERIFY and the
  content rows. Safe: nothing is claimed of such a run. -/
  | uninitRead
  /-- A port's answer breaks its contract (R50, R51, R257). Raised by the content rows and the security rows, and by
  the commands that run them. Safe: nothing is claimed of such a run. -/
  | portContract
  /-- A bus access outside offsets 0x000 to 0x1FF, which the block does not decode (spec/20_memory.md R71). Raised by
  the step of a bus access. Safe: nothing is claimed of such a run. -/
  | outsideWindow
deriving DecidableEq, Repr

/-- What has no transition in the model (spec/60_exceptions.md R258). -/
inductive Refusal where
  /-- An instruction without a meaning; no arm of `exec` answers it. Safe. -/
  | notModelled (mnemonic : String)
  /-- A misaligned or wrongly sized access (spec/20_memory.md R62, R63). Raised by the step of a bus access. Safe. -/
  | busContract
  /-- An access other than a STATUS read while BUSY = 1 (spec/70_reset_and_hazards.md R285). Raised by the step of a
  bus access. Safe. -/
  | busyAccess
  /-- An access by a second host (spec/60_exceptions.md R254). Raised by the step of such an access. Safe. -/
  | secondHost
  /-- An internal row run where no command has asked for its dispatch: "No command reaches them on their own"
  (spec/00_scope.md R2). Raised by the content rows and the security rows. Safe. -/
  | noDispatch
deriving DecidableEq, Repr

/-- The state of the block, its ports and its host. -/
structure State where
  /-- STATUS (R24-R31). -/
  status : Status
  /-- CFG (R32). -/
  footerMode : FooterMode
  /-- LEN (R33). -/
  len : BitVec 7
  /-- PLEN (R34). -/
  plen : BitVec 7
  /-- HDR_CTRL to KID2 (R35-R43). -/
  hdr : HeaderRegs
  /-- HDR_LEN (R44). -/
  hdrLen : BitVec 7
  /-- CONTENT (R45). -/
  content : View
  /-- PAYLOAD (R46). -/
  payload : View
  /-- FOOTER (R47). -/
  footer : Half
  /-- FRAME_COUNTER (R48). -/
  frameCounter : Word
  /-- FBUF and PBUF (R53-R55). -/
  mem : Memory
  /-- The command-internal state (R21, R56). -/
  engine : Engine
  /-- The ports (R49-R51). -/
  ports : Ports
  /-- The platform's parameters (R8, R52). -/
  platform : Platform
  /-- The model's own: what the outside still does to the block, oldest first. -/
  host : List BusOp
  /-- The model's own: the data the last host read returned, in its low bits (log 3; the bits above them: log 24). -/
  readData : Word
  /-- The model's own: how many free bytes host reads have drawn (R55). -/
  draws : Nat
deriving DecidableEq, Repr

/-- STATUS after reset (spec/70_reset_and_hazards.md R281). -/
def Status.reset : Status :=
  { busy := false, frameValid := false, verified := false, secured := false, code := .ok, errVal := 0,
    secPhase := .unsecured }

/-- The header registers after reset (R281). -/
def HeaderRegs.reset : HeaderRegs :=
  { fc := 0, seq := 0, auxPresent := false, dstPan := 0, dstLo := 0, dstHi := 0, srcPan := 0, srcLo := 0, srcHi := 0,
    auxCtrl := 0, auxFc := 0, kid0 := 0, kid1 := 0, kid2 := 0 }

/-- Ports with no answer listed and no request sent (DESIGN CHOICE, log 2). -/
def Ports.none : Ports :=
  { keyLookup := [], aeadInit := [], aeadSeal := [], aeadOpen := [], beaconDecode := [], beaconEncode := [],
    commandDecode := [], commandEncode := [], log := [] }

/-- The platform with FHP_BASE 0 (DESIGN CHOICE, log 4) and the spec's default EXT_ADDR_OF (R52). -/
def Platform.default : Platform := { base := 0, extAddr := [] }

/-- The machine right after reset (R280-R282): every register at its reset value, every buffer byte undefined; the
host has nothing pending. -/
def State.reset : State :=
  { status := Status.reset, footerMode := .noFooter, len := 0, plen := 0, hdr := HeaderRegs.reset, hdrLen := 0,
    content := ⟨0, 0⟩, payload := ⟨0, 0⟩, footer := 0, frameCounter := 0xFFFFFFFF, mem := [], engine := .idle,
    ports := Ports.none, platform := Platform.default, host := [], readData := 0, draws := 0 }

end Sys2Proof.Machine
end

