-- ==== Sys2Proof/Machine/Ops.lean ====
section
/-! DEFINITION. The named operations over memory, the ports and the command-internal state, and what a command that
raises commits (spec/00_scope.md R11, R12; spec/10_state.md R49-R56; spec/60_exceptions.md R245, R246). -/

namespace Sys2Proof.Machine

/-! ## Memory (R53-R55) -/

/-- The byte at a window offset; `none` where it is undefined. -/
def Memory.read : Memory → Nat → Option Byte
  | [], _ => none
  | (k, b) :: m, a => if k = a then some b else Memory.read m a

/-- Define the byte at a window offset, keeping the offsets rising. -/
def Memory.write : Memory → Nat → Byte → Memory
  | [], a, b => [(a, b)]
  | (k, v) :: m, a, b =>
    if a < k then (a, b) :: (k, v) :: m
    else if a = k then (a, b) :: m
    else (k, v) :: Memory.write m a b

/-- Make every byte at the offsets `lo` to `lo + n - 1` undefined. -/
def Memory.undefine (m : Memory) (lo n : Nat) : Memory :=
  m.filter fun c => !(decide (lo ≤ c.1) && decide (c.1 < lo + n))

/-- The window offset of a buffer's first byte (R53, R54). -/
def Buffer.base : Buffer → Nat
  | .fbuf => 0x100
  | .pbuf => 0x180

/-- The size of each buffer in bytes (R6, R7). -/
def bufferSize : Nat := 127

/-- The offset lies in the buffer (spec/20_memory.md R71). -/
def Buffer.holds (b : Buffer) (off : Nat) : Bool :=
  decide (b.base ≤ off) && decide (off < b.base + bufferSize)

/-- The offset is a byte of FBUF or of PBUF. -/
def isBufferOffset (off : Nat) : Bool := Buffer.fbuf.holds off || Buffer.pbuf.holds off

/-- Every offset is above `lo`, and they rise strictly. -/
def Memory.risesFrom : Nat → Memory → Bool
  | _, [] => true
  | lo, (k, _) :: m => decide (lo ≤ k) && Memory.risesFrom (k + 1) m

/-- The canonical form: offsets strictly rising, each a buffer byte's. An unlisted offset is undefined, so no entry
can equal what an unlisted one reads as. -/
def Memory.wf (m : Memory) : Bool := Memory.risesFrom 0 m && m.all fun c => isBufferOffset c.1

/-- `MemRead(B, i, n)` (R11): `none` where a byte is undefined or beyond the buffer. -/
def Memory.readBuf (m : Memory) (b : Buffer) (i : Nat) : Nat → Option Bytes
  | 0 => some []
  | n + 1 =>
    if i < bufferSize then
      match m.read (b.base + i) with
      | none => none
      | some x => (Memory.readBuf m b (i + 1) n).map (x :: ·)
    else none

/-- `MemWrite(B, i, s)` (R11); a byte beyond the buffer is not written. -/
def Memory.writeBuf (m : Memory) (b : Buffer) (i : Nat) : Bytes → Memory
  | [] => m
  | x :: xs => Memory.writeBuf (if i < bufferSize then m.write (b.base + i) x else m) b (i + 1) xs

/-- Every byte of the buffer becomes undefined (R55). -/
def Memory.undefineBuf (m : Memory) (b : Buffer) : Memory := m.undefine b.base bufferSize

/-! ## The command-internal state -/

/-- The state with the given command-internal state. -/
def State.withEngine (s : State) (e : Engine) : State := { s with engine := e }

/-! ## The ports (R49-R52) -/

/-- The state with the given ports. -/
def State.withPorts (s : State) (p : Ports) : State := { s with ports := p }

/-- The request is recorded. -/
def Ports.record (p : Ports) (c : PortCall) : Ports := { p with log := p.log ++ [c] }

/-- KEY_LOOKUP (R49): the answer (`none` is Miss) and the state after the call. -/
def askKey (mode kim : BitVec 2) (kid : Bytes) (dst : Option Address) (s : State) : Option Bytes × State :=
  (s.ports.keyLookup.headD (Config.keyLookup s.ports.log.length mode kim kid dst),
   s.withPorts { s.ports.record (.keyLookup mode kim kid dst) with keyLookup := s.ports.keyLookup.tail })

/-- AEAD.init (R50): the answer (`none` is Err) and the state after the call. -/
def askInit (key : Bytes) (s : State) : Option Bytes × State :=
  (s.ports.aeadInit.headD (Config.aeadInit key),
   s.withPorts { s.ports.record (.aeadInit key) with aeadInit := s.ports.aeadInit.tail })

/-- AEAD.seal (R50): the answer (`none` is Err) and the state after the call. -/
def askSeal (inst nonce ad pt : Bytes) (t : Nat) (s : State) : Option (Bytes × Bytes) × State :=
  (s.ports.aeadSeal.headD (Config.aeadSeal inst nonce ad pt t),
   s.withPorts { s.ports.record (.aeadSeal inst nonce ad pt t) with aeadSeal := s.ports.aeadSeal.tail })

/-- An answer of AEAD.seal breaks the contract `|ct| = |pt|, |tag| = t` (R50). -/
def sealBreach (pt : Bytes) (t : Nat) : Option (Bytes × Bytes) → Bool
  | some (ct, tag) => !(ct.length == pt.length && tag.length == t)
  | none => false

/-- AEAD.open (R50): the answer (`none` is Err) and the state after the call. -/
def askOpen (inst nonce ad ct tag : Bytes) (t : Nat) (s : State) : Option Bytes × State :=
  (s.ports.aeadOpen.headD (Config.aeadOpen inst nonce ad ct tag t),
   s.withPorts { s.ports.record (.aeadOpen inst nonce ad ct tag t) with aeadOpen := s.ports.aeadOpen.tail })

/-- An answer of AEAD.open breaks the contract `|pt| = |ct|` (R50). -/
def openBreach (ct : Bytes) : Option Bytes → Bool
  | some pt => !(pt.length == ct.length)
  | none => false

/-- The answers a body codec's decode will give. -/
def Ports.decodeAnswers (p : Ports) : BodyPort → List (CodecReply Nat)
  | .beacon => p.beaconDecode
  | .command => p.commandDecode

/-- The answers a body codec's encode will give. -/
def Ports.encodeAnswers (p : Ports) : BodyPort → List (CodecReply Bytes)
  | .beacon => p.beaconEncode
  | .command => p.commandEncode

/-- The ports after a body codec's decode has used its next answer. -/
def Ports.nextDecode (p : Ports) : BodyPort → Ports
  | .beacon => { p with beaconDecode := p.beaconDecode.tail }
  | .command => { p with commandDecode := p.commandDecode.tail }

/-- The ports after a body codec's encode has used its next answer. -/
def Ports.nextEncode (p : Ports) : BodyPort → Ports
  | .beacon => { p with beaconEncode := p.beaconEncode.tail }
  | .command => { p with commandEncode := p.commandEncode.tail }

/-- CODEC.decode (R51): the answer and the state after the call. -/
def askBodyDecode (port : BodyPort) (bytes : Bytes) (s : State) : CodecReply Nat × State :=
  ((s.ports.decodeAnswers port).headD (Config.bodyDecode port s.ports.log.length bytes),
   s.withPorts ((s.ports.record (.bodyDecode port bytes)).nextDecode port))

/-- An answer of a body codec's decode breaks the contract `n <= |bytes|` (R51). -/
def bodyDecodeBreach (bytes : Bytes) : CodecReply Nat → Bool
  | .ok n => decide (bytes.length < n)
  | .err _ => false

/-- CODEC.encode (R51): the answer and the state after the call. -/
def askBodyEncode (port : BodyPort) (cap : Nat) (s : State) : CodecReply Bytes × State :=
  ((s.ports.encodeAnswers port).headD (Config.bodyEncode port s.ports.log.length cap),
   s.withPorts ((s.ports.record (.bodyEncode port cap)).nextEncode port))

/-- An answer of a body codec's encode breaks the contract `|bytes| <= capacity` (R51). -/
def bodyEncodeBreach (cap : Nat) : CodecReply Bytes → Bool
  | .ok bytes => decide (cap < bytes.length)
  | .err _ => false

/-- The platform's table on Short and absent sources (R52). -/
def extAddrLookup (k : Option (Half × Half)) : List (Option (Half × Half) × BitVec 64) → Option (BitVec 64)
  | [] => none
  | (k', a) :: t => if k' = k then some a else extAddrLookup k t

/-- EXT_ADDR_OF (R52): an Extended source gives its own address. -/
def extAddrOf (p : Platform) : Option Address → Option (BitVec 64)
  | some (.extended _ a) => some a
  | some (.short pan a) => extAddrLookup (some (pan, a)) p.extAddr
  | none => extAddrLookup none p.extAddr

/-! ## Ending a command with a status code (spec/60_exceptions.md R240-R248)

The block has no trap entry and no return from one (R247, R248): a command that raises writes the code and its value
and commits what R246 lists, and the next command overwrites them. -/

/-- The commands that can raise (R246). -/
inductive Command where
  | decode
  | encode
  | secure
  | verify
deriving DecidableEq, Repr

/-- STATUS with the code and the error value of the command that ended (R29, R30). -/
def Status.ended (st : Status) (c : Code) (v : Byte) : Status := { st with code := c, errVal := v }

/-- STATUS of a command that ended well: OK, and 0 (R240). -/
def Status.endedOk (st : Status) : Status := st.ended .ok 0

/-- What a command that raises `c(v)` commits (R246): everything not named here stays. -/
def raiseIn (cmd : Command) (c : Code) (v : Byte) (s : State) : State :=
  match cmd with
  | .decode =>
    { s with status := { s.status.ended c v with frameValid := false, verified := false }, engine := .idle }
  | .encode =>
    { s with
      status := { s.status.ended c v with frameValid := false, verified := false }, len := 0,
      mem := s.mem.undefineBuf .fbuf, engine := .idle }
  | .secure => { s with status := { s.status.ended c v with secPhase := .rejected }, engine := .idle }
  | .verify =>
    if c = .verificationFailure then
      { s with
        status := { s.status.ended c v with secPhase := .rejected, frameValid := false },
        payload := { s.payload with len := 0 }, engine := .idle }
    else { s with status := { s.status.ended c v with secPhase := .rejected }, engine := .idle }

/-- How an internal function stops: it raises a status code (R11), or it reads an undefined byte (R257). -/
inductive Stop where
  | raise (c : Code) (v : Byte)
  | fault (r : Fault)
deriving DecidableEq, Repr

/-- `if not ok: raise c(v)`. -/
def demand (ok : Bool) (c : Code) (v : Byte) : Except Stop Unit :=
  if ok then .ok () else .error (.raise c v)

/-- `MemRead(FBUF, i, n)` inside an internal function. -/
def readFbuf (m : Memory) (i n : Nat) : Except Stop Bytes :=
  match m.readBuf .fbuf i n with
  | some bs => .ok bs
  | none => .error (.fault .uninitRead)

/-- A field of `n` bytes at the cursor: `if cur + n > end: raise NotEnoughBytes(cur)`, then the read (R130, R142, R144).
-/
def readField (m : Memory) (fin cur n : Nat) : Except Stop Bytes := do
  demand (decide (cur + n ≤ fin)) .notEnoughBytes (BitVec.ofNat 8 cur)
  readFbuf m cur n

end Sys2Proof.Machine
end

