-- ==== Sys2Proof/Machine/Flags.lean ====
section
/-! DEFINITION. STATUS as the host reads it, and what host writes clear (spec/10_state.md R24-R31; spec/20_memory.md
R69; spec/60_exceptions.md R240). -/

namespace Sys2Proof.Machine

/-- The value of STATUS.CODE (spec/60_exceptions.md R240). -/
def Code.value : Code → Byte
  | .ok => 0x00
  | .notEnoughBytes => 0x10
  | .invalidFrameType => 0x11
  | .invalidAddressMode => 0x12
  | .invalidFrameVersion => 0x13
  | .invalidSecurityLevel => 0x14
  | .invalidKeyIdentifierMode => 0x15
  | .securityNotSupported => 0x16
  | .securityNotEnabled => 0x17
  | .auxSecHeaderAbsent => 0x18
  | .invalidValue => 0x19
  | .frameTooLong => 0x20
  | .counterError => 0x21
  | .keyFailure => 0x22
  | .unavailableKey => 0x23
  | .verificationFailure => 0x24
  | .nonceAddressUnavailable => 0x25
  | .illegalCommand => 0x30
  | .sequenceError => 0x31

/-- The value of STATUS.SEC_PHASE (R31). -/
def SecPhase.value : SecPhase → BitVec 3
  | .unsecured => 0
  | .validating => 1
  | .keyLookup => 2
  | .transforming => 3
  | .secured => 4
  | .rejected => 5

/-- STATUS.ERR (R25): it always equals `STATUS.CODE != 0`. -/
def Status.err (st : Status) : Bool := st.code.value != 0

/-- The STATUS word (R24-R31): bits 7:5 and 31:27 read 0. -/
def Status.word (st : Status) : Word :=
  0#5 ++ st.secPhase.value ++ st.errVal ++ st.code.value ++ 0#3 ++ BitVec.ofBool st.secured ++
    BitVec.ofBool st.verified ++ BitVec.ofBool st.frameValid ++ BitVec.ofBool st.err ++ BitVec.ofBool st.busy

/-- A host write to FBUF or LEN clears FRAME_VALID and VERIFIED (R26, R27, spec/20_memory.md R69). -/
def State.frameTouched (s : State) : State :=
  { s with status := { s.status with frameValid := false, verified := false } }

/-- A host write to PBUF or PLEN clears SECURED (R28, spec/20_memory.md R69). -/
def State.payloadTouched (s : State) : State := { s with status := { s.status with secured := false } }

end Sys2Proof.Machine
end

