-- ==== Sys2Proof/Machine/Operands.lean ====
section
/-! DEFINITION. The operand forms: addresses, key identifiers, widths and the nonce, as the registers and the wire give
them (spec/10_state.md R40, R43; spec/30_encoding.md R103-R106; spec/43_security_transform.md R180, R185). -/

namespace Sys2Proof.Machine

/-- `AddrOf` (spec/10_state.md R40). Mode 1 is no address: every command rejects it first. -/
def addrOf (mode : BitVec 2) (pan : Half) (lo hi : Word) : Option Address :=
  match mode.toNat with
  | 2 => some (.short pan (lo.extractLsb' 0 16))
  | 3 => some (.extended pan (hi ++ lo))
  | _ => none

/-- `DstAddr` (R40). -/
def HeaderRegs.dstAddr (h : HeaderRegs) : Option Address := addrOf (fcDstMode h.fc) h.dstPan h.dstLo h.dstHi

/-- `SrcAddr` (R40). -/
def HeaderRegs.srcAddr (h : HeaderRegs) : Option Address := addrOf (fcSrcMode h.fc) h.srcPan h.srcLo h.srcHi

/-- The PAN identifier of an address. -/
def addrPan : Address → Half
  | .short p _ => p
  | .extended p _ => p

/-- The registers PAN, LO and HI of a decoded address (spec/40_address_codec.md R133). -/
def addrRegs : Option Address → Half × Word × Word
  | none => (0, 0, 0)
  | some (.short p a) => (p, a.setWidth 32, 0)
  | some (.extended p a) => (p, a.extractLsb' 0 32, a.extractLsb' 32 32)

/-- `SrcPanCompressed` (spec/30_encoding.md R105; spec/40_address_codec.md R132). -/
def srcPanCompressed (pic : Bool) (dm sm : BitVec 2) : Bool := pic && dm != 0 && sm != 0

/-- `AddrLen` (R106). -/
def addrLen (m : BitVec 2) : Nat :=
  match m.toNat with
  | 2 => 4
  | 3 => 10
  | _ => 0

/-- `KidLen` (R103, R106). -/
def kidLen (kim : BitVec 2) : Nat :=
  match kim.toNat with
  | 0 => 0
  | 1 => 1
  | 2 => 5
  | _ => 9

/-- `FcPresent` (R104). -/
def fcPresent (ver : BitVec 2) (sc : Byte) : Bool := ver != 2 || !scFcSuppress sc

/-- `AuxLen` (R106), the source's aux_header_octet_size (spec/41_header_codec.md R146). -/
def auxLen (ver : BitVec 2) (sc : Byte) : Nat :=
  1 + (if fcPresent ver sc then 4 else 0) + kidLen (scKeyIdMode sc)

/-- `HdrLen` (R106), from the frame control word and the security control byte. -/
def hdrLenOf (fc : Half) (sc : Byte) : Nat :=
  3 + addrLen (fcDstMode fc) + addrLen (fcSrcMode fc)
    - (if srcPanCompressed (fcCompress fc) (fcDstMode fc) (fcSrcMode fc) then 2 else 0)
    + (if fcSecurity fc then auxLen (fcVersion fc) sc else 0)

/-- The footer's length (R13, spec/44_frame_codec.md R220). -/
def footerLen : FooterMode → Nat
  | .noFooter => 0
  | .explicit => 2

/-- `KID[0..9)` in wire order (spec/10_state.md R43). -/
def HeaderRegs.kid (h : HeaderRegs) : Bytes := le32 h.kid0 ++ le32 h.kid1 ++ [h.kid2]

/-- `KID[0..w)` for the mode AUX_CTRL.KEY_ID_MODE (R43, R103). -/
def HeaderRegs.kidUsed (h : HeaderRegs) : Bytes := h.kid.take (kidLen (scKeyIdMode h.auxCtrl))

/-- Key identifier bytes filled up with zeros to nine (spec/41_header_codec.md R148). -/
def padKid (bs : Bytes) : Bytes := (bs ++ List.replicate 9 0).take 9

/-- `TagLen` (spec/43_security_transform.md R180). -/
def tagLen (lvl : BitVec 3) : Nat :=
  match lvl.toNat with
  | 1 | 5 => 4
  | 2 | 6 => 8
  | 3 | 7 => 16
  | _ => 0

/-- Whether the level encrypts the payload (R180). -/
def encrypts (lvl : BitVec 3) : Bool := lvl.getLsbD 2

/-- `Nonce(ea, c, lvl)` (R185): 13 bytes. -/
def nonceOf (ea : BitVec 64) (c : Word) (lvl : BitVec 3) : Bytes := be64 ea ++ be32 c ++ [lvl.setWidth 8]

end Sys2Proof.Machine
end

