-- ==== Sys2Proof/Machine/Bus.lean ====
section
/-! DEFINITION. The host's side of the block: register and buffer accesses, reset, and what the next turn is
(spec/10_state.md R22-R57; spec/20_memory.md R60-R72; spec/70_reset_and_hazards.md R280, R285). -/

namespace Sys2Proof.Machine

/-! ## The register window -/

/-- The offset of a register (R22). -/
def Reg.offset : Reg → Nat
  | .cmd => 0x000 | .status => 0x004 | .cfg => 0x008 | .len => 0x00C | .plen => 0x010 | .hdrCtrl => 0x014
  | .dstPan => 0x018 | .dstAddrLo => 0x01C | .dstAddrHi => 0x020
  | .srcPan => 0x024 | .srcAddrLo => 0x028 | .srcAddrHi => 0x02C
  | .auxCtrl => 0x030 | .auxFc => 0x034 | .kid0 => 0x038 | .kid1 => 0x03C | .kid2 => 0x040
  | .hdrLen => 0x044 | .content => 0x048 | .payload => 0x04C | .footer => 0x050 | .frameCounter => 0x054

/-- The registers in the order of their offsets (R22). -/
def allRegs : List Reg :=
  [.cmd, .status, .cfg, .len, .plen, .hdrCtrl, .dstPan, .dstAddrLo, .dstAddrHi, .srcPan, .srcAddrLo, .srcAddrHi,
   .auxCtrl, .auxFc, .kid0, .kid1, .kid2, .hdrLen, .content, .payload, .footer, .frameCounter]

/-- The register at an offset; the offsets 0x058 to 0x0FC are reserved (R64, R71). -/
def regAt (off : Nat) : Option Reg := allRegs.find? fun r => r.offset == off

/-- The word of HDR_CTRL (R35, R36): bits 31:25 read 0. -/
def HeaderRegs.ctrlWord (h : HeaderRegs) : Word := 0#7 ++ BitVec.ofBool h.auxPresent ++ h.seq ++ h.fc

/-- The word of a view register (R45, R46): OFF in bits 6:0, LEN in bits 14:8. -/
def View.word (v : View) : Word := 0#17 ++ v.len ++ 0#1 ++ v.off

/-- The word of CFG (R32). -/
def FooterMode.word : FooterMode → Word
  | .noFooter => 0
  | .explicit => 1

/-- A read of a register: the word of R22's rules, reserved bits 0; CMD reads 0 (R23, R61). -/
def regRead (r : Reg) (s : State) : Word :=
  match r with
  | .cmd => 0
  | .status => s.status.word
  | .cfg => s.footerMode.word
  | .len => s.len.setWidth 32
  | .plen => s.plen.setWidth 32
  | .hdrCtrl => s.hdr.ctrlWord
  | .dstPan => s.hdr.dstPan.setWidth 32
  | .dstAddrLo => s.hdr.dstLo
  | .dstAddrHi => s.hdr.dstHi
  | .srcPan => s.hdr.srcPan.setWidth 32
  | .srcAddrLo => s.hdr.srcLo
  | .srcAddrHi => s.hdr.srcHi
  | .auxCtrl => s.hdr.auxCtrl.setWidth 32
  | .auxFc => s.hdr.auxFc
  | .kid0 => s.hdr.kid0
  | .kid1 => s.hdr.kid1
  | .kid2 => s.hdr.kid2.setWidth 32
  | .hdrLen => s.hdrLen.setWidth 32
  | .content => s.content.word
  | .payload => s.payload.word
  | .footer => s.footer.setWidth 32
  | .frameCounter => s.frameCounter

/-- A host write to HDR_CTRL: FC_RSVD is read-only (R35-R37). -/
def HeaderRegs.writeCtrl (h : HeaderRegs) (w : Word) : HeaderRegs :=
  { h with
    fc := fcWithRsvd (w.extractLsb' 0 16) (fcRsvd h.fc), seq := w.extractLsb' 16 8, auxPresent := w.getLsbD 24 }

/-- A host write of a word to a register other than CMD: the writable fields are stored and the rest is ignored (R22,
R61); LEN and PLEN have the side effects of R69. -/
def regWrite (r : Reg) (w : Word) (s : State) : State :=
  match r with
  | .cfg => { s with footerMode := if w.getLsbD 0 then .explicit else .noFooter }
  | .len => { s with len := w.extractLsb' 0 7 }.frameTouched
  | .plen => { s with plen := w.extractLsb' 0 7 }.payloadTouched
  | .hdrCtrl => { s with hdr := s.hdr.writeCtrl w }
  | .dstPan => { s with hdr := { s.hdr with dstPan := w.extractLsb' 0 16 } }
  | .dstAddrLo => { s with hdr := { s.hdr with dstLo := w } }
  | .dstAddrHi => { s with hdr := { s.hdr with dstHi := w } }
  | .srcPan => { s with hdr := { s.hdr with srcPan := w.extractLsb' 0 16 } }
  | .srcAddrLo => { s with hdr := { s.hdr with srcLo := w } }
  | .srcAddrHi => { s with hdr := { s.hdr with srcHi := w } }
  | .auxCtrl => { s with hdr := { s.hdr with auxCtrl := w.extractLsb' 0 8 } }
  | .auxFc => { s with hdr := { s.hdr with auxFc := w } }
  | .kid0 => { s with hdr := { s.hdr with kid0 := w } }
  | .kid1 => { s with hdr := { s.hdr with kid1 := w } }
  | .kid2 => { s with hdr := { s.hdr with kid2 := w.extractLsb' 0 8 } }
  | .footer => { s with footer := w.extractLsb' 0 16 }
  | .frameCounter => { s with frameCounter := w }
  | .cmd | .status | .hdrLen | .content | .payload => s

/-! ## The buffers -/

/-- One byte lane of a buffer read: a defined byte, a free draw for an undefined one, 0 for a reserved offset (R55,
R63, R64). -/
def laneRead (off : Nat) (s : State) : Byte × State :=
  if isBufferOffset off then
    match s.mem.read off with
    | some b => (b, s)
    | none => (Config.freeByte s.draws, { s with draws := s.draws + 1 })
  else (0, s)

/-- The `n` byte lanes from an offset, the lowest offset first (R63, R67). -/
def lanesRead (off : Nat) : Nat → State → Bytes × State
  | 0, s => ([], s)
  | n + 1, s =>
    ((laneRead off s).1 :: (lanesRead (off + 1) n (laneRead off s).2).1, (lanesRead (off + 1) n (laneRead off s).2).2)

/-- A buffer read of `n` bytes (R63, R67). R63 places only the bytes of the access; that the bits of `readData` above
the width of an 8- or 16-bit read are 0 is the model's (DESIGN CHOICE, log 24). -/
def bufRead (off n : Nat) (s : State) : State :=
  { (lanesRead off n s).2 with readData := ofLE 32 (lanesRead off n s).1 }

/-- The byte lanes of a buffer write; a reserved offset is not written (R63, R64). -/
def lanesWrite (m : Memory) (off : Nat) : Bytes → Memory
  | [] => m
  | b :: bs => lanesWrite (if isBufferOffset off then m.write off b else m) (off + 1) bs

/-- An access of `n` bytes at the offset covers at least one byte of the buffer (R69). -/
def covers (b : Buffer) (off n : Nat) : Bool := (List.range n).any fun i => b.holds (off + i)

/-- A buffer write of the `n` low bytes of the data, with the side effects of R69 (R63, R67). -/
def bufWrite (off n : Nat) (data : Word) (s : State) : State :=
  let s1 := { s with mem := lanesWrite s.mem off (toLE n data.toNat) }
  let s2 := if covers .fbuf off n then s1.frameTouched else s1
  if covers .pbuf off n then s2.payloadTouched else s2

/-! ## A bus access -/

/-- What the next turn of the machine is: an instruction to run, or a turn that is over. -/
inductive Turn where
  | run (i : Instr) (s : State)
  | over (o : Host.Outcome State Fault Refusal)

/-- The window offset of a bus address (spec/20_memory.md R60, R71). -/
def offsetOf (p : Platform) (addr : Nat) : Option Nat :=
  if p.base ≤ addr ∧ addr < p.base + 0x200 then some (addr - p.base) else none

/-- Width and alignment are those the host contract allows at the offset (R61-R63). -/
def accessOk (off width : Nat) : Bool :=
  if off < 0x100 then width == 32 && off % 4 == 0
  else (width == 8 || width == 16 || width == 32) && off % (width / 8) == 0

/-- While BUSY = 1 only STATUS may be read (spec/70_reset_and_hazards.md R285). -/
def statusRead (off width : Nat) : Bool := off == Reg.status.offset && width == 32

/-- A host read at a window offset (R61-R64, R285). -/
def hostRead (off width : Nat) (s : State) : Host.Outcome State Fault Refusal :=
  if s.status.busy && !statusRead off width then .refused .busyAccess
  else if !accessOk off width then .refused .busContract
  else if off < 0x100 then
    .next { s with readData := match regAt off with
      | some r => regRead r s
      | none => 0 }
  else .next (bufRead off (width / 8) s)

/-- A host write at a window offset: a write to CMD starts a command (R23, R61-R64, R69, R285). -/
def hostWrite (off width : Nat) (data : Word) (s : State) : Turn :=
  if s.status.busy then .over (.refused .busyAccess)
  else if !accessOk off width then .over (.refused .busContract)
  else if off < 0x100 then
    match regAt off with
    | some .cmd => .run (decodeCmd data) s
    | some r => .over (.next (regWrite r data s))
    | none => .over (.next s)
  else .over (.next (bufWrite off (width / 8) data s))

/-- Reset (R280-R282): every register at its reset value, every buffer byte undefined, a running command abandoned.
What stands outside the block stays: the ports, the platform, the host and what it has read. -/
def resetBlock (s : State) : State :=
  { State.reset with
    ports := s.ports, platform := s.platform, host := s.host, readData := s.readData, draws := s.draws }

/-- One transaction of the outside. -/
def busTurn (op : BusOp) (s : State) : Turn :=
  match op with
  | .reset => .over (.next (resetBlock s))
  | .otherHost => .over (.refused .secondHost)
  | .read addr width =>
    match offsetOf s.platform addr with
    | some off => .over (hostRead off width s)
    | none => .over (.fault .outsideWindow)
  | .write addr width data =>
    match offsetOf s.platform addr with
    | some off => hostWrite off width data s
    | none => .over (.fault .outsideWindow)

/-- The row a pending dispatch selects (spec/30_encoding.md R110); `none` where no dispatch is pending. -/
def Engine.pendingRow : Engine → Option Instr
  | .decoding fc _ _ => some (decodeFc fc)
  | .encoding fc _ _ => some (decodeFc fc)
  | .sealing sc _ _ _ => some (decodeSc sc)
  | .opening sc _ _ _ _ => some (decodeSc sc)
  | _ => none

/-- The next turn: a pending dispatch is run; else the host's next transaction is taken; with none the block is idle
and keeps its state (spec/60_exceptions.md R256). -/
def nextTurn (s : State) : Turn :=
  match s.engine.pendingRow with
  | some i => .run i s
  | none =>
    match s.host with
    | [] => .over (.next s)
    | op :: rest => busTurn op { s with host := rest }

end Sys2Proof.Machine
end

