-- ==== Sys2Proof/Machine/AddressCodec.lean ====
section
/-! DEFINITION. AddressCodec (spec/40_address_codec.md R130-R133). -/

namespace Sys2Proof.Machine

/-- Which of the two addresses (R130). -/
inductive Role where
  | dst
  | src
deriving DecidableEq, Repr

/-- Whether the address at hand leaves its PAN identifier out: only the source's can (R130-R132). `other` is the
destination; `mode` is the address's own mode. -/
def panImplied (role : Role) (pic : Bool) (other : Option Address) (mode : BitVec 2) : Bool :=
  match role with
  | .dst => false
  | .src => srcPanCompressed pic (if other.isSome then 1 else 0) mode

/-- The PAN identifier of a decoded address: implied equal to the destination's, or read from the wire (R130). -/
def panDecode (m : Memory) (mode : BitVec 2) (role : Role) (pic : Bool) (other : Option Address) (fin cur : Nat) :
    Except Stop (Half × Nat) :=
  match panImplied role pic other mode, other with
  | true, some o => .ok (addrPan o, cur)
  | _, _ => do
    let bs ← readField m fin cur 2
    return (ofLE 16 bs, cur + 2)

/-- The address after its PAN identifier: 2 bytes for Short, 8 for Extended (R130). -/
def plainDecode (m : Memory) (mode : BitVec 2) (pan : Half) (fin cur : Nat) : Except Stop (Option Address × Nat) :=
  if mode = 2 then do
    let bs ← readField m fin cur 2
    return (some (.short pan (ofLE 16 bs)), cur + 2)
  else do
    let bs ← readField m fin cur 8
    return (some (.extended pan (ofLE 64 bs)), cur + 8)

/-- AddressDecode (R130): the address and the cursor after it. -/
def addressDecode (m : Memory) (mode : BitVec 2) (role : Role) (pic : Bool) (other : Option Address) (fin cur : Nat) :
    Except Stop (Option Address × Nat) :=
  if mode = 0 then .ok (none, cur)
  else do
    demand (mode != 1) .invalidAddressMode 1
    let (pan, cur') ← panDecode m mode role pic other fin cur
    plainDecode m mode pan fin cur'

/-- AddressEncode (R131): the bytes it appends to the output. -/
def addressEncode (addr : Option Address) (role : Role) (pic : Bool) (other : Option Address) : Bytes :=
  match addr with
  | none => []
  | some a =>
    (if panImplied role pic other 1 then [] else le16 (addrPan a)) ++
      match a with
      | .short _ x => le16 x
      | .extended _ x => le64 x

end Sys2Proof.Machine
end

