-- ==== Sys2Proof/Machine/HeaderCodec.lean ====
section
/-! DEFINITION. HeaderCodec (spec/41_header_codec.md R140-R149). -/

namespace Sys2Proof.Machine

/-- A decoded auxiliary security header (R144). -/
structure Aux where
  sc : Byte
  fcv : Option Word
  kid : Bytes
deriving DecidableEq, Repr

/-- A decoded header (R142). -/
structure Hdr where
  fc : Half
  seq : Byte
  dst : Option Address
  src : Option Address
  aux : Option Aux
deriving DecidableEq, Repr

/-! ## The frame control word -/

/-- The checks on a frame control word, in their order: both address modes, then the type, then the version (R140,
R149). -/
def fcCheck (fc : Half) : Except Stop Unit := do
  demand (fcDstMode fc != 1) .invalidAddressMode 1
  demand (fcSrcMode fc != 1) .invalidAddressMode 1
  demand (decide ((fcType fc).toNat ≤ 3)) .invalidFrameType ((fcType fc).setWidth 8)
  demand (fcVersion fc != 3) .invalidFrameVersion 3

/-- FcDecode (R140): the word; the cursor after it is 2. -/
def fcDecode (m : Memory) (fin : Nat) : Except Stop Half := do
  let bs ← readField m fin 0 2
  fcCheck (ofLE 16 bs)
  return ofLE 16 bs

/-- FcEncode (R141): bits 9:7 are written 0 (R99). -/
def fcEncode (fc : Half) : Bytes := le16 (fcWithRsvd fc 0)

/-! ## The auxiliary security header -/

/-- The frame counter field, where it is present (R144, R104). -/
def counterDecode (m : Memory) (ver : BitVec 2) (sc : Byte) (fin cur : Nat) : Except Stop (Option Word × Nat) :=
  if fcPresent ver sc then do
    let bs ← readField m fin cur 4
    return (some (ofLE 32 bs), cur + 4)
  else .ok (none, cur)

/-- AuxDecode (R144). Every level and key identifier mode is known (R147). -/
def auxDecode (m : Memory) (ver : BitVec 2) (fin cur : Nat) : Except Stop (Aux × Nat) := do
  let b ← readField m fin cur 1
  let sc : Byte := ofLE 8 b
  let (fcv, cur') ← counterDecode m ver sc fin (cur + 1)
  let kid ← readField m fin cur' (kidLen (scKeyIdMode sc))
  return ({ sc := sc, fcv := fcv, kid := kid }, cur' + kidLen (scKeyIdMode sc))

/-- AuxEncode (R145): the bytes it appends. -/
def auxEncode (h : HeaderRegs) : Bytes :=
  [h.auxCtrl] ++ (if fcPresent (fcVersion h.fc) h.auxCtrl then le32 h.auxFc else []) ++ h.kidUsed

/-- AuxSize (R146). -/
def HeaderRegs.auxSize (h : HeaderRegs) : Nat := auxLen (fcVersion h.fc) h.auxCtrl

/-! ## The whole header -/

/-- The auxiliary header of HeaderDecode: read when the security bit is set (R142). -/
def auxPart (m : Memory) (fc : Half) (fin cur : Nat) : Except Stop (Option Aux × Nat) :=
  if fcSecurity fc then do
    let (aux, cur') ← auxDecode m (fcVersion fc) fin cur
    return (some aux, cur')
  else .ok (none, cur)

/-- HeaderDecode (R142): the header of `FBUF[0..fin)` and its length. -/
def headerDecode (m : Memory) (fin : Nat) : Except Stop (Hdr × Nat) := do
  let fc ← fcDecode m fin
  let sq ← readField m fin 2 1
  let (dst, c1) ← addressDecode m (fcDstMode fc) .dst (fcCompress fc) none fin 3
  let (src, c2) ← addressDecode m (fcSrcMode fc) .src (fcCompress fc) dst fin c1
  let (aux, c3) ← auxPart m fc fin c2
  return ({ fc := fc, seq := ofLE 8 sq, dst := dst, src := src, aux := aux }, c3)

/-- HeaderEncode (R143). -/
def headerEncode (h : HeaderRegs) : Bytes :=
  fcEncode h.fc ++ [h.seq] ++ addressEncode h.dstAddr .dst (fcCompress h.fc) none ++
    addressEncode h.srcAddr .src (fcCompress h.fc) h.dstAddr ++ (if fcSecurity h.fc then auxEncode h else [])

/-! ## Commit and validation -/

/-- The auxiliary registers AUX_CTRL, AUX_FC and KID of a decoded header (R148). -/
def Hdr.auxRegs (h : Hdr) : Byte × Word × Bytes :=
  match h.aux with
  | none => (0, 0, padKid [])
  | some a => (a.sc, a.fcv.getD 0, padKid a.kid)

/-- HeaderCommit (R148, spec/40_address_codec.md R133): the header registers of a decoded header. -/
def headerCommit (h : Hdr) : HeaderRegs :=
  { fc := h.fc, seq := h.seq, auxPresent := fcSecurity h.fc,
    dstPan := (addrRegs h.dst).1, dstLo := (addrRegs h.dst).2.1, dstHi := (addrRegs h.dst).2.2,
    srcPan := (addrRegs h.src).1, srcLo := (addrRegs h.src).2.1, srcHi := (addrRegs h.src).2.2,
    auxCtrl := h.auxRegs.1, auxFc := h.auxRegs.2.1,
    kid0 := ofLE 32 (h.auxRegs.2.2.take 4), kid1 := ofLE 32 ((h.auxRegs.2.2.drop 4).take 4),
    kid2 := ofLE 8 (h.auxRegs.2.2.drop 8) }

/-- ContractCheck (spec/43_security_transform.md R183): the security bit and the presence of the auxiliary header
agree. -/
def contractCheck (h : HeaderRegs) : Except Stop Unit := do
  demand (fcSecurity h.fc || !h.auxPresent) .securityNotEnabled 0
  demand (!fcSecurity h.fc || h.auxPresent) .auxSecHeaderAbsent 0

/-- HeaderValidate (R149): the contract check, then the checks of FcDecode on the registers. -/
def headerValidate (h : HeaderRegs) : Except Stop Unit := do
  contractCheck h
  fcCheck h.fc

end Sys2Proof.Machine
end

