-- ==== Sys2Proof/Machine/Content.lean ====
section
/-! DEFINITION. ContentCodec: the five rows of the frame-type dispatch (spec/42_content_codec.md R170-R172,
spec/41_header_codec.md R140, R149). A row takes its operands from the command-internal state and leaves its result
there; no register, buffer or status field changes. -/

namespace Sys2Proof.Machine

/-- BodyError (R172): what the command raises when a body codec answers Err. -/
def bodyError (e : CodecErr) (off : Nat) : Engine :=
  match e with
  | .notEnoughBytes => .raised .notEnoughBytes (BitVec.ofNat 8 off)
  | .other _ => .raised .invalidValue (BitVec.ofNat 8 off)

/-- The result of a body codec's decode (R170). -/
def decodeResult (off : Nat) : CodecReply Nat → Engine
  | .ok n => .consumed n
  | .err e => bodyError e off

/-- The result of a body codec's encode (R171). -/
def encodeResult (outLen : Nat) : CodecReply Bytes → Engine
  | .ok bytes => .produced bytes
  | .err e => bodyError e outLen

/-- ContentDecode and ContentEncode of a frame type whose body goes to an external codec (R170, R171). -/
def externalContent (port : BodyPort) (s : State) : Host.Outcome State Fault Refusal :=
  match s.engine with
  | .decoding _ cur fin =>
    match s.mem.readBuf .fbuf cur (fin - cur) with
    | none => .fault .uninitRead
    | some bytes =>
      if bodyDecodeBreach bytes (askBodyDecode port bytes s).1 then .fault .portContract
      else .next ((askBodyDecode port bytes s).2.withEngine (decodeResult cur (askBodyDecode port bytes s).1))
  | .encoding _ outLen cap =>
    if bodyEncodeBreach cap (askBodyEncode port cap s).1 then .fault .portContract
    else .next ((askBodyEncode port cap s).2.withEngine (encodeResult outLen (askBodyEncode port cap s).1))
  | _ => .refused .noDispatch

/-- ContentDecode and ContentEncode of Data and Acknowledgement: "zero bytes, fixed empty variant"; no port is called
(R170, R171). -/
def emptyContent (s : State) : Host.Outcome State Fault Refusal :=
  match s.engine with
  | .decoding _ _ _ => .next (s.withEngine (.consumed 0))
  | .encoding _ _ _ => .next (s.withEngine (.produced []))
  | _ => .refused .noDispatch

/-- The content dispatch on a frame type of 4 to 7: FcDecode's and HeaderValidate's checks raise (R140, R149). -/
def invalidContent (fc : Half) (s : State) : Host.Outcome State Fault Refusal :=
  match s.engine, fcCheck fc with
  | .decoding _ _ _, .error (.raise c v) => .next (s.withEngine (.raised c v))
  | .encoding _ _ _, .error (.raise c v) => .next (s.withEngine (.raised c v))
  | _, _ => .refused .noDispatch

/-- CONTENT.BEACON (R170, R171): frame type 0, BEACON_CODEC. -/
def execContentBeacon (_f : FcFields) (s : State) : Host.Outcome State Fault Refusal := externalContent .beacon s

/-- CONTENT.DATA (R170, R171): frame type 1, empty. -/
def execContentData (_f : FcFields) (s : State) : Host.Outcome State Fault Refusal := emptyContent s

/-- CONTENT.ACK (R170, R171): frame type 2, empty. -/
def execContentAck (_f : FcFields) (s : State) : Host.Outcome State Fault Refusal := emptyContent s

/-- CONTENT.COMMAND (R170, R171): frame type 3, COMMAND_CODEC. -/
def execContentCommand (_f : FcFields) (s : State) : Host.Outcome State Fault Refusal := externalContent .command s

/-- CONTENT.INVALID (R140, R149): frame types 4 to 7 raise InvalidFrameType, an address mode of 1 first
(spec/90_conflicts.md C3). -/
def execContentInvalid (ft : BitVec 3) (f : FcFields) (s : State) : Host.Outcome State Fault Refusal :=
  invalidContent (packFc ft f) s

/-- The content dispatch of DECODE and ENCODE (R170, R171, spec/00_scope.md R15): the row the frame type selects, run
on the operands the command has set. -/
def contentDispatch (fc : Half) (s : State) : Host.Outcome State Fault Refusal :=
  match (fcType fc).toNat with
  | 0 => execContentBeacon (fcFields fc) s
  | 1 => execContentData (fcFields fc) s
  | 2 => execContentAck (fcFields fc) s
  | 3 => execContentCommand (fcFields fc) s
  | _ => execContentInvalid (fcType fc) (fcFields fc) s

end Sys2Proof.Machine
end

