-- ==== Sys2Proof/Machine/Frame.lean ====
section
/-! DEFINITION. FrameCodec: DECODE and ENCODE (spec/44_frame_codec.md R220, R221, R224). -/

namespace Sys2Proof.Machine

/-! ## DECODE -/

/-- The first half of DECODE (R220): the header and its length, with room for the footer after it. -/
def decodeFront (s : State) : Except Stop (Hdr × Nat) := do
  let (h, hl) ← headerDecode s.mem s.len.toNat
  demand (decide (hl + footerLen s.footerMode ≤ s.len.toNat)) .notEnoughBytes (BitVec.ofNat 8 hl)
  return (h, hl)

/-- The footer DECODE commits (R220, R224): the last two bytes under Explicit, else 0x0000. -/
def footerDecode (s : State) : Option Half :=
  match s.footerMode with
  | .noFooter => some 0
  | .explicit => (s.mem.readBuf .fbuf (s.len.toNat - 2) 2).map (ofLE 16)

/-- DECODE's commit of a header of `hl` bytes, `cn` content bytes and a footer, all in one step (R220, R148). -/
def decodeCommit (h : Hdr) (hl cn : Nat) (ft : Half) (s : State) : State :=
  { s with
    hdr := headerCommit h, hdrLen := BitVec.ofNat 7 hl, content := ⟨BitVec.ofNat 7 hl, BitVec.ofNat 7 cn⟩,
    payload := ⟨BitVec.ofNat 7 (hl + cn), BitVec.ofNat 7 (s.len.toNat - footerLen s.footerMode - (hl + cn))⟩,
    footer := ft, status := { s.status.endedOk with frameValid := true, verified := false }, engine := .idle }

/-- The end of DECODE, from the result the content row left. No row leaves any other result. -/
def decodeEnd (h : Hdr) (hl : Nat) (ft : Half) (s : State) : State :=
  match s.engine with
  | .consumed cn => decodeCommit h hl cn ft s
  | .raised c v => raiseIn .decode c v s
  | _ => s

/-- The second half of DECODE: the footer is read once the content is known, so a content row that raised comes before
a footer byte that is undefined. -/
def decodeBack (h : Hdr) (hl : Nat) (s : State) : Host.Outcome State Fault Refusal :=
  match footerDecode s with
  | some ft => .next (decodeEnd h hl ft s)
  | none =>
    match s.engine with
    | .raised c v => .next (raiseIn .decode c v s)
    | _ => .fault .uninitRead

/-- The operands of DECODE's content dispatch (R170, R220). -/
def decodeOperands (h : Hdr) (hl : Nat) (s : State) : State :=
  s.withEngine (.decoding h.fc hl (s.len.toNat - footerLen s.footerMode))

/-- DECODE (R220). -/
def execDecode (s : State) : Host.Outcome State Fault Refusal :=
  match decodeFront s with
  | .error (.raise c v) => .next (raiseIn .decode c v s)
  | .error (.fault r) => .fault r
  | .ok (h, hl) =>
    match contentDispatch h.fc (decodeOperands h hl s) with
    | .next s' => decodeBack h hl s'
    | .fault r => .fault r
    | .refused r => .refused r

/-! ## ENCODE -/

/-- The footer bytes ENCODE writes (R221, R224): FOOTER verbatim under Explicit, none otherwise. -/
def footerEncode (s : State) : Bytes :=
  match s.footerMode with
  | .noFooter => []
  | .explicit => le16 s.footer

/-- ENCODE's commit of the header, content and payload bytes, all in one step (R221). -/
def encodeCommit (out body p : Bytes) (s : State) : State :=
  { s with
    mem := s.mem.writeBuf .fbuf 0 (out ++ body ++ p ++ footerEncode s),
    len := BitVec.ofNat 7 (out ++ body ++ p ++ footerEncode s).length,
    hdrLen := BitVec.ofNat 7 out.length, content := ⟨BitVec.ofNat 7 out.length, BitVec.ofNat 7 body.length⟩,
    payload := ⟨BitVec.ofNat 7 (out ++ body).length, s.plen⟩,
    hdr := { s.hdr with fc := fcWithRsvd s.hdr.fc 0 },
    status := { s.status.endedOk with frameValid := false, verified := false }, engine := .idle }

/-- The end of ENCODE, from the result the content row left: the frame must not exceed 127 bytes (R221). No row leaves
any other result. -/
def encodeEnd (out p : Bytes) (s : State) : State :=
  match s.engine with
  | .produced body =>
    if (out ++ body ++ p ++ footerEncode s).length ≤ bufferSize then encodeCommit out body p s
    else raiseIn .encode .notEnoughBytes 127 s
  | .raised c v => raiseIn .encode c v s
  | _ => s

/-- The second half of ENCODE: PBUF is read once the content is known, so a content row that raised comes before a
payload byte that is undefined. -/
def encodeBack (out : Bytes) (s : State) : Host.Outcome State Fault Refusal :=
  match s.mem.readBuf .pbuf 0 s.plen.toNat with
  | some p => .next (encodeEnd out p s)
  | none =>
    match s.engine with
    | .raised c v => .next (raiseIn .encode c v s)
    | _ => .fault .uninitRead

/-- The operands of ENCODE's content dispatch: the capacity left is `max(127 - |out| - PLEN - fl, 0)` (R171, R221). -/
def encodeOperands (s : State) : State :=
  s.withEngine (.encoding s.hdr.fc (headerEncode s.hdr).length
    (bufferSize - (headerEncode s.hdr).length - s.plen.toNat - footerLen s.footerMode))

/-- ENCODE (R221). It neither secures nor checks STATUS.SECURED (spec/70_reset_and_hazards.md R288). -/
def execEncode (s : State) : Host.Outcome State Fault Refusal :=
  match headerValidate s.hdr with
  | .error (.raise c v) => .next (raiseIn .encode c v s)
  | .error (.fault r) => .fault r
  | .ok () =>
    match contentDispatch s.hdr.fc (encodeOperands s) with
    | .next s' => encodeBack (headerEncode s.hdr) s'
    | .fault r => .fault r
    | .refused r => .refused r

end Sys2Proof.Machine
end

