-- ==== Sys2Proof/Machine/Transform.lean ====
section
/-! DEFINITION. The eight rows of the security-level dispatch: SealBody and OpenBody (spec/43_security_transform.md
R180-R182). A row takes its operands from the command-internal state and leaves its result there; no register, buffer
or status field changes. -/

namespace Sys2Proof.Machine

/-- One AEAD.seal call of SealBody (R181): on Ok the payload is `p` where the level only authenticates and the
ciphertext where it encrypts; on Err the command raises KeyFailure(0). -/
def sealCall (keep : Option Bytes) (inst nonce ad pt : Bytes) (t : Nat) (s : State) :
    Host.Outcome State Fault Refusal :=
  if sealBreach pt t (askSeal inst nonce ad pt t s).1 then .fault .portContract
  else
    .next ((askSeal inst nonce ad pt t s).2.withEngine
      (match (askSeal inst nonce ad pt t s).1 with
        | some (ct, tag) => .sealed (keep.getD ct) tag
        | none => .raised .keyFailure 0))

/-- SealBody (R181). -/
def sealBody (lvl : BitVec 3) (inst nonce p : Bytes) (s : State) : Host.Outcome State Fault Refusal :=
  match lvl.toNat with
  | 0 => .next (s.withEngine (.sealed p []))
  | 1 | 2 | 3 => sealCall (some p) inst nonce p [] (tagLen lvl) s
  | _ => sealCall none inst nonce [] p (tagLen lvl) s

/-- One AEAD.open call of OpenBody (R182): on Ok the payload is `body` where the level only authenticates and the
plaintext where it encrypts; on Err OpenBody returns Fail. -/
def openCall (keep : Option Bytes) (inst nonce ad ct tag : Bytes) (t : Nat) (s : State) :
    Host.Outcome State Fault Refusal :=
  if openBreach ct (askOpen inst nonce ad ct tag t s).1 then .fault .portContract
  else
    .next ((askOpen inst nonce ad ct tag t s).2.withEngine
      (match (askOpen inst nonce ad ct tag t s).1 with
        | some pt => .opened (keep.getD pt)
        | none => .openFailed))

/-- OpenBody (R182). -/
def openBody (lvl : BitVec 3) (inst nonce body tag : Bytes) (s : State) : Host.Outcome State Fault Refusal :=
  match lvl.toNat with
  | 0 => .next (s.withEngine (.opened body))
  | 1 | 2 | 3 => openCall (some body) inst nonce body [] tag (tagLen lvl) s
  | 4 => openCall none inst nonce [] body [] 0 s
  | _ => openCall none inst nonce [] body tag (tagLen lvl) s

/-- The transform of a level: sealing in SECURE, opening in VERIFY (R181, R182). -/
def transform (lvl : BitVec 3) (s : State) : Host.Outcome State Fault Refusal :=
  match s.engine with
  | .sealing _ inst nonce p => sealBody lvl inst nonce p s
  | .opening _ inst nonce body tag => openBody lvl inst nonce body tag s
  | _ => .refused .noDispatch

/-- SEC.NONE (R181, R182): no tag, no encryption, no port call. -/
def execSecNone (_f : ScFields) (s : State) : Host.Outcome State Fault Refusal := transform 0 s

/-- SEC.MIC32 (R181, R182): a tag of 4 bytes, no encryption. -/
def execSecMic32 (_f : ScFields) (s : State) : Host.Outcome State Fault Refusal := transform 1 s

/-- SEC.MIC64 (R181, R182): a tag of 8 bytes, no encryption. -/
def execSecMic64 (_f : ScFields) (s : State) : Host.Outcome State Fault Refusal := transform 2 s

/-- SEC.MIC128 (R181, R182): a tag of 16 bytes, no encryption. -/
def execSecMic128 (_f : ScFields) (s : State) : Host.Outcome State Fault Refusal := transform 3 s

/-- SEC.ENC (R181, R182): no tag, encryption. -/
def execSecEnc (_f : ScFields) (s : State) : Host.Outcome State Fault Refusal := transform 4 s

/-- SEC.ENCMIC32 (R181, R182): a tag of 4 bytes, encryption. -/
def execSecEncMic32 (_f : ScFields) (s : State) : Host.Outcome State Fault Refusal := transform 5 s

/-- SEC.ENCMIC64 (R181, R182): a tag of 8 bytes, encryption. -/
def execSecEncMic64 (_f : ScFields) (s : State) : Host.Outcome State Fault Refusal := transform 6 s

/-- SEC.ENCMIC128 (R181, R182): a tag of 16 bytes, encryption. -/
def execSecEncMic128 (_f : ScFields) (s : State) : Host.Outcome State Fault Refusal := transform 7 s

end Sys2Proof.Machine
end

