-- ==== Sys2Proof/Machine/Security.lean ====
section
/-! DEFINITION. SecurityTransform: SECURE and VERIFY (spec/43_security_transform.md R183-R194). -/

namespace Sys2Proof.Machine

/-- The transform dispatch of SECURE and VERIFY (R181, R182, spec/00_scope.md R15): the row the security level of the
security control byte selects, run on the operands the command has set. -/
def transformDispatch (sc : Byte) (s : State) : Host.Outcome State Fault Refusal :=
  match (scLevel sc).toNat with
  | 0 => execSecNone (scFields sc) s
  | 1 => execSecMic32 (scFields sc) s
  | 2 => execSecMic64 (scFields sc) s
  | 3 => execSecMic128 (scFields sc) s
  | 4 => execSecEnc (scFields sc) s
  | 5 => execSecEncMic32 (scFields sc) s
  | 6 => execSecEncMic64 (scFields sc) s
  | _ => execSecEncMic128 (scFields sc) s

/-- The security level AUX_CTRL.SEC_LEVEL (spec/10_state.md R41). -/
def HeaderRegs.level (h : HeaderRegs) : BitVec 3 := scLevel h.auxCtrl

/-- Both address modes are modes of an address (R188, R189). -/
def modeCheck (h : HeaderRegs) : Except Stop Unit :=
  demand (fcDstMode h.fc != 1 && fcSrcMode h.fc != 1) .invalidAddressMode 1

/-- LengthCheck (R184), as the source states it. -/
def lengthCheck (h : HeaderRegs) : Except Stop Unit :=
  demand (decide (tagLen h.level + h.auxSize + 2 ≤ 127)) .frameTooLong 0

/-- The counter is not exhausted: step 4. -/
def counterCheck (c : Word) : Except Stop Unit := demand (c != 0xFFFFFFFF) .counterError 0

/-- What steps 5 to 7 give: the AEAD instance and the nonce, or the code they raise. -/
inductive Prepared where
  | ready (inst nonce : Bytes)
  | failed (c : Code)
deriving DecidableEq, Repr

/-- KeyStep (R186): the lookup by destination address mode, key identifier and destination address. -/
def keyStep (s : State) : Option Bytes × State :=
  askKey (fcDstMode s.hdr.fc) (scKeyIdMode s.hdr.auxCtrl) s.hdr.kidUsed s.hdr.dstAddr s

/-- The nonce of step 7 (R185), where the source has an extended address. -/
def nonceStep (c : Word) (s : State) : Option Bytes :=
  (extAddrOf s.platform s.hdr.srcAddr).map fun ea => nonceOf ea c s.hdr.level

/-- Steps 5 to 7 (R185-R187), with the state after the port calls. -/
def prepare (c : Word) (s : State) : Prepared × State :=
  match keyStep s with
  | (none, s1) => (.failed .unavailableKey, s1)
  | (some key, s1) =>
    match askInit key s1 with
    | (none, s2) => (.failed .keyFailure, s2)
    | (some inst, s2) =>
      match nonceStep c s2 with
      | none => (.failed .nonceAddressUnavailable, s2)
      | some nonce => (.ready inst nonce, s2)

/-! ## SECURE -/

/-- The checks of SECURE on a frame with security on, before any port call, in order (R188, steps 3 and 4). -/
def secureChecks (s : State) : Except Stop Unit := do
  modeCheck s.hdr
  lengthCheck s.hdr
  demand (decide (s.plen.toNat + tagLen s.hdr.level ≤ bufferSize)) .frameTooLong 0
  counterCheck s.frameCounter

/-- The first checks of SECURE (R188): no double securing, and the contract. -/
def secureGuard (s : State) : Except Stop Unit := do
  demand (!s.status.secured) .sequenceError 0
  contractCheck s.hdr

/-- SECURE's commit, all in one step (R188, R190): the payload and the tag into PBUF, PLEN, AUX_FC where the field is
present, the counter advanced by 1. -/
def secureCommit (p tag : Bytes) (s : State) : State :=
  { s with
    mem := (s.mem.writeBuf .pbuf 0 p).writeBuf .pbuf s.plen.toNat tag,
    plen := BitVec.ofNat 7 (s.plen.toNat + tagLen s.hdr.level),
    hdr := { s.hdr with
      auxFc := if fcPresent (fcVersion s.hdr.fc) s.hdr.auxCtrl then s.frameCounter else s.hdr.auxFc },
    frameCounter := s.frameCounter + 1,
    status := { s.status.endedOk with secured := true, secPhase := .secured }, engine := .idle }

/-- The end of SECURE, from the result the transform row left. No row leaves any other result. -/
def secureEnd (s : State) : State :=
  match s.engine with
  | .sealed p tag => secureCommit p tag s
  | .raised c v => raiseIn .secure c v s
  | _ => s

/-- Step 8 and the commit of SECURE, with the instance and the nonce at hand (R188). -/
def secureSeal (inst nonce : Bytes) (s : State) : Host.Outcome State Fault Refusal :=
  match s.mem.readBuf .pbuf 0 s.plen.toNat with
  | none => .fault .uninitRead
  | some p =>
    match transformDispatch s.hdr.auxCtrl (s.withEngine (.sealing s.hdr.auxCtrl inst nonce p)) with
    | .next s' => .next (secureEnd s')
    | .fault r => .fault r
    | .refused r => .refused r

/-- SECURE of a frame with security on: steps 3 to 9 (R188). -/
def secureOn (s : State) : Host.Outcome State Fault Refusal :=
  match secureChecks s with
  | .error (.raise c v) => .next (raiseIn .secure c v s)
  | .error (.fault r) => .fault r
  | .ok () =>
    match prepare s.frameCounter s with
    | (.failed c, s') => .next (raiseIn .secure c 0 s')
    | (.ready inst nonce, s') => secureSeal inst nonce s'

/-- SECURE of a frame with security off: step 2, STATUS only (R188). -/
def secureOff (s : State) : State :=
  { s with status := { s.status.endedOk with secPhase := .unsecured }, engine := .idle }

/-- SECURE (R188). -/
def execSecure (s : State) : Host.Outcome State Fault Refusal :=
  match secureGuard s with
  | .error (.raise c v) => .next (raiseIn .secure c v s)
  | .error (.fault r) => .fault r
  | .ok () => if fcSecurity s.hdr.fc then secureOn s else .next (secureOff s)

/-! ## VERIFY -/

/-- The counter VERIFY uses (R189): the received one where the field is present, else FRAME_COUNTER. -/
def verifyCounter (s : State) : Word :=
  if fcPresent (fcVersion s.hdr.fc) s.hdr.auxCtrl then s.hdr.auxFc else s.frameCounter

/-- The first checks of VERIFY (R189): a decoded frame not yet verified, and the contract. -/
def verifyGuard (s : State) : Except Stop Unit := do
  demand (s.status.frameValid && !s.status.verified) .sequenceError 0
  contractCheck s.hdr

/-- The checks of VERIFY on a frame with security on, before any port call, in order (R189, steps 3 and 4). -/
def verifyChecks (s : State) : Except Stop Unit := do
  modeCheck s.hdr
  lengthCheck s.hdr
  counterCheck (verifyCounter s)

/-- VERIFY's commit, all in one step (R189): the plaintext in place, the view shortened by the tag. -/
def verifyCommit (pt : Bytes) (s : State) : State :=
  { s with
    mem := s.mem.writeBuf .fbuf s.payload.off.toNat pt,
    payload := { s.payload with len := BitVec.ofNat 7 (s.payload.len.toNat - tagLen s.hdr.level) },
    status := { s.status.endedOk with verified := true, secPhase := .secured }, engine := .idle }

/-- The end of VERIFY, from the result the transform row left (R189). No row leaves any other result. -/
def verifyEnd (s : State) : State :=
  match s.engine with
  | .opened pt => verifyCommit pt s
  | .openFailed => raiseIn .verify .verificationFailure 0 s
  | _ => s

/-- Step 8 and the commit of VERIFY (R189): the body is the payload without its last `t` bytes, the tag those bytes;
a payload shorter than the tag is a VerificationFailure. -/
def verifyOpen (inst nonce : Bytes) (s : State) : Host.Outcome State Fault Refusal :=
  if s.payload.len.toNat < tagLen s.hdr.level then .next (raiseIn .verify .verificationFailure 0 s)
  else
    match s.mem.readBuf .fbuf s.payload.off.toNat s.payload.len.toNat with
    | none => .fault .uninitRead
    | some bs =>
      match transformDispatch s.hdr.auxCtrl
          (s.withEngine (.opening s.hdr.auxCtrl inst nonce (bs.take (s.payload.len.toNat - tagLen s.hdr.level))
            (bs.drop (s.payload.len.toNat - tagLen s.hdr.level)))) with
      | .next s' => .next (verifyEnd s')
      | .fault r => .fault r
      | .refused r => .refused r

/-- VERIFY of a frame with security on (R189). -/
def verifyOn (s : State) : Host.Outcome State Fault Refusal :=
  match verifyChecks s with
  | .error (.raise c v) => .next (raiseIn .verify c v s)
  | .error (.fault r) => .fault r
  | .ok () =>
    match prepare (verifyCounter s) s with
    | (.failed c, s') => .next (raiseIn .verify c 0 s')
    | (.ready inst nonce, s') => verifyOpen inst nonce s'

/-- VERIFY of a frame with security off: step 2, nothing to verify (R189). -/
def verifyOff (s : State) : State :=
  { s with status := { s.status.endedOk with verified := true, secPhase := .unsecured }, engine := .idle }

/-- VERIFY (R189). -/
def execVerify (s : State) : Host.Outcome State Fault Refusal :=
  match verifyGuard s with
  | .error (.raise c v) => .next (raiseIn .verify c v s)
  | .error (.fault r) => .fault r
  | .ok () => if fcSecurity s.hdr.fc then verifyOn s else .next (verifyOff s)

end Sys2Proof.Machine
end

