-- ==== Sys2Proof/Machine/System.lean ====
section
/-! DEFINITION. NOP and the illegal command (spec/44_frame_codec.md R222, R223). -/

namespace Sys2Proof.Machine

/-- NOP (R222): CODE and ERR_VAL only. -/
def execNop (s : State) : Host.Outcome State Fault Refusal := .next { s with status := s.status.endedOk }

/-- ILLEGAL (R223): CODE is IllegalCommand and ERR_VAL is `w[7:0]`, and nothing else. -/
def execIllegal (w : Word) (s : State) : Host.Outcome State Fault Refusal :=
  .next { s with status := s.status.ended .illegalCommand (w.extractLsb' 0 8) }

end Sys2Proof.Machine
end

