-- ==== Sys2Proof/Machine/Dispatch.lean ====
section
/-! DEFINITION. The meaning of every instruction: one arm per row of spec/opcode_table.json. -/

namespace Sys2Proof.Machine

def exec (i : Instr) (s : State) : Host.Outcome State Fault Refusal :=
  match i with
  | .nop => Sys2Proof.Machine.execNop s
  | .decode => Sys2Proof.Machine.execDecode s
  | .encode => Sys2Proof.Machine.execEncode s
  | .secure => Sys2Proof.Machine.execSecure s
  | .verify => Sys2Proof.Machine.execVerify s
  | .illegal w => Sys2Proof.Machine.execIllegal w s
  | .contentBeacon f => Sys2Proof.Machine.execContentBeacon f s
  | .contentData f => Sys2Proof.Machine.execContentData f s
  | .contentAck f => Sys2Proof.Machine.execContentAck f s
  | .contentCommand f => Sys2Proof.Machine.execContentCommand f s
  | .contentInvalid ft f => Sys2Proof.Machine.execContentInvalid ft f s
  | .secNone f => Sys2Proof.Machine.execSecNone f s
  | .secMic32 f => Sys2Proof.Machine.execSecMic32 f s
  | .secMic64 f => Sys2Proof.Machine.execSecMic64 f s
  | .secMic128 f => Sys2Proof.Machine.execSecMic128 f s
  | .secEnc f => Sys2Proof.Machine.execSecEnc f s
  | .secEncMic32 f => Sys2Proof.Machine.execSecEncMic32 f s
  | .secEncMic64 f => Sys2Proof.Machine.execSecEncMic64 f s
  | .secEncMic128 f => Sys2Proof.Machine.execSecEncMic128 f s

end Sys2Proof.Machine
end

