-- ==== Sys2Proof/Machine/Step.lean ====
section
/-! DEFINITION. One step of the machine: one turn of the outside, and the command it starts as one atomic transition
(spec/00_scope.md R12; spec/20_memory.md R70; spec/70_reset_and_hazards.md R291). -/

namespace Sys2Proof.Machine

/-- One step: the next turn; an instruction to run is run whole. -/
def step (s : State) : Host.Outcome State Fault Refusal :=
  match nextTurn s with
  | .run i s' => exec i s'
  | .over o => o

/-- The ports with an answer that keeps the contract listed next for the port a pending dispatch asks, if it asks one
(log 6). -/
def Ports.answering (p : Ports) : Engine → Ports
  | .decoding fc _ _ =>
    match (fcType fc).toNat with
    | 0 => { p with beaconDecode := .ok 0 :: p.beaconDecode }
    | 3 => { p with commandDecode := .ok 0 :: p.commandDecode }
    | _ => p
  | .sealing sc _ _ _ =>
    match (scLevel sc).toNat with
    | 0 => p
    | _ => { p with aeadSeal := some ([], List.replicate (tagLen (scLevel sc)) 0) :: p.aeadSeal }
  | _ => p

/-- The state with a dispatch pending and its port's answer at hand. -/
def State.withDispatch (s : State) (e : Engine) : State := (s.withEngine e).withPorts (s.ports.answering e)

/-- The state in which the next step runs the instruction of `nbits` bits `w`: a command word is the host's next
transaction, a write to CMD; a frame control word is a pending content dispatch and a security control byte a pending
transform dispatch, each with empty operands and with the answer of the port that its row asks. -/
def State.withFetchWord (s : State) (nbits w : Nat) : State :=
  match formatOfBits nbits with
  | some .cmd32 =>
    { s with
      engine := .idle, status := { s.status with busy := false },
      host := .write s.platform.base 32 (BitVec.ofNat 32 w) :: s.host }
  | some .fc16 => s.withDispatch (.decoding (BitVec.ofNat 16 w) 0 0)
  | some .sc8 => s.withDispatch (.sealing (BitVec.ofNat 8 w) [] [] [])
  | none => s

end Sys2Proof.Machine
end

