-- ==== Sys2Proof/Machine/Script.lean ====
section
/-! DEFINITION. The bus-script syntax of host programs, as the transactions it stands for (spec/30_encoding.md R108,
R109). Offsets are relative to FHP_BASE, the argument `base`. -/

namespace Sys2Proof.Machine

/-- `WR reg, imm32`. -/
def wr (base : Nat) (r : Reg) (imm : Word) : BusOp := .write (base + r.offset) 32 imm

/-- `RD reg`. -/
def rd (base : Nat) (r : Reg) : BusOp := .read (base + r.offset) 32

/-- `WRB FBUF[i], b` and `WRB PBUF[i], b`. -/
def wrb (base : Nat) (b : Buffer) (i : Nat) (x : Byte) : BusOp := .write (base + b.base + i) 8 (x.setWidth 32)

/-- `RDB FBUF[i]` and `RDB PBUF[i]`. -/
def rdb (base : Nat) (b : Buffer) (i : Nat) : BusOp := .read (base + b.base + i) 8

/-- `WRW FBUF[i], imm32`, for `i mod 4 = 0`. -/
def wrw (base : Nat) (i : Nat) (imm : Word) : BusOp := .write (base + Buffer.fbuf.base + i) 32 imm

/-- `CMD mnemonic`, given the command's word: the write to CMD, then WAIT, which reads STATUS once, since BUSY is 0
between transitions (R109, spec/10_state.md R24). -/
def cmd (base : Nat) (opc : Word) : List BusOp := [wr base .cmd opc, rd base .status]

/-- The byte writes of LOADF and LOADP. -/
def loadBytes (base : Nat) (b : Buffer) (i : Nat) : Bytes → List BusOp
  | [] => []
  | x :: xs => wrb base b i x :: loadBytes base b (i + 1) xs

/-- `LOADF b0, ..., b(n-1)`. -/
def loadF (base : Nat) (bs : Bytes) : List BusOp :=
  loadBytes base .fbuf 0 bs ++ [wr base .len (BitVec.ofNat 32 bs.length)]

/-- `LOADP b0, ..., b(n-1)`. -/
def loadP (base : Nat) (bs : Bytes) : List BusOp :=
  loadBytes base .pbuf 0 bs ++ [wr base .plen (BitVec.ofNat 32 bs.length)]

end Sys2Proof.Machine
end

