-- ==== Sys2Proof/Safety.lean ====
section
/-! DEFINITION. What the claims speak of: the invariant of the block between commands, the registers' writable bits,
well-formed header registers, what a host can see, and the counters SECURE uses. -/

namespace Sys2Proof.Machine

/-! ## The invariant -/

/-- SEC_PHASE shows a final value (spec/10_state.md R31, spec/43_security_transform.md R191). -/
def SecPhase.settled : SecPhase → Bool
  | .unsecured | .secured | .rejected => true
  | .validating | .keyLookup | .transforming => false

/-- The code can be raised (spec/41_header_codec.md R147, spec/60_exceptions.md R240). -/
def Code.raisable : Code → Bool
  | .invalidSecurityLevel | .invalidKeyIdentifierMode | .securityNotSupported => false
  | _ => true

/-- STATUS between commands: not busy (R24), VERIFIED only with FRAME_VALID (R26, R27), a final SEC_PHASE (R31), a code
that can be raised. -/
def Status.consistent (st : Status) : Bool :=
  !st.busy && (!st.verified || st.frameValid) && st.secPhase.settled && st.code.raisable

/-- CONTENT.OFF equals HDR_LEN (R45); while FRAME_VALID = 1 the payload follows the content and lies within the frame
(R26, R46). -/
def State.viewsAgree (s : State) : Bool :=
  s.content.off == s.hdrLen &&
    (!s.status.frameValid ||
      (s.payload.off.toNat == s.content.off.toNat + s.content.len.toNat &&
        decide (s.payload.off.toNat + s.payload.len.toNat ≤ s.len.toNat)))

/-- While SECURED = 1 every byte of PBUF[0..PLEN) is defined (R28). -/
def State.payloadDefined (s : State) : Bool :=
  !s.status.secured || (s.mem.readBuf .pbuf 0 s.plen.toNat).isSome

/-- The invariant of the block between commands: memory in its canonical form, no command-internal state (R21, R56),
STATUS and the views consistent, a secured payload defined. -/
abbrev State.Inv (s : State) : Prop :=
  s.mem.wf = true ∧ s.engine = .idle ∧ s.status.consistent = true ∧ s.viewsAgree = true ∧ s.payloadDefined = true

/-! ## Registers -/

/-- The bits of a register that a host write stores (spec/10_state.md R22, R32-R48). -/
def Reg.writable : Reg → Word
  | .cmd | .status | .hdrLen | .content | .payload => 0
  | .cfg => 0x00000001
  | .len | .plen => 0x0000007F
  | .hdrCtrl => 0x01FFFC7F
  | .dstPan | .srcPan | .footer => 0x0000FFFF
  | .auxCtrl | .kid2 => 0x000000FF
  | .dstAddrLo | .dstAddrHi | .srcAddrLo | .srcAddrHi | .auxFc | .kid0 | .kid1 | .frameCounter => 0xFFFFFFFF

/-- The address register bits that the mode does not use are 0 (spec/44_frame_codec.md R225). -/
def addrCanonical (mode : BitVec 2) (pan : Half) (lo hi : Word) : Bool :=
  match mode.toNat with
  | 2 => lo.extractLsb' 16 16 == 0 && hi == 0
  | 3 => true
  | _ => pan == 0 && lo == 0 && hi == 0

/-- The auxiliary registers hold only what the header carries (R225). -/
def HeaderRegs.auxCanonical (h : HeaderRegs) : Bool :=
  if fcSecurity h.fc then
    h.kid.drop (kidLen (scKeyIdMode h.auxCtrl)) == List.replicate (9 - kidLen (scKeyIdMode h.auxCtrl)) 0 &&
      (fcPresent (fcVersion h.fc) h.auxCtrl || h.auxFc == 0)
  else h.auxCtrl == 0 && h.auxFc == 0 && h.kid == List.replicate 9 0

/-- The header registers are those of a well-formed header in the sense of R225. -/
def HeaderRegs.canonical (h : HeaderRegs) : Bool :=
  (!srcPanCompressed (fcCompress h.fc) (fcDstMode h.fc) (fcSrcMode h.fc) || h.srcPan == h.dstPan) &&
    addrCanonical (fcDstMode h.fc) h.dstPan h.dstLo h.dstHi &&
    addrCanonical (fcSrcMode h.fc) h.srcPan h.srcLo h.srcHi && h.auxCanonical && fcRsvd h.fc == 0

/-- The body codec of the frame type, if any, will decode what it encodes next (R225); the frame type is 0 to 3. -/
def State.bodyRoundTrips (s : State) : Prop :=
  match (fcType s.hdr.fc).toNat with
  | 0 => ∃ b es ds, s.ports.beaconEncode = .ok b :: es ∧ s.ports.beaconDecode = .ok b.length :: ds
  | 1 => True
  | 2 => True
  | 3 => ∃ b es ds, s.ports.commandEncode = .ok b :: es ∧ s.ports.commandDecode = .ok b.length :: ds
  | _ => False

/-! ## What a host can see -/

/-- The state without the ports' side: the host sees neither the requests nor the answers (spec/10_state.md R56,
spec/60_exceptions.md R251). -/
def State.visible (s : State) : State := s.withPorts Ports.none

/-- What a host can see of an outcome. -/
def visibleOutcome : Host.Outcome State Fault Refusal → Host.Outcome State Fault Refusal
  | .next s => .next s.visible
  | .fault r => .fault r
  | .refused r => .refused r

/-- The state with another key as the next answer of KEY_LOOKUP. -/
def State.withNextKey (s : State) (key : Bytes) : State :=
  s.withPorts { s.ports with keyLookup := some key :: s.ports.keyLookup.tail }

/-! ## The counters SECURE uses -/

/-- The transaction leaves FRAME_COUNTER to the block: it is neither a write at its address nor a reset. -/
def BusOp.keepsCounter (p : Platform) : BusOp → Bool
  | .write addr _ _ => addr != p.base + Reg.frameCounter.offset
  | .reset => false
  | .read _ _ | .otherHost => true

/-- The counter the next step uses, if it is a SECURE that succeeds with security on (spec/43_security_transform.md
R190, R194). -/
def usedCounter (s : State) : List Nat :=
  match nextTurn s with
  | .run .secure s' =>
    match exec .secure s' with
    | .next t => if fcSecurity s'.hdr.fc && t.status.code == .ok then [s'.frameCounter.toNat] else []
    | _ => []
  | _ => []

/-- The counters the next `n` steps use, in order. -/
def usedCounters : Nat → State → List Nat
  | 0, _ => []
  | n + 1, s =>
    usedCounter s ++
      match step s with
      | .next t => usedCounters n t
      | _ => []

end Sys2Proof.Machine
end

