-- ==== Sys2Proof/Certificates/Slice0/Obligations.lean ====
section
/-! DEFINITION. The statements about the block, from the numbered rules of spec/. -/

open Sys2Proof Sys2Proof.Machine

/-! ## Encodings -/

/-- Every well-formed instruction is what the decoder reads from its encoding (spec/30_encoding.md sections 1 to 3). -/
def Obligations.DecodeOfEncodeIsTheInstruction : Prop :=
  ∀ i : Instr, i.WellFormed → decodeBytes i.format (encode i) = .ok i

/-- Every byte string of a format's length is the encoding of one well-formed instruction of that format, and every
other length is refused by name (spec/30_encoding.md sections 1 to 3). -/
def Obligations.EveryWordHasOneMeaning : Prop :=
  ∀ (f : Format) (bs : Bytes),
    (bs.length = f.bytes → ∃ i : Instr, decodeBytes f bs = .ok i ∧ i.WellFormed ∧ i.format = f ∧ encode i = bs) ∧
    (bs.length ≠ f.bytes → decodeBytes f bs = .error (.wrongLength f bs.length))

/-- The decoder answers the row of the opcode table that the word's bits match (R110). -/
def Obligations.DecoderFollowsTheOpcodeTable : Prop :=
  ∀ (f : Format) (w : Nat), w < 2 ^ (8 * f.bytes) →
    ∃ i : Instr, decodeBytes f (toLE f.bytes w) = .ok i ∧ tableMnemonic f w = some i.mnemonic

/-- Words written out from the encodings of spec/30_encoding.md R91-R93, R95, R101 (0x8841, 0x8C42 and 0x0D are words of
spec/95_test_vectors.md). -/
def Obligations.WordsOfTheSpecDecode : Prop :=
  decodeBytes .cmd32 [0x01, 0x00, 0x00, 0x00] = .ok .decode ∧
  decodeBytes .cmd32 [0x04, 0x00, 0x00, 0x00] = .ok .verify ∧
  decodeBytes .cmd32 [0x05, 0x01, 0x00, 0x00] = .ok (.illegal 0x00000105) ∧
  decodeBytes .fc16 [0x41, 0x88] = .ok (.contentData
    { security := false, framePending := false, ackRequest := false, panIdCompress := true, rsvd := 0, dstMode := 2,
      version := 0, srcMode := 2 }) ∧
  decodeBytes .fc16 [0x42, 0x8C] = .ok (.contentAck
    { security := false, framePending := false, ackRequest := false, panIdCompress := true, rsvd := 0, dstMode := 3,
      version := 0, srcMode := 2 }) ∧
  decodeBytes .sc8 [0x0D] = .ok (.secEncMic32
    { keyIdMode := 1, fcSuppress := false, asnInNonce := false, rsvd := false })

/-- A step runs the instruction that is next. A command word is the host's next transaction, a 32-bit write at offset
0x000; its four bytes are decoded and the command runs on the state without that transaction. A pending dispatch of
the model (log 6) runs the row its word decodes to. -/
def Obligations.StepRunsTheDecodedInstruction : Prop :=
  (∀ (s : State) (w : Word) (rest : List BusOp) (i : Instr),
    s.engine.pendingRow = none → s.status.busy = false → s.host = .write s.platform.base 32 w :: rest →
    decodeBytes .cmd32 (le32 w) = .ok i → step s = exec i { s with host := rest }) ∧
  (∀ (s : State) (fc : Half) (a b : Nat) (i : Instr),
    s.engine = .decoding fc a b ∨ s.engine = .encoding fc a b →
    decodeBytes .fc16 (le16 fc) = .ok i → step s = exec i s) ∧
  (∀ (s : State) (sc : Byte) (inst nonce p tag : Bytes) (i : Instr),
    s.engine = .sealing sc inst nonce p ∨ s.engine = .opening sc inst nonce p tag →
    decodeBytes .sc8 [sc] = .ok i → step s = exec i s)

/-! ## NOP and illegal words -/

/-- NOP (R222): CODE and ERR_VAL become 0, and with them ERR; every other STATUS bit and everything else stays. -/
def Obligations.NopClearsTheCode : Prop :=
  ∀ s : State, ∃ t : State, exec .nop s = .next t ∧ t.status.word = s.status.word &&& 0x0700001D ∧
    { t with status := s.status } = s

/-- Illegal words (R92, R93, R223): every word but the five commands' decodes to ILLEGAL, which writes CODE 0x30 and
ERR_VAL `w[7:0]`, and nothing else. -/
def Obligations.IllegalWordsReportThemselves : Prop :=
  ∀ (s : State) (w : Word), 5 ≤ w.toNat →
    decodeBytes .cmd32 (le32 w) = .ok (.illegal w) ∧
    ∃ t : State, exec (.illegal w) s = .next t ∧
      t.status.word = (s.status.word &&& 0x0700001D) ||| 0x00003002 ||| ((w &&& 0x000000FF) <<< 16) ∧
      { t with status := s.status } = s

/-! ## DECODE -/

/-- FcDecode (R140): NotEnoughBytes(0) under 2 bytes, then InvalidAddressMode(1), then InvalidFrameType, then
InvalidFrameVersion(3); else the word, low byte first. -/
def Obligations.FrameControlChecksInOrder : Prop :=
  ∀ s : State,
    (s.len.toNat < 2 → exec .decode s = .next (raiseIn .decode .notEnoughBytes 0 s)) ∧
    ∀ b0 b1 : Byte, 2 ≤ s.len.toNat → s.mem.readBuf .fbuf 0 2 = some [b0, b1] →
      if (b1 ++ b0).extractLsb' 10 2 = 1 ∨ (b1 ++ b0).extractLsb' 14 2 = 1 then
        exec .decode s = .next (raiseIn .decode .invalidAddressMode 1 s)
      else if 4 ≤ ((b1 ++ b0).extractLsb' 0 3).toNat then
        exec .decode s = .next (raiseIn .decode .invalidFrameType (((b1 ++ b0).extractLsb' 0 3).setWidth 8) s)
      else if (b1 ++ b0).extractLsb' 12 2 = 3 then
        exec .decode s = .next (raiseIn .decode .invalidFrameVersion 3 s)
      else fcDecode s.mem s.len.toNat = .ok (b1 ++ b0)

/-- AddressDecode (R130): mode 0 consumes nothing, mode 1 is InvalidAddressMode(1), modes 2 and 3 read a PAN
identifier, unless it is implied equal to the destination's, and 2 or 8 address bytes, all little-endian; a field that
does not fit is NotEnoughBytes at its offset. -/
def Obligations.AddressDecodeReadsTheWire : Prop :=
  ∀ (m : Memory) (role : Role) (pic : Bool) (other : Option Address) (fin cur : Nat),
    addressDecode m 0 role pic other fin cur = .ok (none, cur) ∧
    addressDecode m 1 role pic other fin cur = .error (.raise .invalidAddressMode 1) ∧
    (¬(role = .src ∧ pic = true ∧ other.isSome) →
      (fin < cur + 2 → ∀ mode : BitVec 2, mode = 2 ∨ mode = 3 →
        addressDecode m mode role pic other fin cur = .error (.raise .notEnoughBytes (BitVec.ofNat 8 cur))) ∧
      ∀ p0 p1 : Byte, cur + 2 ≤ fin → m.readBuf .fbuf cur 2 = some [p0, p1] →
        (fin < cur + 4 →
          addressDecode m 2 role pic other fin cur = .error (.raise .notEnoughBytes (BitVec.ofNat 8 (cur + 2)))) ∧
        (fin < cur + 10 →
          addressDecode m 3 role pic other fin cur = .error (.raise .notEnoughBytes (BitVec.ofNat 8 (cur + 2)))) ∧
        (∀ a0 a1 : Byte, cur + 4 ≤ fin → m.readBuf .fbuf (cur + 2) 2 = some [a0, a1] →
          addressDecode m 2 role pic other fin cur = .ok (some (.short (p1 ++ p0) (a1 ++ a0)), cur + 4)) ∧
        (∀ a0 a1 a2 a3 a4 a5 a6 a7 : Byte, cur + 10 ≤ fin →
          m.readBuf .fbuf (cur + 2) 8 = some [a0, a1, a2, a3, a4, a5, a6, a7] →
          addressDecode m 3 role pic other fin cur =
            .ok (some (.extended (p1 ++ p0) (a7 ++ a6 ++ a5 ++ a4 ++ a3 ++ a2 ++ a1 ++ a0)), cur + 10))) ∧
    (∀ o : Address, role = .src → pic = true → other = some o →
      (fin < cur + 2 →
        addressDecode m 2 role pic other fin cur = .error (.raise .notEnoughBytes (BitVec.ofNat 8 cur))) ∧
      (fin < cur + 8 →
        addressDecode m 3 role pic other fin cur = .error (.raise .notEnoughBytes (BitVec.ofNat 8 cur))) ∧
      (∀ a0 a1 : Byte, cur + 2 ≤ fin → m.readBuf .fbuf cur 2 = some [a0, a1] →
        addressDecode m 2 role pic other fin cur = .ok (some (.short (addrPan o) (a1 ++ a0)), cur + 2)) ∧
      (∀ a0 a1 a2 a3 a4 a5 a6 a7 : Byte, cur + 8 ≤ fin →
        m.readBuf .fbuf cur 8 = some [a0, a1, a2, a3, a4, a5, a6, a7] →
        addressDecode m 3 role pic other fin cur =
          .ok (some (.extended (addrPan o) (a7 ++ a6 ++ a5 ++ a4 ++ a3 ++ a2 ++ a1 ++ a0)), cur + 8)))

/-- AuxDecode (R144): the control byte, the little-endian counter where FcPresent, then KidLen key identifier bytes; a
field that does not fit is NotEnoughBytes at its offset. -/
def Obligations.AuxDecodeReadsTheWire : Prop :=
  ∀ (m : Memory) (ver : BitVec 2) (fin cur : Nat),
    (fin < cur + 1 → auxDecode m ver fin cur = .error (.raise .notEnoughBytes (BitVec.ofNat 8 cur))) ∧
    ∀ sc : Byte, cur + 1 ≤ fin → m.readBuf .fbuf cur 1 = some [sc] →
      (fcPresent ver sc = true →
        (fin < cur + 5 →
          auxDecode m ver fin cur = .error (.raise .notEnoughBytes (BitVec.ofNat 8 (cur + 1)))) ∧
        ∀ c0 c1 c2 c3 : Byte, cur + 5 ≤ fin → m.readBuf .fbuf (cur + 1) 4 = some [c0, c1, c2, c3] →
          (fin < cur + 5 + kidLen (scKeyIdMode sc) →
            auxDecode m ver fin cur = .error (.raise .notEnoughBytes (BitVec.ofNat 8 (cur + 5)))) ∧
          (∀ kid : Bytes, cur + 5 + kidLen (scKeyIdMode sc) ≤ fin →
            m.readBuf .fbuf (cur + 5) (kidLen (scKeyIdMode sc)) = some kid →
            auxDecode m ver fin cur =
              .ok ({ sc := sc, fcv := some (c3 ++ c2 ++ c1 ++ c0), kid := kid },
                cur + 5 + kidLen (scKeyIdMode sc)))) ∧
      (fcPresent ver sc = false →
        (fin < cur + 1 + kidLen (scKeyIdMode sc) →
          auxDecode m ver fin cur = .error (.raise .notEnoughBytes (BitVec.ofNat 8 (cur + 1)))) ∧
        (∀ kid : Bytes, cur + 1 + kidLen (scKeyIdMode sc) ≤ fin →
          m.readBuf .fbuf (cur + 1) (kidLen (scKeyIdMode sc)) = some kid →
          auxDecode m ver fin cur =
            .ok ({ sc := sc, fcv := none, kid := kid }, cur + 1 + kidLen (scKeyIdMode sc))))

/-- A header decodes from its own bytes alone: with any end at or after its length, and whatever the rest of memory
holds, it decodes the same; with any end before its length it is NotEnoughBytes at an offset the frame still reaches.
What HeaderDecode raises DECODE raises, and a footer that does not fit after the header is NotEnoughBytes at the
header's length (spec/41_header_codec.md section 2, spec/44_frame_codec.md). -/
def Obligations.HeaderDecodeNeedsItsOwnBytes : Prop :=
  (∀ (m : Memory) (fin hl : Nat) (h : Hdr), headerDecode m fin = .ok (h, hl) →
    (∀ (m' : Memory) (n : Nat), (∀ i, i < hl → m'.read (0x100 + i) = m.read (0x100 + i)) → hl ≤ n →
      headerDecode m' n = .ok (h, hl)) ∧
    (∀ n, n < hl → ∃ c : Byte, headerDecode m n = .error (.raise .notEnoughBytes c) ∧ c.toNat ≤ n)) ∧
  (∀ (s : State) (c : Code) (v : Byte), headerDecode s.mem s.len.toNat = .error (.raise c v) →
    exec .decode s = .next (raiseIn .decode c v s)) ∧
  (∀ (s : State) (h : Hdr) (hl : Nat), headerDecode s.mem s.len.toNat = .ok (h, hl) →
    s.len.toNat < hl + footerLen s.footerMode →
    exec .decode s = .next (raiseIn .decode .notEnoughBytes (BitVec.ofNat 8 hl) s))

/-- The header length (R106): what DECODE consumes and what ENCODE produces is HdrLen of the frame control word and
the security control byte, 3 to 37; HdrLen in numbers, with the four key identifier widths (R103) and the presence of
the frame counter (R104). -/
def Obligations.HeaderLengthIsHdrLen : Prop :=
  (∀ (m : Memory) (fin hl : Nat) (h : Hdr), headerDecode m fin = .ok (h, hl) →
    hl = hdrLenOf h.fc ((h.aux.map Aux.sc).getD 0) ∧ 3 ≤ hl ∧ hl ≤ 37) ∧
  (∀ h : HeaderRegs, fcDstMode h.fc ≠ 1 → fcSrcMode h.fc ≠ 1 →
    (headerEncode h).length = hdrLenOf h.fc h.auxCtrl ∧ 3 ≤ (headerEncode h).length ∧ (headerEncode h).length ≤ 37) ∧
  (∀ (fc : Half) (sc : Byte), fcDstMode fc ≠ 1 → fcSrcMode fc ≠ 1 →
    hdrLenOf fc sc =
      3 + (if fcDstMode fc = 0 then 0 else if fcDstMode fc = 2 then 4 else 10) +
        (if fcSrcMode fc = 0 then 0 else if fcSrcMode fc = 2 then 4 else 10) -
        (if fcCompress fc = true ∧ fcDstMode fc ≠ 0 ∧ fcSrcMode fc ≠ 0 then 2 else 0) +
        (if fcSecurity fc = true then
          1 + (if fcVersion fc ≠ 2 ∨ sc.getLsbD 5 = false then 4 else 0) + kidLen (sc.extractLsb' 3 2)
         else 0)) ∧
  (∀ kim : BitVec 2, kidLen kim = if kim = 0 then 0 else if kim = 1 then 1 else if kim = 2 then 5 else 9) ∧
  (∀ (ver : BitVec 2) (sc : Byte), fcPresent ver sc = true ↔ ver ≠ 2 ∨ sc.getLsbD 5 = false)

/-- HeaderCommit (R133, R148): the registers after a DECODE that succeeds, from the header it decoded; a failed
DECODE commits none of this. -/
def Obligations.DecodeCommitsTheHeader : Prop :=
  (∀ (s t : State) (h : Hdr) (hl : Nat), headerDecode s.mem s.len.toNat = .ok (h, hl) → exec .decode s = .next t →
    t.status.code = .ok →
    t.hdr.fc = h.fc ∧ t.hdr.seq = h.seq ∧ t.hdr.auxPresent = fcSecurity h.fc ∧ t.hdrLen.toNat = hl ∧
    (match h.dst with
      | none => t.hdr.dstPan = 0 ∧ t.hdr.dstLo = 0 ∧ t.hdr.dstHi = 0
      | some (.short p a) => t.hdr.dstPan = p ∧ t.hdr.dstLo = a.setWidth 32 ∧ t.hdr.dstHi = 0
      | some (.extended p a) => t.hdr.dstPan = p ∧ t.hdr.dstHi ++ t.hdr.dstLo = a) ∧
    (match h.src with
      | none => t.hdr.srcPan = 0 ∧ t.hdr.srcLo = 0 ∧ t.hdr.srcHi = 0
      | some (.short p a) => t.hdr.srcPan = p ∧ t.hdr.srcLo = a.setWidth 32 ∧ t.hdr.srcHi = 0
      | some (.extended p a) => t.hdr.srcPan = p ∧ t.hdr.srcHi ++ t.hdr.srcLo = a) ∧
    (match h.aux with
      | none => t.hdr.auxCtrl = 0 ∧ t.hdr.auxFc = 0 ∧ t.hdr.kid = List.replicate 9 0
      | some a => t.hdr.auxCtrl = a.sc ∧ t.hdr.auxFc = a.fcv.getD 0 ∧
          t.hdr.kid = a.kid ++ List.replicate (9 - a.kid.length) 0)) ∧
  (∀ s t : State, exec .decode s = .next t → t.status.code ≠ .ok → t.hdr = s.hdr ∧ t.hdrLen = s.hdrLen)

/-- DECODE of a Data or Acknowledgement frame completes whenever the header parses, the footer fits after it and its
bytes are defined; this is the whole next state (spec/44_frame_codec.md, spec/42_content_codec.md). -/
def Obligations.DecodeOfEmptyContentCompletes : Prop :=
  ∀ (s : State) (h : Hdr) (hl : Nat) (ft : Half), headerDecode s.mem s.len.toNat = .ok (h, hl) →
    fcType h.fc = 1 ∨ fcType h.fc = 2 → hl + footerLen s.footerMode ≤ s.len.toNat → footerDecode s = some ft →
    exec .decode s = .next
      { s with
        hdr := headerCommit h, hdrLen := BitVec.ofNat 7 hl, content := ⟨BitVec.ofNat 7 hl, 0⟩,
        payload := ⟨BitVec.ofNat 7 hl, BitVec.ofNat 7 (s.len.toNat - footerLen s.footerMode - hl)⟩, footer := ft,
        status := { s.status with frameValid := true, verified := false, code := .ok, errVal := 0 }, engine := .idle }

/-- DECODE of a Beacon or MAC command frame completes whenever the header parses, the footer fits, the bytes are
defined and the codec of the type answers Ok(n) within the contract: the codec is asked with the bytes from the header
to the footer, and the payload is the rest (spec/44_frame_codec.md, spec/42_content_codec.md). -/
def Obligations.DecodeOfExternalContentCompletes : Prop :=
  ∀ (s : State) (h : Hdr) (hl n : Nat) (ft : Half) (port : BodyPort) (bytes : Bytes) (rest : List (CodecReply Nat)),
    headerDecode s.mem s.len.toNat = .ok (h, hl) →
    fcType h.fc = 0 ∧ port = .beacon ∨ fcType h.fc = 3 ∧ port = .command →
    hl + footerLen s.footerMode ≤ s.len.toNat →
    s.mem.readBuf .fbuf hl (s.len.toNat - footerLen s.footerMode - hl) = some bytes → footerDecode s = some ft →
    s.ports.decodeAnswers port = .ok n :: rest → n ≤ bytes.length →
    exec .decode s = .next
      { s with
        hdr := headerCommit h, hdrLen := BitVec.ofNat 7 hl, content := ⟨BitVec.ofNat 7 hl, BitVec.ofNat 7 n⟩,
        payload := ⟨BitVec.ofNat 7 (hl + n),
          BitVec.ofNat 7 (s.len.toNat - footerLen s.footerMode - (hl + n))⟩, footer := ft,
        status := { s.status with frameValid := true, verified := false, code := .ok, errVal := 0 }, engine := .idle,
        ports := ({ s.ports with log := s.ports.log ++ [.bodyDecode port bytes] } : Ports).nextDecode port }

/-- BodyError (R172): a body codec that answers Err makes DECODE and ENCODE raise NotEnoughBytes or InvalidValue, with
the offset where the content begins as ERR_VAL. -/
def Obligations.BodyErrorsNameTheContentOffset : Prop :=
  (∀ (s : State) (h : Hdr) (hl : Nat) (port : BodyPort) (bytes : Bytes) (e : CodecErr) (rest : List (CodecReply Nat)),
    headerDecode s.mem s.len.toNat = .ok (h, hl) →
    fcType h.fc = 0 ∧ port = .beacon ∨ fcType h.fc = 3 ∧ port = .command →
    hl + footerLen s.footerMode ≤ s.len.toNat →
    s.mem.readBuf .fbuf hl (s.len.toNat - footerLen s.footerMode - hl) = some bytes →
    s.ports.decodeAnswers port = .err e :: rest →
    ∃ p : Ports, exec .decode s = .next
      (raiseIn .decode (if e = .notEnoughBytes then .notEnoughBytes else .invalidValue) (BitVec.ofNat 8 hl)
        { s with ports := p })) ∧
  (∀ (s : State) (port : BodyPort) (e : CodecErr) (rest : List (CodecReply Bytes)),
    headerValidate s.hdr = .ok () →
    fcType s.hdr.fc = 0 ∧ port = .beacon ∨ fcType s.hdr.fc = 3 ∧ port = .command →
    s.ports.encodeAnswers port = .err e :: rest →
    ∃ p : Ports, exec .encode s = .next
      (raiseIn .encode (if e = .notEnoughBytes then .notEnoughBytes else .invalidValue)
        (BitVec.ofNat 8 (headerEncode s.hdr).length) { s with ports := p }))

/-- The footer (R224): copied verbatim from the last two bytes of the frame by DECODE and into them by ENCODE under
Explicit; under None DECODE writes 0x0000 and the payload runs to the end of the frame. -/
def Obligations.FooterIsCopiedVerbatim : Prop :=
  (∀ s t : State, exec .decode s = .next t → t.status.code = .ok →
    (s.footerMode = .explicit → 2 ≤ s.len.toNat ∧
      (∃ b0 b1 : Byte, s.mem.readBuf .fbuf (s.len.toNat - 2) 2 = some [b0, b1] ∧ t.footer = b1 ++ b0) ∧
      t.payload.off.toNat + t.payload.len.toNat = s.len.toNat - 2) ∧
    (s.footerMode = .noFooter → t.footer = 0 ∧ t.payload.off.toNat + t.payload.len.toNat = s.len.toNat)) ∧
  (∀ s t : State, exec .encode s = .next t → t.status.code = .ok → t.footer = s.footer ∧
    (s.footerMode = .explicit →
      t.mem.readBuf .fbuf (t.len.toNat - 2) 2 = some [s.footer.extractLsb' 0 8, s.footer.extractLsb' 8 8] ∧
      t.payload.off.toNat + t.payload.len.toNat + 2 = t.len.toNat) ∧
    (s.footerMode = .noFooter → t.payload.off.toNat + t.payload.len.toNat = t.len.toNat))

/-! ## ENCODE -/

/-- HeaderValidate (R149): ENCODE's checks on the registers, the first that fails is raised. -/
def Obligations.EncodeValidatesInOrder : Prop :=
  ∀ s : State,
    if fcSecurity s.hdr.fc = false ∧ s.hdr.auxPresent = true then
      exec .encode s = .next (raiseIn .encode .securityNotEnabled 0 s)
    else if fcSecurity s.hdr.fc = true ∧ s.hdr.auxPresent = false then
      exec .encode s = .next (raiseIn .encode .auxSecHeaderAbsent 0 s)
    else if fcDstMode s.hdr.fc = 1 ∨ fcSrcMode s.hdr.fc = 1 then
      exec .encode s = .next (raiseIn .encode .invalidAddressMode 1 s)
    else if 3 < (fcType s.hdr.fc).toNat then
      exec .encode s = .next (raiseIn .encode .invalidFrameType ((fcType s.hdr.fc).setWidth 8) s)
    else if fcVersion s.hdr.fc = 3 then exec .encode s = .next (raiseIn .encode .invalidFrameVersion 3 s)
    else headerValidate s.hdr = .ok ()

/-- ENCODE of a Data or Acknowledgement frame completes whenever the registers are valid and the payload is defined:
the frame is the header, the payload and the footer; over 127 bytes it is NotEnoughBytes(127) (spec/44_frame_codec.md,
spec/42_content_codec.md). -/
def Obligations.EncodeOfEmptyContentCompletes : Prop :=
  ∀ (s : State) (p frame : Bytes), headerValidate s.hdr = .ok () → fcType s.hdr.fc = 1 ∨ fcType s.hdr.fc = 2 →
    s.mem.readBuf .pbuf 0 s.plen.toNat = some p → frame = headerEncode s.hdr ++ p ++ footerEncode s →
    exec .encode s = .next
      (if frame.length ≤ 127 then
        { s with
          mem := s.mem.writeBuf .fbuf 0 frame, len := BitVec.ofNat 7 frame.length,
          hdrLen := BitVec.ofNat 7 (headerEncode s.hdr).length,
          content := ⟨BitVec.ofNat 7 (headerEncode s.hdr).length, 0⟩,
          payload := ⟨BitVec.ofNat 7 (headerEncode s.hdr).length, s.plen⟩,
          hdr := { s.hdr with fc := fcWithRsvd s.hdr.fc 0 },
          status := { s.status with frameValid := false, verified := false, code := .ok, errVal := 0 },
          engine := .idle }
      else raiseIn .encode .notEnoughBytes 127 s)

/-- ENCODE of a Beacon or MAC command frame completes whenever the registers are valid, the payload is defined and the
codec of the type, asked with the space left, answers Ok(body) within the contract: over 127 bytes it is
NotEnoughBytes(127) (spec/44_frame_codec.md, spec/42_content_codec.md). -/
def Obligations.EncodeOfExternalContentCompletes : Prop :=
  ∀ (s : State) (p body frame : Bytes) (port : BodyPort) (rest : List (CodecReply Bytes)) (cap : Nat) (q : Ports),
    headerValidate s.hdr = .ok () →
    fcType s.hdr.fc = 0 ∧ port = .beacon ∨ fcType s.hdr.fc = 3 ∧ port = .command →
    s.mem.readBuf .pbuf 0 s.plen.toNat = some p → s.ports.encodeAnswers port = .ok body :: rest →
    cap = 127 - (headerEncode s.hdr).length - s.plen.toNat - footerLen s.footerMode → body.length ≤ cap →
    frame = headerEncode s.hdr ++ body ++ p ++ footerEncode s →
    q = ({ s.ports with log := s.ports.log ++ [.bodyEncode port cap] } : Ports).nextEncode port →
    exec .encode s = .next
      (if frame.length ≤ 127 then
        { s with
          mem := s.mem.writeBuf .fbuf 0 frame, len := BitVec.ofNat 7 frame.length,
          hdrLen := BitVec.ofNat 7 (headerEncode s.hdr).length,
          content := ⟨BitVec.ofNat 7 (headerEncode s.hdr).length, BitVec.ofNat 7 body.length⟩,
          payload := ⟨BitVec.ofNat 7 ((headerEncode s.hdr).length + body.length), s.plen⟩,
          hdr := { s.hdr with fc := fcWithRsvd s.hdr.fc 0 },
          status := { s.status with frameValid := false, verified := false, code := .ok, errVal := 0 },
          engine := .idle, ports := q }
      else raiseIn .encode .notEnoughBytes 127 { s with ports := q })

/-- FcEncode and AuxEncode (R141, R145) in the header HeaderEncode builds: its bytes, field by field: the frame control
word low byte first with bits 9:7 zero, the sequence number, the destination, the source without its PAN identifier
where compression applies, the auxiliary header with 0, 1, 5 or 9 key identifier bytes. -/
def Obligations.HeaderEncodeWritesTheWire : Prop :=
  ∀ h : HeaderRegs, fcDstMode h.fc ≠ 1 → fcSrcMode h.fc ≠ 1 →
    headerEncode h =
      [h.fc.extractLsb' 0 8 &&& 0x7F, h.fc.extractLsb' 8 8 &&& 0xFC, h.seq] ++
      (if fcDstMode h.fc = 0 then [] else [h.dstPan.extractLsb' 0 8, h.dstPan.extractLsb' 8 8]) ++
      (if fcDstMode h.fc = 0 then []
        else if fcDstMode h.fc = 2 then [h.dstLo.extractLsb' 0 8, h.dstLo.extractLsb' 8 8]
        else [h.dstLo.extractLsb' 0 8, h.dstLo.extractLsb' 8 8, h.dstLo.extractLsb' 16 8, h.dstLo.extractLsb' 24 8,
          h.dstHi.extractLsb' 0 8, h.dstHi.extractLsb' 8 8, h.dstHi.extractLsb' 16 8, h.dstHi.extractLsb' 24 8]) ++
      (if fcSrcMode h.fc = 0 ∨ (fcCompress h.fc = true ∧ fcDstMode h.fc ≠ 0) then []
        else [h.srcPan.extractLsb' 0 8, h.srcPan.extractLsb' 8 8]) ++
      (if fcSrcMode h.fc = 0 then []
        else if fcSrcMode h.fc = 2 then [h.srcLo.extractLsb' 0 8, h.srcLo.extractLsb' 8 8]
        else [h.srcLo.extractLsb' 0 8, h.srcLo.extractLsb' 8 8, h.srcLo.extractLsb' 16 8, h.srcLo.extractLsb' 24 8,
          h.srcHi.extractLsb' 0 8, h.srcHi.extractLsb' 8 8, h.srcHi.extractLsb' 16 8, h.srcHi.extractLsb' 24 8]) ++
      (if fcSecurity h.fc = true then
        [h.auxCtrl] ++
        (if fcVersion h.fc ≠ 2 ∨ h.auxCtrl.getLsbD 5 = false then
          [h.auxFc.extractLsb' 0 8, h.auxFc.extractLsb' 8 8, h.auxFc.extractLsb' 16 8, h.auxFc.extractLsb' 24 8]
         else []) ++
        [h.kid0.extractLsb' 0 8, h.kid0.extractLsb' 8 8, h.kid0.extractLsb' 16 8, h.kid0.extractLsb' 24 8,
          h.kid1.extractLsb' 0 8, h.kid1.extractLsb' 8 8, h.kid1.extractLsb' 16 8, h.kid1.extractLsb' 24 8,
          h.kid2].take
            (if h.auxCtrl.extractLsb' 3 2 = 0 then 0 else if h.auxCtrl.extractLsb' 3 2 = 1 then 1
              else if h.auxCtrl.extractLsb' 3 2 = 2 then 5 else 9)
       else [])

/-- PAN-ID compression (R132): the saving is 2 bytes when both addresses are present and 0 otherwise. -/
def Obligations.PanCompressionSavesTwoBytes : Prop :=
  ∀ h : HeaderRegs, fcDstMode h.fc ≠ 1 → fcSrcMode h.fc ≠ 1 →
    (headerEncode { h with fc := h.fc &&& 0xFFBF }).length =
      (headerEncode { h with fc := h.fc ||| 0x0040 }).length +
        (if fcDstMode h.fc ≠ 0 ∧ fcSrcMode h.fc ≠ 0 then 2 else 0)

/-- ENCODE without SECURE (R288): ENCODE does not check STATUS.SECURED; with the flag either way it does the same. -/
def Obligations.EncodeIgnoresSecured : Prop :=
  ∀ (s : State) (b : Bool),
    exec .encode { s with status := { s.status with secured := b } } =
      match exec .encode s with
      | .next t => .next { t with status := { t.status with secured := b } }
      | .fault r => .fault r
      | .refused r => .refused r

/-- The round trip (R225): ENCODE followed by DECODE succeeds when ENCODE succeeds, and leaves every header register,
CONTENT, HDR_LEN, the payload and, under Explicit, FOOTER. -/
def Obligations.EncodeThenDecodeRoundTrips : Prop :=
  ∀ s t : State, s.hdr.canonical = true → s.bodyRoundTrips → exec .encode s = .next t → t.status.code = .ok →
    ∃ u : State, exec .decode t = .next u ∧ u.status.code = .ok ∧ u.status.frameValid = true ∧
      u.hdr = s.hdr ∧ t.hdr = s.hdr ∧ u.content = t.content ∧ u.hdrLen = t.hdrLen ∧ u.payload = t.payload ∧
      u.payload.len = s.plen ∧
      u.mem.readBuf .fbuf u.payload.off.toNat s.plen.toNat = s.mem.readBuf .pbuf 0 s.plen.toNat ∧
      (s.footerMode = .explicit → u.footer = s.footer)

/-! ## SECURE and VERIFY -/

/-- SECURE's checks before it calls a port, in order, and its no-op (spec/43_security_transform.md, SECURE). -/
def Obligations.SecureChecksInOrder : Prop :=
  ∀ s : State,
    if s.status.secured = true then exec .secure s = .next (raiseIn .secure .sequenceError 0 s)
    else if fcSecurity s.hdr.fc = false ∧ s.hdr.auxPresent = true then
      exec .secure s = .next (raiseIn .secure .securityNotEnabled 0 s)
    else if fcSecurity s.hdr.fc = true ∧ s.hdr.auxPresent = false then
      exec .secure s = .next (raiseIn .secure .auxSecHeaderAbsent 0 s)
    else if fcSecurity s.hdr.fc = false then
      exec .secure s = .next
        { s with
          status := { s.status with code := .ok, errVal := 0, secPhase := .unsecured }, engine := .idle }
    else if fcDstMode s.hdr.fc = 1 ∨ fcSrcMode s.hdr.fc = 1 then
      exec .secure s = .next (raiseIn .secure .invalidAddressMode 1 s)
    else if 127 < s.plen.toNat + tagLen s.hdr.level then
      exec .secure s = .next (raiseIn .secure .frameTooLong 0 s)
    else if s.frameCounter = 0xFFFFFFFF then exec .secure s = .next (raiseIn .secure .counterError 0 s)
    else secureChecks s = .ok ()

/-- VERIFY's checks before it calls a port, in order, and its no-op (spec/43_security_transform.md, VERIFY). -/
def Obligations.VerifyChecksInOrder : Prop :=
  ∀ s : State,
    if s.status.frameValid = false ∨ s.status.verified = true then
      exec .verify s = .next (raiseIn .verify .sequenceError 0 s)
    else if fcSecurity s.hdr.fc = false ∧ s.hdr.auxPresent = true then
      exec .verify s = .next (raiseIn .verify .securityNotEnabled 0 s)
    else if fcSecurity s.hdr.fc = true ∧ s.hdr.auxPresent = false then
      exec .verify s = .next (raiseIn .verify .auxSecHeaderAbsent 0 s)
    else if fcSecurity s.hdr.fc = false then
      exec .verify s = .next
        { s with
          status := { s.status with verified := true, code := .ok, errVal := 0, secPhase := .unsecured },
          engine := .idle }
    else if fcDstMode s.hdr.fc = 1 ∨ fcSrcMode s.hdr.fc = 1 then
      exec .verify s = .next (raiseIn .verify .invalidAddressMode 1 s)
    else if (if fcPresent (fcVersion s.hdr.fc) s.hdr.auxCtrl then s.hdr.auxFc else s.frameCounter) = 0xFFFFFFFF then
      exec .verify s = .next (raiseIn .verify .counterError 0 s)
    else verifyChecks s = .ok ()

/-- LengthCheck (R184): its largest left-hand side is 32, so it never fails. -/
def Obligations.LengthCheckNeverFails : Prop :=
  ∀ h : HeaderRegs, tagLen h.level + h.auxSize + 2 ≤ 32 ∧ lengthCheck h = .ok ()

/-- KeyStep and InitStep (R186, R187): once the checks have passed, both commands look the key up by destination
address mode, key identifier mode, key identifier and destination address; Miss is UnavailableKey(0), and a key that
AEAD.init refuses is KeyFailure(0). In SECURE an Err from AEAD.seal is KeyFailure(0) too. -/
def Obligations.KeyAndInitFailures : Prop :=
  (∀ (cmd : Command) (i : Instr) (s : State),
    (cmd = .secure ∧ i = .secure ∧ secureGuard s = .ok () ∧ secureChecks s = .ok ()) ∨
      (cmd = .verify ∧ i = .verify ∧ verifyGuard s = .ok () ∧ verifyChecks s = .ok ()) →
    fcSecurity s.hdr.fc = true →
    (∀ ks, s.ports.keyLookup = none :: ks →
      exec i s = .next (raiseIn cmd .unavailableKey 0
        { s with ports := { s.ports with
            keyLookup := ks,
            log := s.ports.log ++ [.keyLookup (fcDstMode s.hdr.fc) (scKeyIdMode s.hdr.auxCtrl)
              (s.hdr.kid.take (kidLen (scKeyIdMode s.hdr.auxCtrl))) s.hdr.dstAddr] } })) ∧
    (∀ key ks is, s.ports.keyLookup = some key :: ks → s.ports.aeadInit = none :: is →
      exec i s = .next (raiseIn cmd .keyFailure 0
        { s with ports := { s.ports with
            keyLookup := ks, aeadInit := is,
            log := s.ports.log ++ [.keyLookup (fcDstMode s.hdr.fc) (scKeyIdMode s.hdr.auxCtrl)
              (s.hdr.kid.take (kidLen (scKeyIdMode s.hdr.auxCtrl))) s.hdr.dstAddr, .aeadInit key] } }))) ∧
  (∀ (s : State) (key inst p : Bytes) (ea : BitVec 64) (ks is : List (Option Bytes))
    (ss : List (Option (Bytes × Bytes))),
    secureGuard s = .ok () → secureChecks s = .ok () → fcSecurity s.hdr.fc = true → s.hdr.level ≠ 0 →
    s.ports.keyLookup = some key :: ks → s.ports.aeadInit = some inst :: is → s.ports.aeadSeal = none :: ss →
    extAddrOf s.platform s.hdr.srcAddr = some ea → s.mem.readBuf .pbuf 0 s.plen.toNat = some p →
    ∃ q : Ports, exec .secure s = .next (raiseIn .secure .keyFailure 0 { s with ports := q }))

/-- The nonce (R185): 13 bytes, the extended address and the counter most significant byte first, then the security
level; where EXT_ADDR_OF gives no address, SECURE and VERIFY raise NonceAddressUnavailable(0). -/
def Obligations.NonceLayoutAndItsAddress : Prop :=
  (∀ (ea : BitVec 64) (c : Word) (lvl : BitVec 3),
    nonceOf ea c lvl =
      [ea.extractLsb' 56 8, ea.extractLsb' 48 8, ea.extractLsb' 40 8, ea.extractLsb' 32 8, ea.extractLsb' 24 8,
       ea.extractLsb' 16 8, ea.extractLsb' 8 8, ea.extractLsb' 0 8, c.extractLsb' 24 8, c.extractLsb' 16 8,
       c.extractLsb' 8 8, c.extractLsb' 0 8, lvl.setWidth 8]) ∧
  (∀ (cmd : Command) (i : Instr) (s : State) (key inst : Bytes) (ks is : List (Option Bytes)),
    (cmd = .secure ∧ i = .secure ∧ secureGuard s = .ok () ∧ secureChecks s = .ok ()) ∨
      (cmd = .verify ∧ i = .verify ∧ verifyGuard s = .ok () ∧ verifyChecks s = .ok ()) →
    fcSecurity s.hdr.fc = true → s.ports.keyLookup = some key :: ks → s.ports.aeadInit = some inst :: is →
    extAddrOf s.platform s.hdr.srcAddr = none →
    ∃ p : Ports, exec i s = .next (raiseIn cmd .nonceAddressUnavailable 0 { s with ports := p }))

/-- SECURE of a frame with security on and a level other than None completes whenever its checks pass, the key is
found, the AEAD takes it, the source has an extended address, the payload is defined and AEAD.seal answers Ok within
its contract. The payload is associated data at the MIC levels and plaintext at the others; the nonce is that of
FRAME_COUNTER; this is the whole next state (spec/43_security_transform.md, SealBody and SECURE). -/
def Obligations.SecureCompletes : Prop :=
  ∀ (s : State) (key inst p ct tag : Bytes) (ea : BitVec 64) (ks is : List (Option Bytes))
    (ss : List (Option (Bytes × Bytes))),
    secureGuard s = .ok () → secureChecks s = .ok () → fcSecurity s.hdr.fc = true → s.hdr.level ≠ 0 →
    s.ports.keyLookup = some key :: ks → s.ports.aeadInit = some inst :: is →
    s.ports.aeadSeal = some (ct, tag) :: ss → extAddrOf s.platform s.hdr.srcAddr = some ea →
    s.mem.readBuf .pbuf 0 s.plen.toNat = some p →
    ct.length = (if s.hdr.level.toNat ≤ 3 then 0 else p.length) → tag.length = tagLen s.hdr.level →
    exec .secure s = .next
      { s with
        mem := (s.mem.writeBuf .pbuf 0 (if s.hdr.level.toNat ≤ 3 then p else ct)).writeBuf .pbuf s.plen.toNat tag,
        plen := BitVec.ofNat 7 (s.plen.toNat + tagLen s.hdr.level),
        hdr := { s.hdr with
          auxFc := if fcPresent (fcVersion s.hdr.fc) s.hdr.auxCtrl then s.frameCounter else s.hdr.auxFc },
        frameCounter := s.frameCounter + 1,
        status := { s.status with secured := true, secPhase := .secured, code := .ok, errVal := 0 },
        engine := .idle,
        ports := { s.ports with
          keyLookup := ks, aeadInit := is, aeadSeal := ss,
          log := s.ports.log ++
            [.keyLookup (fcDstMode s.hdr.fc) (scKeyIdMode s.hdr.auxCtrl)
              (s.hdr.kid.take (kidLen (scKeyIdMode s.hdr.auxCtrl))) s.hdr.dstAddr,
             .aeadInit key,
             .aeadSeal inst (nonceOf ea s.frameCounter s.hdr.level) (if s.hdr.level.toNat ≤ 3 then p else [])
               (if s.hdr.level.toNat ≤ 3 then [] else p) (tagLen s.hdr.level)] } }

/-- VERIFY of a secured frame with a level other than None completes whenever its checks pass, the key is found, the
AEAD takes it, the source has an extended address, the payload is defined and at least as long as the tag, and
AEAD.open answers Ok within its contract; this is the whole next state (spec/43_security_transform.md, OpenBody and
VERIFY). -/
def Obligations.VerifyCompletes : Prop :=
  ∀ (s : State) (key inst body tag pt : Bytes) (ea : BitVec 64) (ks is os : List (Option Bytes)),
    verifyGuard s = .ok () → verifyChecks s = .ok () → fcSecurity s.hdr.fc = true → s.hdr.level ≠ 0 →
    s.ports.keyLookup = some key :: ks → s.ports.aeadInit = some inst :: is → s.ports.aeadOpen = some pt :: os →
    extAddrOf s.platform s.hdr.srcAddr = some ea →
    s.mem.readBuf .fbuf s.payload.off.toNat s.payload.len.toNat = some (body ++ tag) →
    tag.length = tagLen s.hdr.level → pt.length = (if s.hdr.level.toNat ≤ 3 then 0 else body.length) →
    exec .verify s = .next
      { s with
        mem := s.mem.writeBuf .fbuf s.payload.off.toNat (if s.hdr.level.toNat ≤ 3 then body else pt),
        payload := ⟨s.payload.off, BitVec.ofNat 7 (s.payload.len.toNat - tagLen s.hdr.level)⟩,
        status := { s.status with verified := true, secPhase := .secured, code := .ok, errVal := 0 },
        engine := .idle,
        ports := { s.ports with
          keyLookup := ks, aeadInit := is, aeadOpen := os,
          log := s.ports.log ++
            [.keyLookup (fcDstMode s.hdr.fc) (scKeyIdMode s.hdr.auxCtrl)
              (s.hdr.kid.take (kidLen (scKeyIdMode s.hdr.auxCtrl))) s.hdr.dstAddr,
             .aeadInit key,
             .aeadOpen inst
               (nonceOf ea (if fcPresent (fcVersion s.hdr.fc) s.hdr.auxCtrl then s.hdr.auxFc else s.frameCounter)
                 s.hdr.level)
               (if s.hdr.level.toNat ≤ 3 then body else []) (if s.hdr.level.toNat ≤ 3 then [] else body) tag
               (tagLen s.hdr.level)] } }

/-- Level None with security on (R192): SECURE and VERIFY run every step, key lookup, instantiation and nonce included,
without asking AEAD.seal or AEAD.open; SECURE sets SECURED, SEC_PHASE 4 and AUX_FC and advances the counter, VERIFY sets
VERIFIED and SEC_PHASE 4; neither changes a payload byte. These are the whole next states. -/
def Obligations.LevelNoneRunsEveryStep : Prop :=
  ∀ (s : State) (key inst p : Bytes) (ea : BitVec 64) (ks is : List (Option Bytes)) (q : Ports),
    fcSecurity s.hdr.fc = true → s.hdr.level = 0 →
    s.ports.keyLookup = some key :: ks → s.ports.aeadInit = some inst :: is →
    extAddrOf s.platform s.hdr.srcAddr = some ea →
    q = { s.ports with
      keyLookup := ks, aeadInit := is,
      log := s.ports.log ++
        [.keyLookup (fcDstMode s.hdr.fc) (scKeyIdMode s.hdr.auxCtrl)
          (s.hdr.kid.take (kidLen (scKeyIdMode s.hdr.auxCtrl))) s.hdr.dstAddr,
         .aeadInit key] } →
    (secureGuard s = .ok () → secureChecks s = .ok () → s.mem.readBuf .pbuf 0 s.plen.toNat = some p →
      exec .secure s = .next
        { s with
          mem := s.mem.writeBuf .pbuf 0 p,
          hdr := { s.hdr with
            auxFc := if fcPresent (fcVersion s.hdr.fc) s.hdr.auxCtrl then s.frameCounter else s.hdr.auxFc },
          frameCounter := s.frameCounter + 1,
          status := { s.status with secured := true, secPhase := .secured, code := .ok, errVal := 0 },
          engine := .idle, ports := q } ∧
      ∀ a, (s.mem.writeBuf .pbuf 0 p).read a = s.mem.read a) ∧
    (verifyGuard s = .ok () → verifyChecks s = .ok () →
      s.mem.readBuf .fbuf s.payload.off.toNat s.payload.len.toNat = some p →
      exec .verify s = .next
        { s with
          mem := s.mem.writeBuf .fbuf s.payload.off.toNat p,
          status := { s.status with verified := true, secPhase := .secured, code := .ok, errVal := 0 },
          engine := .idle, ports := q } ∧
      ∀ a, (s.mem.writeBuf .fbuf s.payload.off.toNat p).read a = s.mem.read a)

/-- VERIFY's authentication failure: a payload shorter than the tag, without asking AEAD.open, or an Err from
AEAD.open. The frame is discarded, the payload view emptied, no byte of memory written
(spec/43_security_transform.md, OpenBody and VERIFY). -/
def Obligations.VerificationFailureDiscardsTheFrame : Prop :=
  ∀ (s : State) (key inst : Bytes) (ea : BitVec 64) (ks is : List (Option Bytes)),
    verifyGuard s = .ok () → verifyChecks s = .ok () → fcSecurity s.hdr.fc = true →
    s.ports.keyLookup = some key :: ks → s.ports.aeadInit = some inst :: is →
    extAddrOf s.platform s.hdr.srcAddr = some ea →
    (s.payload.len.toNat < tagLen s.hdr.level ∨
      (s.hdr.level ≠ 0 ∧ tagLen s.hdr.level ≤ s.payload.len.toNat ∧
        (∃ bs, s.mem.readBuf .fbuf s.payload.off.toNat s.payload.len.toNat = some bs) ∧
        ∃ os, s.ports.aeadOpen = none :: os)) →
    ∃ p : Ports,
      exec .verify s = .next
        { s with
          status := { s.status with
            code := .verificationFailure, errVal := 0, secPhase := .rejected, frameValid := false },
          payload := ⟨s.payload.off, 0⟩, engine := .idle, ports := p } ∧
      (s.payload.len.toNat < tagLen s.hdr.level → p.aeadOpen = s.ports.aeadOpen)

/-! ## The rows of the two dispatches -/

/-- CONTENT.DATA and CONTENT.ACK: the content is empty in both directions, no port is asked, nothing else changes
(spec/42_content_codec.md). -/
def Obligations.EmptyContentRowsComplete : Prop :=
  ∀ (i : Instr) (f : FcFields) (s : State) (fc : Half) (a b : Nat), i = .contentData f ∨ i = .contentAck f →
    (s.engine = .decoding fc a b → exec i s = .next { s with engine := .consumed 0 }) ∧
    (s.engine = .encoding fc a b → exec i s = .next { s with engine := .produced [] })

/-- CONTENT.BEACON and CONTENT.COMMAND: their codec is asked with the bytes from the content's start to its end, or
with the space left, and its answer is the result; nothing but the codec's side changes (spec/42_content_codec.md). -/
def Obligations.ExternalContentRowsComplete : Prop :=
  ∀ (i : Instr) (f : FcFields) (port : BodyPort) (s : State) (fc : Half),
    i = .contentBeacon f ∧ port = .beacon ∨ i = .contentCommand f ∧ port = .command →
    (∀ (cur fin n : Nat) (bytes : Bytes) (rest : List (CodecReply Nat)), s.engine = .decoding fc cur fin →
      s.mem.readBuf .fbuf cur (fin - cur) = some bytes → s.ports.decodeAnswers port = .ok n :: rest →
      n ≤ bytes.length →
      exec i s = .next { s with
        engine := .consumed n,
        ports := ({ s.ports with log := s.ports.log ++ [.bodyDecode port bytes] } : Ports).nextDecode port }) ∧
    (∀ (outLen cap : Nat) (body : Bytes) (rest : List (CodecReply Bytes)), s.engine = .encoding fc outLen cap →
      s.ports.encodeAnswers port = .ok body :: rest → body.length ≤ cap →
      exec i s = .next { s with
        engine := .produced body,
        ports := ({ s.ports with log := s.ports.log ++ [.bodyEncode port cap] } : Ports).nextEncode port })

/-- CONTENT.INVALID: with a frame type of 4 to 7 the dispatch raises InvalidAddressMode(1) where an address mode is 1
and InvalidFrameType otherwise, in both directions (spec/41_header_codec.md, the checks of FcDecode and
HeaderValidate; spec/90_conflicts.md C3). -/
def Obligations.InvalidContentRowRaises : Prop :=
  ∀ (ft : BitVec 3) (f : FcFields) (s : State) (fc : Half) (a b : Nat), 4 ≤ ft.toNat →
    s.engine = .decoding fc a b ∨ s.engine = .encoding fc a b →
    exec (.contentInvalid ft f) s = .next { s with
      engine :=
        if f.dstMode = 1 ∨ f.srcMode = 1 then .raised .invalidAddressMode 1
        else .raised .invalidFrameType (ft.setWidth 8) }

/-- SealBody (R181): the eight rows in SECURE, as instructions that take their operands from the command-internal state
and leave their result there (the model's form, log 6). None returns the payload without a port call; the MIC rows
authenticate the payload as associated data and leave it unchanged; the others seal it as plaintext; the tag has the
row's length; Err is KeyFailure(0); an answer of another length is the fault PORT_CONTRACT. -/
def Obligations.SealRowsFollowTheirLevel : Prop :=
  ∀ (f : ScFields) (s : State) (sc : Byte) (inst nonce p : Bytes), s.engine = .sealing sc inst nonce p →
    exec (.secNone f) s = .next { s with engine := .sealed p [] } ∧
    ∀ (i : Instr) (t : Nat) (enc : Bool),
      (i, t, enc) ∈ [(Instr.secMic32 f, 4, false), (.secMic64 f, 8, false), (.secMic128 f, 16, false),
        (.secEnc f, 0, true), (.secEncMic32 f, 4, true), (.secEncMic64 f, 8, true), (.secEncMic128 f, 16, true)] →
      (∀ ct tag ss, s.ports.aeadSeal = some (ct, tag) :: ss →
        exec i s =
          if ct.length = (if enc then p else []).length ∧ tag.length = t then
            .next { s with
              engine := .sealed (if enc then ct else p) tag,
              ports := { s.ports with
                aeadSeal := ss,
                log := s.ports.log ++
                  [.aeadSeal inst nonce (if enc then [] else p) (if enc then p else []) t] } }
          else .fault .portContract) ∧
      (∀ ss, s.ports.aeadSeal = none :: ss →
        exec i s = .next { s with
          engine := .raised .keyFailure 0,
          ports := { s.ports with
            aeadSeal := ss,
            log := s.ports.log ++ [.aeadSeal inst nonce (if enc then [] else p) (if enc then p else []) t] } })

/-- OpenBody (R182): the eight rows in VERIFY, as instructions that take their operands from the command-internal state
and leave their result there (the model's form, log 6), the inverse of SealBody; Err is Fail; an answer of another length is
the fault PORT_CONTRACT. The operand `tag` has the row's tag length. -/
def Obligations.OpenRowsFollowTheirLevel : Prop :=
  ∀ (f : ScFields) (s : State) (sc : Byte) (inst nonce body tag : Bytes),
    s.engine = .opening sc inst nonce body tag →
    exec (.secNone f) s = .next { s with engine := .opened body } ∧
    ∀ (i : Instr) (t : Nat) (enc : Bool), tag.length = t →
      (i, t, enc) ∈ [(Instr.secMic32 f, 4, false), (.secMic64 f, 8, false), (.secMic128 f, 16, false),
        (.secEnc f, 0, true), (.secEncMic32 f, 4, true), (.secEncMic64 f, 8, true), (.secEncMic128 f, 16, true)] →
      (∀ pt os, s.ports.aeadOpen = some pt :: os →
        exec i s =
          if pt.length = (if enc then body else []).length then
            .next { s with
              engine := .opened (if enc then pt else body),
              ports := { s.ports with
                aeadOpen := os,
                log := s.ports.log ++
                  [.aeadOpen inst nonce (if enc then [] else body) (if enc then body else []) tag t] } }
          else .fault .portContract) ∧
      (∀ os, s.ports.aeadOpen = none :: os →
        exec i s = .next { s with
          engine := .openFailed,
          ports := { s.ports with
            aeadOpen := os,
            log := s.ports.log ++
              [.aeadOpen inst nonce (if enc then [] else body) (if enc then body else []) tag t] } })

/-- An internal row run between commands stops by name: "No command reaches them on their own"
(spec/00_scope.md section 1). -/
def Obligations.RowsStopOutsideACommand : Prop :=
  ∀ (i : Instr) (s : State), i.format ≠ .cmd32 → s.engine = .idle → exec i s = .refused .noDispatch

/-- The frame of the rows: a row changes nothing but its result and the ports' side ("State written: none",
spec/42_content_codec.md; the model's form, log 6). -/
def Obligations.RowsLeaveTheBlockAlone : Prop :=
  ∀ (i : Instr) (s t : State), i.format ≠ .cmd32 → exec i s = .next t →
    { t with engine := s.engine, ports := s.ports } = s

/-! ## Faults -/

/-- A port's answer that breaks its contract is the fault PORT_CONTRACT in the command that asked: a body codec in
DECODE and ENCODE, the AEAD in SECURE and VERIFY. The answer is the next one listed or, where none is listed, the free
one (log 2) (spec/10_state.md section 4, spec/60_exceptions.md section 5). -/
def Obligations.PortBreachesFault : Prop :=
  (∀ (s : State) (h : Hdr) (hl n : Nat) (port : BodyPort) (bytes : Bytes),
    headerDecode s.mem s.len.toNat = .ok (h, hl) →
    fcType h.fc = 0 ∧ port = .beacon ∨ fcType h.fc = 3 ∧ port = .command →
    hl + footerLen s.footerMode ≤ s.len.toNat →
    s.mem.readBuf .fbuf hl (s.len.toNat - footerLen s.footerMode - hl) = some bytes →
    (s.ports.decodeAnswers port).headD (Config.bodyDecode port s.ports.log.length bytes) = .ok n →
    bytes.length < n → exec .decode s = .fault .portContract) ∧
  (∀ (s : State) (port : BodyPort) (body : Bytes) (cap : Nat),
    headerValidate s.hdr = .ok () →
    fcType s.hdr.fc = 0 ∧ port = .beacon ∨ fcType s.hdr.fc = 3 ∧ port = .command →
    cap = 127 - (headerEncode s.hdr).length - s.plen.toNat - footerLen s.footerMode →
    (s.ports.encodeAnswers port).headD (Config.bodyEncode port s.ports.log.length cap) = .ok body →
    cap < body.length → exec .encode s = .fault .portContract) ∧
  (∀ (s : State) (key inst p ct tag : Bytes) (ea : BitVec 64) (ks is : List (Option Bytes)),
    secureGuard s = .ok () → secureChecks s = .ok () → fcSecurity s.hdr.fc = true → s.hdr.level ≠ 0 →
    s.ports.keyLookup = some key :: ks → s.ports.aeadInit = some inst :: is →
    extAddrOf s.platform s.hdr.srcAddr = some ea → s.mem.readBuf .pbuf 0 s.plen.toNat = some p →
    s.ports.aeadSeal.headD (Config.aeadSeal inst (nonceOf ea s.frameCounter s.hdr.level)
      (if s.hdr.level.toNat ≤ 3 then p else []) (if s.hdr.level.toNat ≤ 3 then [] else p)
      (tagLen s.hdr.level)) = some (ct, tag) →
    ct.length ≠ (if s.hdr.level.toNat ≤ 3 then 0 else p.length) ∨ tag.length ≠ tagLen s.hdr.level →
    exec .secure s = .fault .portContract) ∧
  (∀ (s : State) (key inst body tag pt : Bytes) (ea : BitVec 64) (ks is : List (Option Bytes)),
    verifyGuard s = .ok () → verifyChecks s = .ok () → fcSecurity s.hdr.fc = true → s.hdr.level ≠ 0 →
    s.ports.keyLookup = some key :: ks → s.ports.aeadInit = some inst :: is →
    extAddrOf s.platform s.hdr.srcAddr = some ea →
    s.mem.readBuf .fbuf s.payload.off.toNat s.payload.len.toNat = some (body ++ tag) →
    tag.length = tagLen s.hdr.level →
    s.ports.aeadOpen.headD (Config.aeadOpen inst
      (nonceOf ea (if fcPresent (fcVersion s.hdr.fc) s.hdr.auxCtrl then s.hdr.auxFc else s.frameCounter) s.hdr.level)
      (if s.hdr.level.toNat ≤ 3 then body else []) (if s.hdr.level.toNat ≤ 3 then [] else body) tag
      (tagLen s.hdr.level)) = some pt →
    pt.length ≠ (if s.hdr.level.toNat ≤ 3 then 0 else body.length) →
    exec .verify s = .fault .portContract)

/-- Byte definedness (R55): reset makes every buffer byte undefined; a host write or a command write defines a byte; a
failed ENCODE makes FBUF undefined; a host read of an undefined byte returns a free draw; a command that reads one is
the fault UNINIT_READ: in DECODE the frame control word, any byte of the header that would be read if the undefined
bytes held some values (the memory `m`), the bytes handed to a body codec and the footer; in ENCODE and SECURE the
payload in PBUF; in VERIFY the payload in FBUF. The free draw is in bits 7:0 of `readData`; that the bits above are 0 is
the model's choice (log 24). -/
def Obligations.UndefinedBytes : Prop :=
  (∀ (s : State) (a : Nat), (resetBlock s).mem.read a = none) ∧
  (∀ (m : Memory) (a : Nat) (b : Byte), isBufferOffset a = true → (lanesWrite m a [b]).read a = some b) ∧
  (∀ (m : Memory) (b : Buffer) (i : Nat) (bs : Bytes), i + bs.length ≤ 127 →
    (m.writeBuf b i bs).readBuf b i bs.length = some bs) ∧
  (∀ s t : State, exec .encode s = .next t → t.status.code ≠ .ok → ∀ i, i < 127 → t.mem.read (0x100 + i) = none) ∧
  (∀ (s : State) (a : Nat), isBufferOffset a = true → s.mem.read a = none → s.status.busy = false →
    hostRead a 8 s = .next
      { s with readData := (Config.freeByte s.draws).setWidth 32, draws := s.draws + 1 }) ∧
  (∀ s : State, 2 ≤ s.len.toNat → s.mem.readBuf .fbuf 0 2 = none → exec .decode s = .fault .uninitRead) ∧
  (∀ (s : State) (m : Memory), (∀ a b, s.mem.read a = some b → m.read a = some b) →
    (∀ (h : Hdr) (hl i : Nat), headerDecode m s.len.toNat = .ok (h, hl) → i < hl → s.mem.read (0x100 + i) = none →
      exec .decode s = .fault .uninitRead) ∧
    (∀ (c : Byte) (i : Nat), headerDecode m s.len.toNat = .error (.raise .notEnoughBytes c) → i < c.toNat →
      s.mem.read (0x100 + i) = none → exec .decode s = .fault .uninitRead)) ∧
  (∀ (s : State) (h : Hdr) (hl : Nat), headerDecode s.mem s.len.toNat = .ok (h, hl) →
    hl + footerLen s.footerMode ≤ s.len.toNat →
    (fcType h.fc = 0 ∨ fcType h.fc = 3 →
      s.mem.readBuf .fbuf hl (s.len.toNat - footerLen s.footerMode - hl) = none →
      exec .decode s = .fault .uninitRead) ∧
    (s.footerMode = .explicit → s.mem.readBuf .fbuf (s.len.toNat - 2) 2 = none →
      (fcType h.fc = 1 ∨ fcType h.fc = 2 → exec .decode s = .fault .uninitRead) ∧
      (∀ (port : BodyPort) (n : Nat) (bytes : Bytes) (rest : List (CodecReply Nat)),
        fcType h.fc = 0 ∧ port = .beacon ∨ fcType h.fc = 3 ∧ port = .command →
        s.mem.readBuf .fbuf hl (s.len.toNat - footerLen s.footerMode - hl) = some bytes →
        s.ports.decodeAnswers port = .ok n :: rest → n ≤ bytes.length → exec .decode s = .fault .uninitRead))) ∧
  (∀ s : State, headerValidate s.hdr = .ok () → s.mem.readBuf .pbuf 0 s.plen.toNat = none →
    (fcType s.hdr.fc = 1 ∨ fcType s.hdr.fc = 2 → exec .encode s = .fault .uninitRead) ∧
    (∀ (port : BodyPort) (body : Bytes) (rest : List (CodecReply Bytes)),
      fcType s.hdr.fc = 0 ∧ port = .beacon ∨ fcType s.hdr.fc = 3 ∧ port = .command →
      s.ports.encodeAnswers port = .ok body :: rest →
      body.length ≤ 127 - (headerEncode s.hdr).length - s.plen.toNat - footerLen s.footerMode →
      exec .encode s = .fault .uninitRead)) ∧
  (∀ (s : State) (key inst : Bytes) (ea : BitVec 64) (ks is : List (Option Bytes)), fcSecurity s.hdr.fc = true →
    s.ports.keyLookup = some key :: ks → s.ports.aeadInit = some inst :: is →
    extAddrOf s.platform s.hdr.srcAddr = some ea →
    (secureGuard s = .ok () → secureChecks s = .ok () → s.mem.readBuf .pbuf 0 s.plen.toNat = none →
      exec .secure s = .fault .uninitRead) ∧
    (verifyGuard s = .ok () → verifyChecks s = .ok () → tagLen s.hdr.level ≤ s.payload.len.toNat →
      s.mem.readBuf .fbuf s.payload.off.toNat s.payload.len.toNat = none → exec .verify s = .fault .uninitRead))

/-! ## The host's side -/

/-- A register read after a register write: the writable bits are those written, the others are as before
(spec/10_state.md section 3, spec/20_memory.md section 1). -/
def Obligations.RegisterReadsBackWhatWasWritten : Prop :=
  ∀ (s : State) (r : Reg) (w : Word) (rest : List BusOp), r ≠ .cmd → s.engine.pendingRow = none →
    s.status.busy = false →
    s.host = .write (s.platform.base + r.offset) 32 w :: .read (s.platform.base + r.offset) 32 :: rest →
    ∃ t u : State, step s = .next t ∧ step t = .next u ∧ u.host = rest ∧
      u.readData = (w &&& r.writable) ||| (regRead r s &&& ~~~ r.writable)

/-- What host accesses change (R61, R69): a write that is answered leaves every register but the one at its offset and
STATUS, every byte outside its own, and everything that is neither a register nor a buffer; in STATUS a write to LEN or
to a byte of FBUF clears FRAME_VALID and VERIFIED, one to PLEN or to a byte of PBUF clears SECURED, and no other field
changes; repeating the write changes nothing more; a read changes nothing of the block; a write to CMD runs the
command. -/
def Obligations.HostAccessSideEffects : Prop :=
  (∀ (s t : State) (off width : Nat) (w : Word), hostWrite off width w s = .over (.next t) →
    t.status = { s.status with
      frameValid := s.status.frameValid && !(off == 0x00C || (decide (0x100 ≤ off) && covers .fbuf off (width / 8))),
      verified := s.status.verified && !(off == 0x00C || (decide (0x100 ≤ off) && covers .fbuf off (width / 8))),
      secured := s.status.secured && !(off == 0x010 || (decide (0x100 ≤ off) && covers .pbuf off (width / 8))) } ∧
    hostWrite off width w t = .over (.next t) ∧
    (∀ r : Reg, r ≠ .status → r.offset ≠ off → regRead r t = regRead r s) ∧
    (off < 0x100 → t.mem = s.mem) ∧
    (∀ a, a < off ∨ off + width / 8 ≤ a → t.mem.read a = s.mem.read a) ∧
    t.engine = s.engine ∧ t.ports = s.ports ∧ t.platform = s.platform ∧ t.host = s.host ∧
    t.readData = s.readData ∧ t.draws = s.draws) ∧
  (∀ (s t : State) (off width : Nat), hostRead off width s = .next t →
    { t with readData := s.readData, draws := s.draws } = s) ∧
  (∀ (s : State) (w : Word), s.status.busy = false → hostWrite 0x000 32 w s = .run (decodeCmd w) s)

/-- A register access that is not 32 bits wide or not word-aligned has no transition (R62). -/
def Obligations.WrongRegisterAccessIsRefused : Prop :=
  ∀ (s : State) (off width : Nat) (w : Word) (rest : List BusOp) (op : BusOp), off < 0x100 →
    width ≠ 32 ∨ off % 4 ≠ 0 → s.engine.pendingRow = none → s.status.busy = false → s.host = op :: rest →
    op = .read (s.platform.base + off) width ∨ op = .write (s.platform.base + off) width w →
    step s = .refused .busContract

/-- The busy rule (R285): while BUSY = 1 a read of STATUS is answered and every other access in the window has no
transition. -/
def Obligations.OnlyStatusIsReadWhileBusy : Prop :=
  ∀ (s : State) (off width : Nat) (w : Word) (rest : List BusOp) (op : BusOp), off < 0x200 →
    s.engine.pendingRow = none → s.status.busy = true → s.host = op :: rest →
    op = .read (s.platform.base + off) width ∨ op = .write (s.platform.base + off) width w →
    step s =
      if op = .read (s.platform.base + 0x004) 32 then .next { s with host := rest, readData := s.status.word }
      else .refused .busyAccess

/-- Buffer accesses (R63): 8, 16 or 32 bits at a naturally aligned offset, a misaligned one has no transition; the byte
at the lowest offset is in bits 7:0; a reserved byte reads 0 and is not written; every other byte stays. -/
def Obligations.BufferAccessesMoveBytes : Prop :=
  ∀ (s : State) (off n : Nat) (w : Word), n ∈ [1, 2, 4] → 0x100 ≤ off → off < 0x200 → s.status.busy = false →
    (off % n ≠ 0 → hostRead off (8 * n) s = .refused .busContract ∧
      hostWrite off (8 * n) w s = .over (.refused .busContract)) ∧
    (off % n = 0 →
      (∃ t : State, hostWrite off (8 * n) w s = .over (.next t) ∧
        (∀ i, i < n → isBufferOffset (off + i) = true → t.mem.read (off + i) = some (w.extractLsb' (8 * i) 8)) ∧
        (∀ a, a < off ∨ off + n ≤ a ∨ isBufferOffset a = false → t.mem.read a = s.mem.read a)) ∧
      (∃ u : State, hostRead off (8 * n) s = .next u ∧
        (∀ (i : Nat) (b : Byte), i < n → isBufferOffset (off + i) = true → s.mem.read (off + i) = some b →
          u.readData.extractLsb' (8 * i) 8 = b) ∧
        (∀ i, i < n → isBufferOffset (off + i) = false → u.readData.extractLsb' (8 * i) 8 = 0)))

/-- Reserved offsets (R64): 0x058 to 0x0FC, 0x17F and 0x1FF read 0 and ignore writes; an access of the right width and
alignment is no violation. The read is said to leave 0 in all of `readData`; for the 8-bit reads of 0x17F and 0x1FF its
bits above the byte are the model's choice (log 24). -/
def Obligations.ReservedOffsetsHoldNoState : Prop :=
  ∀ (s : State) (off width : Nat) (w : Word), s.status.busy = false →
    (0x058 ≤ off ∧ off < 0x100 ∧ off % 4 = 0 ∧ width = 32) ∨ ((off = 0x17F ∨ off = 0x1FF) ∧ width = 8) →
    hostRead off width s = .next { s with readData := 0 } ∧ hostWrite off width w s = .over (.next s)

/-- Reset (R281): every register reads its reset value, whatever the block was doing, and no dispatch or busy state is
left; the state after reset reads the same. -/
def Obligations.ResetValues : Prop :=
  ∀ (s : State) (rest : List BusOp), s.engine.pendingRow = none → s.host = .reset :: rest →
    ∃ t : State, step s = .next t ∧ t.host = rest ∧ t.engine = .idle ∧ t.status.busy = false ∧
      (∀ r : Reg, regRead r t = if r = .frameCounter then 0xFFFFFFFF else 0) ∧
      (∀ r : Reg, regRead r State.reset = if r = .frameCounter then 0xFFFFFFFF else 0)

/-! ## Frames -/

/-- The frame of DECODE, NOP and ILLEGAL: no byte of memory, LEN, PLEN, CFG, FRAME_COUNTER, SECURED or SEC_PHASE
changes; NOP and ILLEGAL change no other register either; and no instruction at all changes CFG, the platform, the
host's side or the draws (spec/44_frame_codec.md). -/
def Obligations.DecodeFrame : Prop :=
  (∀ (i : Instr) (s t : State), exec i s = .next t →
    t.footerMode = s.footerMode ∧ t.platform = s.platform ∧ t.host = s.host ∧ t.readData = s.readData ∧
    t.draws = s.draws ∧ t.status.busy = s.status.busy) ∧
  (∀ s t : State, exec .decode s = .next t →
    (∀ a, t.mem.read a = s.mem.read a) ∧ t.len = s.len ∧ t.plen = s.plen ∧ t.frameCounter = s.frameCounter ∧
    t.status.secured = s.status.secured ∧ t.status.secPhase = s.status.secPhase) ∧
  (∀ (i : Instr) (s t : State) (w : Word), i = .nop ∨ i = .illegal w → exec i s = .next t →
    (∀ a, t.mem.read a = s.mem.read a) ∧
    { t with status := { t.status with code := s.status.code, errVal := s.status.errVal } } = s)

/-- The frame of ENCODE: the header registers but FC_RSVD, PLEN, FOOTER, FRAME_COUNTER, SECURED and SEC_PHASE stay; on
success the bytes written are FBUF[0..LEN), and every byte outside 0x100 to 0x100 + LEN stays; on a raise every byte
outside FBUF stays (spec/44_frame_codec.md). -/
def Obligations.EncodeFrame : Prop :=
  ∀ s t : State, exec .encode s = .next t →
    { t.hdr with fc := s.hdr.fc } = s.hdr ∧ fcWithRsvd t.hdr.fc 0 = fcWithRsvd s.hdr.fc 0 ∧ t.plen = s.plen ∧
    t.footer = s.footer ∧ t.frameCounter = s.frameCounter ∧ t.status.secured = s.status.secured ∧
    t.status.secPhase = s.status.secPhase ∧
    (t.status.code = .ok → ∀ a, a < 0x100 ∨ 0x100 + t.len.toNat ≤ a → t.mem.read a = s.mem.read a) ∧
    (t.status.code ≠ .ok → t.hdr = s.hdr ∧ t.hdrLen = s.hdrLen ∧ t.content = s.content ∧ t.payload = s.payload ∧
      ∀ a, a < 0x100 ∨ 0x17F ≤ a → t.mem.read a = s.mem.read a)

/-- The frame of SECURE: every register but PLEN, AUX_FC, FRAME_COUNTER and STATUS stays; the bytes written are
PBUF[0..PLEN + t), and every byte outside 0x180 to 0x180 + PLEN + t stays (spec/43_security_transform.md). -/
def Obligations.SecureFrame : Prop :=
  ∀ s t : State, exec .secure s = .next t →
    { t.hdr with auxFc := s.hdr.auxFc } = s.hdr ∧ t.len = s.len ∧ t.hdrLen = s.hdrLen ∧ t.content = s.content ∧
    t.payload = s.payload ∧ t.footer = s.footer ∧ t.status.frameValid = s.status.frameValid ∧
    t.status.verified = s.status.verified ∧
    (∀ a, a < 0x180 ∨ 0x180 + (s.plen.toNat + tagLen s.hdr.level) ≤ a → t.mem.read a = s.mem.read a)

/-- The frame of VERIFY: every register but PAYLOAD.LEN and STATUS stays, SECURED too; the bytes written are the
payload without its tag, and every byte outside 0x100 + OFF to 0x100 + OFF + LEN - t stays; outside success no byte is
written (spec/43_security_transform.md). -/
def Obligations.VerifyFrame : Prop :=
  ∀ s t : State, exec .verify s = .next t →
    t.hdr = s.hdr ∧ t.len = s.len ∧ t.plen = s.plen ∧ t.hdrLen = s.hdrLen ∧ t.content = s.content ∧
    t.payload.off = s.payload.off ∧ t.footer = s.footer ∧ t.frameCounter = s.frameCounter ∧
    t.status.secured = s.status.secured ∧
    (∀ a, a < 0x100 + s.payload.off.toNat ∨
        0x100 + s.payload.off.toNat + (s.payload.len.toNat - tagLen s.hdr.level) ≤ a →
      t.mem.read a = s.mem.read a) ∧
    (t.status.code ≠ .ok → ∀ a, t.mem.read a = s.mem.read a)

/-! ## The whole machine -/

/-- What a command that raises commits (R245, R246): the code and its value, ERR, and what the table lists for the
command; everything else keeps its value, the ports' side apart. -/
def Obligations.FailedCommandsCommitOnlyTheirRow : Prop :=
  ∀ s t : State,
    (exec .decode s = .next t → t.status.code ≠ .ok → t.status.err = true ∧
      t = { s with
        status := { s.status with
          code := t.status.code, errVal := t.status.errVal, frameValid := false, verified := false },
        engine := .idle, ports := t.ports }) ∧
    (exec .encode s = .next t → t.status.code ≠ .ok → t.status.err = true ∧
      t = { s with
        status := { s.status with
          code := t.status.code, errVal := t.status.errVal, frameValid := false, verified := false },
        len := 0, mem := s.mem.undefineBuf .fbuf, engine := .idle, ports := t.ports }) ∧
    (exec .secure s = .next t → t.status.code ≠ .ok → t.status.err = true ∧
      t = { s with
        status := { s.status with code := t.status.code, errVal := t.status.errVal, secPhase := .rejected },
        engine := .idle, ports := t.ports }) ∧
    (exec .verify s = .next t → t.status.code = .verificationFailure → t.status.err = true ∧
      t = { s with
        status := { s.status with
          code := .verificationFailure, errVal := t.status.errVal, secPhase := .rejected, frameValid := false },
        payload := ⟨s.payload.off, 0⟩, engine := .idle, ports := t.ports }) ∧
    (exec .verify s = .next t → t.status.code ≠ .ok → t.status.code ≠ .verificationFailure → t.status.err = true ∧
      t = { s with
        status := { s.status with code := t.status.code, errVal := t.status.errVal, secPhase := .rejected },
        engine := .idle, ports := t.ports }) ∧
    (exec .nop s = .next t → t.status.code = .ok) ∧
    (∀ w : Word, exec (.illegal w) s = .next t → t.status.code = .illegalCommand ∧ t.status.err = true ∧
      t = { s with status := { s.status with code := t.status.code, errVal := t.status.errVal } })

/-- No exposure on failure (R193): a raise in SECURE or VERIFY writes no byte of PBUF or FBUF, not PLEN, AUX_FC or
FRAME_COUNTER; on VerificationFailure the payload view is emptied. -/
def Obligations.FailuresExposeNothing : Prop :=
  ∀ (i : Instr) (s t : State), i = .secure ∨ i = .verify → exec i s = .next t → t.status.code ≠ .ok →
    (∀ a, t.mem.read a = s.mem.read a) ∧ t.plen = s.plen ∧ t.hdr.auxFc = s.hdr.auxFc ∧
    t.frameCounter = s.frameCounter ∧ (t.status.code = .verificationFailure → t.payload.len = 0)

/-- The counter advance (R190): FRAME_COUNTER is incremented by exactly 1 at a SECURE that succeeds with security on,
where it cannot wrap, and no other instruction and no other outcome changes it. -/
def Obligations.OnlySecureAdvancesTheCounter : Prop :=
  ∀ (i : Instr) (s t : State), exec i s = .next t →
    if i = .secure ∧ fcSecurity s.hdr.fc = true ∧ t.status.code = .ok then
      t.frameCounter = s.frameCounter + 1 ∧ t.frameCounter.toNat = s.frameCounter.toNat + 1
    else t.frameCounter = s.frameCounter

/-- Counter properties (R194): over any run in which the host neither writes FRAME_COUNTER nor resets the block, the
SECUREs that succeed with security on use the counters c, c + 1, ... in order and leave c + N, never 0xFFFFFFFF; and
with FRAME_COUNTER = 0xFFFFFFFF no SECURE with security on succeeds. -/
def Obligations.CountersAreUsedOnceInARun : Prop :=
  (∀ (n : Nat) (s t : State), (∀ op ∈ s.host, op.keepsCounter s.platform = true) →
    Sys2Proof.core.run n s = .next t →
    usedCounters n s = List.range' s.frameCounter.toNat (usedCounters n s).length ∧
    t.frameCounter.toNat = s.frameCounter.toNat + (usedCounters n s).length ∧ 0xFFFFFFFF ∉ usedCounters n s) ∧
  (∀ s t : State, s.frameCounter = 0xFFFFFFFF → fcSecurity s.hdr.fc = true → exec .secure s = .next t →
    t.status.code ≠ .ok ∧ t.frameCounter = s.frameCounter ∧ t.plen = s.plen ∧ ∀ a, t.mem.read a = s.mem.read a)

/-- The key bytes do not enter host-visible state (R251), said of one SECURE or VERIFY whose answers of AEAD.init, seal
and open are listed (the model's form, log 2): the host is shown the same whatever key KEY_LOOKUP hits. -/
def Obligations.OneCommandDoesNotShowTheKey : Prop :=
  ∀ (i : Instr) (s : State) (k k' : Bytes) (ks : List (Option Bytes)), i = .secure ∨ i = .verify →
    s.ports.keyLookup = some k :: ks → s.ports.aeadInit ≠ [] → s.ports.aeadSeal ≠ [] → s.ports.aeadOpen ≠ [] →
    visibleOutcome (exec i (s.withNextKey k')) = visibleOutcome (exec i s)

/-- The state after reset meets the invariant. -/
def Obligations.ResetMeetsTheInvariant : Prop := State.reset.Inv

/-- Every step keeps the invariant of the block between commands: canonical memory, no command-internal state left, not
busy, VERIFIED only with FRAME_VALID, a final SEC_PHASE, a code that can be raised, CONTENT.OFF equal to HDR_LEN, a
valid payload view within the frame, a secured payload defined. -/
def Obligations.EveryStepKeepsTheInvariant : Prop :=
  ∀ s t : State, s.Inv → step s = .next t → t.Inv
end

