-- ==== Sys2Proof/Laws/State.lean ====
section
/-! SUPPORT. One lemma per field per named update of State, each true by rfl: later proofs never unfold an update. -/

namespace Sys2Proof.Machine

section Ended

variable (st : Status) (c : Code) (v : Byte)

@[simp] theorem Status.ended_busy : (st.ended c v).busy = st.busy := rfl
@[simp] theorem Status.ended_frameValid : (st.ended c v).frameValid = st.frameValid := rfl
@[simp] theorem Status.ended_verified : (st.ended c v).verified = st.verified := rfl
@[simp] theorem Status.ended_secured : (st.ended c v).secured = st.secured := rfl
@[simp] theorem Status.ended_code : (st.ended c v).code = c := rfl
@[simp] theorem Status.ended_errVal : (st.ended c v).errVal = v := rfl
@[simp] theorem Status.ended_secPhase : (st.ended c v).secPhase = st.secPhase := rfl
@[simp] theorem Status.endedOk_busy : st.endedOk.busy = st.busy := rfl
@[simp] theorem Status.endedOk_frameValid : st.endedOk.frameValid = st.frameValid := rfl
@[simp] theorem Status.endedOk_verified : st.endedOk.verified = st.verified := rfl
@[simp] theorem Status.endedOk_secured : st.endedOk.secured = st.secured := rfl
@[simp] theorem Status.endedOk_code : st.endedOk.code = .ok := rfl
@[simp] theorem Status.endedOk_errVal : st.endedOk.errVal = 0 := rfl
@[simp] theorem Status.endedOk_secPhase : st.endedOk.secPhase = st.secPhase := rfl

end Ended

variable (s : State)

/-! `withEngine` -/

@[simp] theorem State.withEngine_status (e : Engine) : (s.withEngine e).status = s.status := rfl
@[simp] theorem State.withEngine_footerMode (e : Engine) : (s.withEngine e).footerMode = s.footerMode := rfl
@[simp] theorem State.withEngine_len (e : Engine) : (s.withEngine e).len = s.len := rfl
@[simp] theorem State.withEngine_plen (e : Engine) : (s.withEngine e).plen = s.plen := rfl
@[simp] theorem State.withEngine_hdr (e : Engine) : (s.withEngine e).hdr = s.hdr := rfl
@[simp] theorem State.withEngine_hdrLen (e : Engine) : (s.withEngine e).hdrLen = s.hdrLen := rfl
@[simp] theorem State.withEngine_content (e : Engine) : (s.withEngine e).content = s.content := rfl
@[simp] theorem State.withEngine_payload (e : Engine) : (s.withEngine e).payload = s.payload := rfl
@[simp] theorem State.withEngine_footer (e : Engine) : (s.withEngine e).footer = s.footer := rfl
@[simp] theorem State.withEngine_frameCounter (e : Engine) : (s.withEngine e).frameCounter = s.frameCounter := rfl
@[simp] theorem State.withEngine_mem (e : Engine) : (s.withEngine e).mem = s.mem := rfl
@[simp] theorem State.withEngine_engine (e : Engine) : (s.withEngine e).engine = e := rfl
@[simp] theorem State.withEngine_ports (e : Engine) : (s.withEngine e).ports = s.ports := rfl
@[simp] theorem State.withEngine_platform (e : Engine) : (s.withEngine e).platform = s.platform := rfl
@[simp] theorem State.withEngine_host (e : Engine) : (s.withEngine e).host = s.host := rfl
@[simp] theorem State.withEngine_readData (e : Engine) : (s.withEngine e).readData = s.readData := rfl
@[simp] theorem State.withEngine_draws (e : Engine) : (s.withEngine e).draws = s.draws := rfl

/-! `withPorts` -/

@[simp] theorem State.withPorts_status (p : Ports) : (s.withPorts p).status = s.status := rfl
@[simp] theorem State.withPorts_footerMode (p : Ports) : (s.withPorts p).footerMode = s.footerMode := rfl
@[simp] theorem State.withPorts_len (p : Ports) : (s.withPorts p).len = s.len := rfl
@[simp] theorem State.withPorts_plen (p : Ports) : (s.withPorts p).plen = s.plen := rfl
@[simp] theorem State.withPorts_hdr (p : Ports) : (s.withPorts p).hdr = s.hdr := rfl
@[simp] theorem State.withPorts_hdrLen (p : Ports) : (s.withPorts p).hdrLen = s.hdrLen := rfl
@[simp] theorem State.withPorts_content (p : Ports) : (s.withPorts p).content = s.content := rfl
@[simp] theorem State.withPorts_payload (p : Ports) : (s.withPorts p).payload = s.payload := rfl
@[simp] theorem State.withPorts_footer (p : Ports) : (s.withPorts p).footer = s.footer := rfl
@[simp] theorem State.withPorts_frameCounter (p : Ports) : (s.withPorts p).frameCounter = s.frameCounter := rfl
@[simp] theorem State.withPorts_mem (p : Ports) : (s.withPorts p).mem = s.mem := rfl
@[simp] theorem State.withPorts_engine (p : Ports) : (s.withPorts p).engine = s.engine := rfl
@[simp] theorem State.withPorts_ports (p : Ports) : (s.withPorts p).ports = p := rfl
@[simp] theorem State.withPorts_platform (p : Ports) : (s.withPorts p).platform = s.platform := rfl
@[simp] theorem State.withPorts_host (p : Ports) : (s.withPorts p).host = s.host := rfl
@[simp] theorem State.withPorts_readData (p : Ports) : (s.withPorts p).readData = s.readData := rfl
@[simp] theorem State.withPorts_draws (p : Ports) : (s.withPorts p).draws = s.draws := rfl

/-! `frameTouched` and `payloadTouched` -/

@[simp] theorem State.frameTouched_status : (s.frameTouched).status = { s.status with frameValid := false, verified := false } := rfl
@[simp] theorem State.frameTouched_footerMode : (s.frameTouched).footerMode = s.footerMode := rfl
@[simp] theorem State.frameTouched_len : (s.frameTouched).len = s.len := rfl
@[simp] theorem State.frameTouched_plen : (s.frameTouched).plen = s.plen := rfl
@[simp] theorem State.frameTouched_hdr : (s.frameTouched).hdr = s.hdr := rfl
@[simp] theorem State.frameTouched_hdrLen : (s.frameTouched).hdrLen = s.hdrLen := rfl
@[simp] theorem State.frameTouched_content : (s.frameTouched).content = s.content := rfl
@[simp] theorem State.frameTouched_payload : (s.frameTouched).payload = s.payload := rfl
@[simp] theorem State.frameTouched_footer : (s.frameTouched).footer = s.footer := rfl
@[simp] theorem State.frameTouched_frameCounter : (s.frameTouched).frameCounter = s.frameCounter := rfl
@[simp] theorem State.frameTouched_mem : (s.frameTouched).mem = s.mem := rfl
@[simp] theorem State.frameTouched_engine : (s.frameTouched).engine = s.engine := rfl
@[simp] theorem State.frameTouched_ports : (s.frameTouched).ports = s.ports := rfl
@[simp] theorem State.frameTouched_platform : (s.frameTouched).platform = s.platform := rfl
@[simp] theorem State.frameTouched_host : (s.frameTouched).host = s.host := rfl
@[simp] theorem State.frameTouched_readData : (s.frameTouched).readData = s.readData := rfl
@[simp] theorem State.frameTouched_draws : (s.frameTouched).draws = s.draws := rfl

@[simp] theorem State.payloadTouched_status : (s.payloadTouched).status = { s.status with secured := false } := rfl
@[simp] theorem State.payloadTouched_footerMode : (s.payloadTouched).footerMode = s.footerMode := rfl
@[simp] theorem State.payloadTouched_len : (s.payloadTouched).len = s.len := rfl
@[simp] theorem State.payloadTouched_plen : (s.payloadTouched).plen = s.plen := rfl
@[simp] theorem State.payloadTouched_hdr : (s.payloadTouched).hdr = s.hdr := rfl
@[simp] theorem State.payloadTouched_hdrLen : (s.payloadTouched).hdrLen = s.hdrLen := rfl
@[simp] theorem State.payloadTouched_content : (s.payloadTouched).content = s.content := rfl
@[simp] theorem State.payloadTouched_payload : (s.payloadTouched).payload = s.payload := rfl
@[simp] theorem State.payloadTouched_footer : (s.payloadTouched).footer = s.footer := rfl
@[simp] theorem State.payloadTouched_frameCounter : (s.payloadTouched).frameCounter = s.frameCounter := rfl
@[simp] theorem State.payloadTouched_mem : (s.payloadTouched).mem = s.mem := rfl
@[simp] theorem State.payloadTouched_engine : (s.payloadTouched).engine = s.engine := rfl
@[simp] theorem State.payloadTouched_ports : (s.payloadTouched).ports = s.ports := rfl
@[simp] theorem State.payloadTouched_platform : (s.payloadTouched).platform = s.platform := rfl
@[simp] theorem State.payloadTouched_host : (s.payloadTouched).host = s.host := rfl
@[simp] theorem State.payloadTouched_readData : (s.payloadTouched).readData = s.readData := rfl
@[simp] theorem State.payloadTouched_draws : (s.payloadTouched).draws = s.draws := rfl

/-! `raiseIn`: what every command leaves unchanged, and what each command writes. -/

@[simp] theorem raiseIn_footerMode (cmd : Command) (c : Code) (v : Byte) : (raiseIn cmd c v s).footerMode = s.footerMode := by
  cases cmd <;> first | rfl | (unfold raiseIn; dsimp only; split <;> rfl)
@[simp] theorem raiseIn_plen (cmd : Command) (c : Code) (v : Byte) : (raiseIn cmd c v s).plen = s.plen := by
  cases cmd <;> first | rfl | (unfold raiseIn; dsimp only; split <;> rfl)
@[simp] theorem raiseIn_hdr (cmd : Command) (c : Code) (v : Byte) : (raiseIn cmd c v s).hdr = s.hdr := by
  cases cmd <;> first | rfl | (unfold raiseIn; dsimp only; split <;> rfl)
@[simp] theorem raiseIn_hdrLen (cmd : Command) (c : Code) (v : Byte) : (raiseIn cmd c v s).hdrLen = s.hdrLen := by
  cases cmd <;> first | rfl | (unfold raiseIn; dsimp only; split <;> rfl)
@[simp] theorem raiseIn_content (cmd : Command) (c : Code) (v : Byte) : (raiseIn cmd c v s).content = s.content := by
  cases cmd <;> first | rfl | (unfold raiseIn; dsimp only; split <;> rfl)
@[simp] theorem raiseIn_footer (cmd : Command) (c : Code) (v : Byte) : (raiseIn cmd c v s).footer = s.footer := by
  cases cmd <;> first | rfl | (unfold raiseIn; dsimp only; split <;> rfl)
@[simp] theorem raiseIn_frameCounter (cmd : Command) (c : Code) (v : Byte) : (raiseIn cmd c v s).frameCounter = s.frameCounter := by
  cases cmd <;> first | rfl | (unfold raiseIn; dsimp only; split <;> rfl)
@[simp] theorem raiseIn_engine (cmd : Command) (c : Code) (v : Byte) : (raiseIn cmd c v s).engine = .idle := by
  cases cmd <;> first | rfl | (unfold raiseIn; dsimp only; split <;> rfl)
@[simp] theorem raiseIn_ports (cmd : Command) (c : Code) (v : Byte) : (raiseIn cmd c v s).ports = s.ports := by
  cases cmd <;> first | rfl | (unfold raiseIn; dsimp only; split <;> rfl)
@[simp] theorem raiseIn_platform (cmd : Command) (c : Code) (v : Byte) : (raiseIn cmd c v s).platform = s.platform := by
  cases cmd <;> first | rfl | (unfold raiseIn; dsimp only; split <;> rfl)
@[simp] theorem raiseIn_host (cmd : Command) (c : Code) (v : Byte) : (raiseIn cmd c v s).host = s.host := by
  cases cmd <;> first | rfl | (unfold raiseIn; dsimp only; split <;> rfl)
@[simp] theorem raiseIn_readData (cmd : Command) (c : Code) (v : Byte) : (raiseIn cmd c v s).readData = s.readData := by
  cases cmd <;> first | rfl | (unfold raiseIn; dsimp only; split <;> rfl)
@[simp] theorem raiseIn_draws (cmd : Command) (c : Code) (v : Byte) : (raiseIn cmd c v s).draws = s.draws := by
  cases cmd <;> first | rfl | (unfold raiseIn; dsimp only; split <;> rfl)

@[simp] theorem raiseIn_decode_status (c : Code) (v : Byte) :
    (raiseIn .decode c v s).status = { s.status.ended c v with frameValid := false, verified := false } := rfl
@[simp] theorem raiseIn_decode_len (c : Code) (v : Byte) :
    (raiseIn .decode c v s).len = s.len := rfl
@[simp] theorem raiseIn_decode_mem (c : Code) (v : Byte) :
    (raiseIn .decode c v s).mem = s.mem := rfl
@[simp] theorem raiseIn_decode_payload (c : Code) (v : Byte) :
    (raiseIn .decode c v s).payload = s.payload := rfl
@[simp] theorem raiseIn_encode_status (c : Code) (v : Byte) :
    (raiseIn .encode c v s).status = { s.status.ended c v with frameValid := false, verified := false } := rfl
@[simp] theorem raiseIn_encode_len (c : Code) (v : Byte) :
    (raiseIn .encode c v s).len = 0 := rfl
@[simp] theorem raiseIn_encode_mem (c : Code) (v : Byte) :
    (raiseIn .encode c v s).mem = s.mem.undefineBuf .fbuf := rfl
@[simp] theorem raiseIn_encode_payload (c : Code) (v : Byte) :
    (raiseIn .encode c v s).payload = s.payload := rfl
@[simp] theorem raiseIn_secure_status (c : Code) (v : Byte) :
    (raiseIn .secure c v s).status = { s.status.ended c v with secPhase := .rejected } := rfl
@[simp] theorem raiseIn_secure_len (c : Code) (v : Byte) :
    (raiseIn .secure c v s).len = s.len := rfl
@[simp] theorem raiseIn_secure_mem (c : Code) (v : Byte) :
    (raiseIn .secure c v s).mem = s.mem := rfl
@[simp] theorem raiseIn_secure_payload (c : Code) (v : Byte) :
    (raiseIn .secure c v s).payload = s.payload := rfl
@[simp] theorem raiseIn_verify_len (c : Code) (v : Byte) : (raiseIn .verify c v s).len = s.len := by
  unfold raiseIn; dsimp only; split <;> rfl
@[simp] theorem raiseIn_verify_mem (c : Code) (v : Byte) : (raiseIn .verify c v s).mem = s.mem := by
  unfold raiseIn; dsimp only; split <;> rfl

/-- VERIFY's VerificationFailure discards the frame (R246). -/
theorem raiseIn_verify_failure (v : Byte) :
    raiseIn .verify .verificationFailure v s =
      { s with
        status := { s.status.ended .verificationFailure v with secPhase := .rejected, frameValid := false },
        payload := { s.payload with len := 0 }, engine := .idle } := rfl

/-- Every other code VERIFY raises keeps the frame (R246). -/
theorem raiseIn_verify_other (c : Code) (v : Byte) (h : c ≠ .verificationFailure) :
    raiseIn .verify c v s =
      { s with status := { s.status.ended c v with secPhase := .rejected }, engine := .idle } := by
  simp [raiseIn, h]

/-- Every command that raises leaves the raised code (R246). -/
@[simp] theorem raiseIn_code (cmd : Command) (c : Code) (v : Byte) : (raiseIn cmd c v s).status.code = c := by
  cases cmd <;> first | rfl | (unfold raiseIn; dsimp only; split <;> rfl)

/-- BUSY is not the command's (R24). -/
@[simp] theorem raiseIn_busy (cmd : Command) (c : Code) (v : Byte) :
    (raiseIn cmd c v s).status.busy = s.status.busy := by
  cases cmd <;> first | rfl | (unfold raiseIn; dsimp only; split <;> rfl)

/-- No command that raises touches SECURED (R246). -/
@[simp] theorem raiseIn_secured (cmd : Command) (c : Code) (v : Byte) :
    (raiseIn cmd c v s).status.secured = s.status.secured := by
  cases cmd <;> first | rfl | (unfold raiseIn; dsimp only; split <;> rfl)

/-- No code VERIFY raises moves the payload view (R246). -/
@[simp] theorem raiseIn_verify_payload_off (c : Code) (v : Byte) :
    (raiseIn .verify c v s).payload.off = s.payload.off := by
  unfold raiseIn; dsimp only; split <;> rfl

/-- Every command that raises leaves the raised value (R246). -/
@[simp] theorem raiseIn_errVal (cmd : Command) (c : Code) (v : Byte) : (raiseIn cmd c v s).status.errVal = v := by
  cases cmd <;> first | rfl | (unfold raiseIn; dsimp only; split <;> rfl)

/-! The commits -/

@[simp] theorem decodeCommit_status (h : Hdr) (hl cn : Nat) (ft : Half) : (decodeCommit h hl cn ft s).status = { s.status.endedOk with frameValid := true, verified := false } := rfl
@[simp] theorem decodeCommit_footerMode (h : Hdr) (hl cn : Nat) (ft : Half) : (decodeCommit h hl cn ft s).footerMode = s.footerMode := rfl
@[simp] theorem decodeCommit_len (h : Hdr) (hl cn : Nat) (ft : Half) : (decodeCommit h hl cn ft s).len = s.len := rfl
@[simp] theorem decodeCommit_plen (h : Hdr) (hl cn : Nat) (ft : Half) : (decodeCommit h hl cn ft s).plen = s.plen := rfl
@[simp] theorem decodeCommit_hdr (h : Hdr) (hl cn : Nat) (ft : Half) : (decodeCommit h hl cn ft s).hdr = headerCommit h := rfl
@[simp] theorem decodeCommit_hdrLen (h : Hdr) (hl cn : Nat) (ft : Half) : (decodeCommit h hl cn ft s).hdrLen = BitVec.ofNat 7 hl := rfl
@[simp] theorem decodeCommit_content (h : Hdr) (hl cn : Nat) (ft : Half) : (decodeCommit h hl cn ft s).content = ⟨BitVec.ofNat 7 hl, BitVec.ofNat 7 cn⟩ := rfl
@[simp] theorem decodeCommit_payload (h : Hdr) (hl cn : Nat) (ft : Half) : (decodeCommit h hl cn ft s).payload = ⟨BitVec.ofNat 7 (hl + cn), BitVec.ofNat 7 (s.len.toNat - footerLen s.footerMode - (hl + cn))⟩ := rfl
@[simp] theorem decodeCommit_footer (h : Hdr) (hl cn : Nat) (ft : Half) : (decodeCommit h hl cn ft s).footer = ft := rfl
@[simp] theorem decodeCommit_frameCounter (h : Hdr) (hl cn : Nat) (ft : Half) : (decodeCommit h hl cn ft s).frameCounter = s.frameCounter := rfl
@[simp] theorem decodeCommit_mem (h : Hdr) (hl cn : Nat) (ft : Half) : (decodeCommit h hl cn ft s).mem = s.mem := rfl
@[simp] theorem decodeCommit_engine (h : Hdr) (hl cn : Nat) (ft : Half) : (decodeCommit h hl cn ft s).engine = .idle := rfl
@[simp] theorem decodeCommit_ports (h : Hdr) (hl cn : Nat) (ft : Half) : (decodeCommit h hl cn ft s).ports = s.ports := rfl
@[simp] theorem decodeCommit_platform (h : Hdr) (hl cn : Nat) (ft : Half) : (decodeCommit h hl cn ft s).platform = s.platform := rfl
@[simp] theorem decodeCommit_host (h : Hdr) (hl cn : Nat) (ft : Half) : (decodeCommit h hl cn ft s).host = s.host := rfl
@[simp] theorem decodeCommit_readData (h : Hdr) (hl cn : Nat) (ft : Half) : (decodeCommit h hl cn ft s).readData = s.readData := rfl
@[simp] theorem decodeCommit_draws (h : Hdr) (hl cn : Nat) (ft : Half) : (decodeCommit h hl cn ft s).draws = s.draws := rfl

@[simp] theorem encodeCommit_status (out body p : Bytes) : (encodeCommit out body p s).status = { s.status.endedOk with frameValid := false, verified := false } := rfl
@[simp] theorem encodeCommit_footerMode (out body p : Bytes) : (encodeCommit out body p s).footerMode = s.footerMode := rfl
@[simp] theorem encodeCommit_len (out body p : Bytes) : (encodeCommit out body p s).len = BitVec.ofNat 7 (out ++ body ++ p ++ footerEncode s).length := rfl
@[simp] theorem encodeCommit_plen (out body p : Bytes) : (encodeCommit out body p s).plen = s.plen := rfl
@[simp] theorem encodeCommit_hdr (out body p : Bytes) : (encodeCommit out body p s).hdr = { s.hdr with fc := fcWithRsvd s.hdr.fc 0 } := rfl
@[simp] theorem encodeCommit_hdrLen (out body p : Bytes) : (encodeCommit out body p s).hdrLen = BitVec.ofNat 7 out.length := rfl
@[simp] theorem encodeCommit_content (out body p : Bytes) : (encodeCommit out body p s).content = ⟨BitVec.ofNat 7 out.length, BitVec.ofNat 7 body.length⟩ := rfl
@[simp] theorem encodeCommit_payload (out body p : Bytes) : (encodeCommit out body p s).payload = ⟨BitVec.ofNat 7 (out ++ body).length, s.plen⟩ := rfl
@[simp] theorem encodeCommit_footer (out body p : Bytes) : (encodeCommit out body p s).footer = s.footer := rfl
@[simp] theorem encodeCommit_frameCounter (out body p : Bytes) : (encodeCommit out body p s).frameCounter = s.frameCounter := rfl
@[simp] theorem encodeCommit_mem (out body p : Bytes) : (encodeCommit out body p s).mem = s.mem.writeBuf .fbuf 0 (out ++ body ++ p ++ footerEncode s) := rfl
@[simp] theorem encodeCommit_engine (out body p : Bytes) : (encodeCommit out body p s).engine = .idle := rfl
@[simp] theorem encodeCommit_ports (out body p : Bytes) : (encodeCommit out body p s).ports = s.ports := rfl
@[simp] theorem encodeCommit_platform (out body p : Bytes) : (encodeCommit out body p s).platform = s.platform := rfl
@[simp] theorem encodeCommit_host (out body p : Bytes) : (encodeCommit out body p s).host = s.host := rfl
@[simp] theorem encodeCommit_readData (out body p : Bytes) : (encodeCommit out body p s).readData = s.readData := rfl
@[simp] theorem encodeCommit_draws (out body p : Bytes) : (encodeCommit out body p s).draws = s.draws := rfl

@[simp] theorem secureCommit_status (p tag : Bytes) : (secureCommit p tag s).status = { s.status.endedOk with secured := true, secPhase := .secured } := rfl
@[simp] theorem secureCommit_footerMode (p tag : Bytes) : (secureCommit p tag s).footerMode = s.footerMode := rfl
@[simp] theorem secureCommit_len (p tag : Bytes) : (secureCommit p tag s).len = s.len := rfl
@[simp] theorem secureCommit_plen (p tag : Bytes) : (secureCommit p tag s).plen = BitVec.ofNat 7 (s.plen.toNat + tagLen s.hdr.level) := rfl
@[simp] theorem secureCommit_hdr (p tag : Bytes) : (secureCommit p tag s).hdr = { s.hdr with auxFc := if fcPresent (fcVersion s.hdr.fc) s.hdr.auxCtrl then s.frameCounter else s.hdr.auxFc } := rfl
@[simp] theorem secureCommit_hdrLen (p tag : Bytes) : (secureCommit p tag s).hdrLen = s.hdrLen := rfl
@[simp] theorem secureCommit_content (p tag : Bytes) : (secureCommit p tag s).content = s.content := rfl
@[simp] theorem secureCommit_payload (p tag : Bytes) : (secureCommit p tag s).payload = s.payload := rfl
@[simp] theorem secureCommit_footer (p tag : Bytes) : (secureCommit p tag s).footer = s.footer := rfl
@[simp] theorem secureCommit_frameCounter (p tag : Bytes) : (secureCommit p tag s).frameCounter = s.frameCounter + 1 := rfl
@[simp] theorem secureCommit_mem (p tag : Bytes) : (secureCommit p tag s).mem = (s.mem.writeBuf .pbuf 0 p).writeBuf .pbuf s.plen.toNat tag := rfl
@[simp] theorem secureCommit_engine (p tag : Bytes) : (secureCommit p tag s).engine = .idle := rfl
@[simp] theorem secureCommit_ports (p tag : Bytes) : (secureCommit p tag s).ports = s.ports := rfl
@[simp] theorem secureCommit_platform (p tag : Bytes) : (secureCommit p tag s).platform = s.platform := rfl
@[simp] theorem secureCommit_host (p tag : Bytes) : (secureCommit p tag s).host = s.host := rfl
@[simp] theorem secureCommit_readData (p tag : Bytes) : (secureCommit p tag s).readData = s.readData := rfl
@[simp] theorem secureCommit_draws (p tag : Bytes) : (secureCommit p tag s).draws = s.draws := rfl

@[simp] theorem secureOff_status : (secureOff s).status = { s.status.endedOk with secPhase := .unsecured } := rfl
@[simp] theorem secureOff_footerMode : (secureOff s).footerMode = s.footerMode := rfl
@[simp] theorem secureOff_len : (secureOff s).len = s.len := rfl
@[simp] theorem secureOff_plen : (secureOff s).plen = s.plen := rfl
@[simp] theorem secureOff_hdr : (secureOff s).hdr = s.hdr := rfl
@[simp] theorem secureOff_hdrLen : (secureOff s).hdrLen = s.hdrLen := rfl
@[simp] theorem secureOff_content : (secureOff s).content = s.content := rfl
@[simp] theorem secureOff_payload : (secureOff s).payload = s.payload := rfl
@[simp] theorem secureOff_footer : (secureOff s).footer = s.footer := rfl
@[simp] theorem secureOff_frameCounter : (secureOff s).frameCounter = s.frameCounter := rfl
@[simp] theorem secureOff_mem : (secureOff s).mem = s.mem := rfl
@[simp] theorem secureOff_engine : (secureOff s).engine = .idle := rfl
@[simp] theorem secureOff_ports : (secureOff s).ports = s.ports := rfl
@[simp] theorem secureOff_platform : (secureOff s).platform = s.platform := rfl
@[simp] theorem secureOff_host : (secureOff s).host = s.host := rfl
@[simp] theorem secureOff_readData : (secureOff s).readData = s.readData := rfl
@[simp] theorem secureOff_draws : (secureOff s).draws = s.draws := rfl

@[simp] theorem verifyCommit_status (pt : Bytes) : (verifyCommit pt s).status = { s.status.endedOk with verified := true, secPhase := .secured } := rfl
@[simp] theorem verifyCommit_footerMode (pt : Bytes) : (verifyCommit pt s).footerMode = s.footerMode := rfl
@[simp] theorem verifyCommit_len (pt : Bytes) : (verifyCommit pt s).len = s.len := rfl
@[simp] theorem verifyCommit_plen (pt : Bytes) : (verifyCommit pt s).plen = s.plen := rfl
@[simp] theorem verifyCommit_hdr (pt : Bytes) : (verifyCommit pt s).hdr = s.hdr := rfl
@[simp] theorem verifyCommit_hdrLen (pt : Bytes) : (verifyCommit pt s).hdrLen = s.hdrLen := rfl
@[simp] theorem verifyCommit_content (pt : Bytes) : (verifyCommit pt s).content = s.content := rfl
@[simp] theorem verifyCommit_payload (pt : Bytes) : (verifyCommit pt s).payload = { s.payload with len := BitVec.ofNat 7 (s.payload.len.toNat - tagLen s.hdr.level) } := rfl
@[simp] theorem verifyCommit_footer (pt : Bytes) : (verifyCommit pt s).footer = s.footer := rfl
@[simp] theorem verifyCommit_frameCounter (pt : Bytes) : (verifyCommit pt s).frameCounter = s.frameCounter := rfl
@[simp] theorem verifyCommit_mem (pt : Bytes) : (verifyCommit pt s).mem = s.mem.writeBuf .fbuf s.payload.off.toNat pt := rfl
@[simp] theorem verifyCommit_engine (pt : Bytes) : (verifyCommit pt s).engine = .idle := rfl
@[simp] theorem verifyCommit_ports (pt : Bytes) : (verifyCommit pt s).ports = s.ports := rfl
@[simp] theorem verifyCommit_platform (pt : Bytes) : (verifyCommit pt s).platform = s.platform := rfl
@[simp] theorem verifyCommit_host (pt : Bytes) : (verifyCommit pt s).host = s.host := rfl
@[simp] theorem verifyCommit_readData (pt : Bytes) : (verifyCommit pt s).readData = s.readData := rfl
@[simp] theorem verifyCommit_draws (pt : Bytes) : (verifyCommit pt s).draws = s.draws := rfl

@[simp] theorem verifyOff_status : (verifyOff s).status = { s.status.endedOk with verified := true, secPhase := .unsecured } := rfl
@[simp] theorem verifyOff_footerMode : (verifyOff s).footerMode = s.footerMode := rfl
@[simp] theorem verifyOff_len : (verifyOff s).len = s.len := rfl
@[simp] theorem verifyOff_plen : (verifyOff s).plen = s.plen := rfl
@[simp] theorem verifyOff_hdr : (verifyOff s).hdr = s.hdr := rfl
@[simp] theorem verifyOff_hdrLen : (verifyOff s).hdrLen = s.hdrLen := rfl
@[simp] theorem verifyOff_content : (verifyOff s).content = s.content := rfl
@[simp] theorem verifyOff_payload : (verifyOff s).payload = s.payload := rfl
@[simp] theorem verifyOff_footer : (verifyOff s).footer = s.footer := rfl
@[simp] theorem verifyOff_frameCounter : (verifyOff s).frameCounter = s.frameCounter := rfl
@[simp] theorem verifyOff_mem : (verifyOff s).mem = s.mem := rfl
@[simp] theorem verifyOff_engine : (verifyOff s).engine = .idle := rfl
@[simp] theorem verifyOff_ports : (verifyOff s).ports = s.ports := rfl
@[simp] theorem verifyOff_platform : (verifyOff s).platform = s.platform := rfl
@[simp] theorem verifyOff_host : (verifyOff s).host = s.host := rfl
@[simp] theorem verifyOff_readData : (verifyOff s).readData = s.readData := rfl
@[simp] theorem verifyOff_draws : (verifyOff s).draws = s.draws := rfl

/-! `resetBlock` -/

@[simp] theorem resetBlock_status : (resetBlock s).status = State.reset.status := rfl
@[simp] theorem resetBlock_footerMode : (resetBlock s).footerMode = State.reset.footerMode := rfl
@[simp] theorem resetBlock_len : (resetBlock s).len = State.reset.len := rfl
@[simp] theorem resetBlock_plen : (resetBlock s).plen = State.reset.plen := rfl
@[simp] theorem resetBlock_hdr : (resetBlock s).hdr = State.reset.hdr := rfl
@[simp] theorem resetBlock_hdrLen : (resetBlock s).hdrLen = State.reset.hdrLen := rfl
@[simp] theorem resetBlock_content : (resetBlock s).content = State.reset.content := rfl
@[simp] theorem resetBlock_payload : (resetBlock s).payload = State.reset.payload := rfl
@[simp] theorem resetBlock_footer : (resetBlock s).footer = State.reset.footer := rfl
@[simp] theorem resetBlock_frameCounter : (resetBlock s).frameCounter = State.reset.frameCounter := rfl
@[simp] theorem resetBlock_mem : (resetBlock s).mem = State.reset.mem := rfl
@[simp] theorem resetBlock_engine : (resetBlock s).engine = State.reset.engine := rfl
@[simp] theorem resetBlock_ports : (resetBlock s).ports = s.ports := rfl
@[simp] theorem resetBlock_platform : (resetBlock s).platform = s.platform := rfl
@[simp] theorem resetBlock_host : (resetBlock s).host = s.host := rfl
@[simp] theorem resetBlock_readData : (resetBlock s).readData = s.readData := rfl
@[simp] theorem resetBlock_draws : (resetBlock s).draws = s.draws := rfl

end Sys2Proof.Machine
end

