-- ==== Sys2Proof/Laws/Memory.lean ====
section
/-! SUPPORT. Memory: a read after a write, a write elsewhere, reads of whole buffers, and that every operation keeps the
canonical form. -/

namespace Sys2Proof.Machine

/-! ## One byte -/

@[simp] theorem Memory.read_nil (a : Nat) : Memory.read [] a = none := rfl

theorem Memory.read_write_same (m : Memory) (a : Nat) (b : Byte) : (m.write a b).read a = some b := by
  induction m with
  | nil => simp [Memory.write, Memory.read]
  | cons c m ih =>
    obtain ⟨k, v⟩ := c
    rw [Memory.write]
    split
    · simp [Memory.read]
    · split
      · simp [Memory.read]
      · rw [Memory.read, if_neg (by omega), ih]

theorem Memory.read_write_ne (m : Memory) {a a' : Nat} (b : Byte) (h : a' ≠ a) :
    (m.write a b).read a' = m.read a' := by
  induction m with
  | nil => simp [Memory.write, Memory.read, h.symm]
  | cons c m ih =>
    obtain ⟨k, v⟩ := c
    rw [Memory.write]
    split
    · simp [Memory.read, h.symm]
    · split
      · next hk => subst hk; simp [Memory.read, h.symm]
      · simp [Memory.read, ih]

theorem Memory.read_write (m : Memory) (a a' : Nat) (b : Byte) :
    (m.write a b).read a' = if a' = a then some b else m.read a' := by
  split
  · next h => subst h; exact m.read_write_same _ b
  · next h => exact m.read_write_ne b h

theorem Memory.read_undefine (m : Memory) (lo n a : Nat) :
    (m.undefine lo n).read a = if lo ≤ a ∧ a < lo + n then none else m.read a := by
  induction m with
  | nil => simp [Memory.undefine]
  | cons c m ih =>
    obtain ⟨k, v⟩ := c
    simp only [Memory.undefine, List.filter_cons] at ih ⊢
    split
    · next hk =>
      rw [Memory.read, Memory.read, ih]
      simp at hk
      split <;> split <;> first | rfl | omega
    · next hk =>
      rw [Memory.read, ih]
      simp at hk
      split
      · rfl
      · split
        · omega
        · rfl

/-! ## Whole buffers -/

/-- What a buffer read answers: every byte of it is defined and within the buffer. -/
theorem Memory.readBuf_eq_some (m : Memory) (b : Buffer) (i n : Nat) (bs : Bytes) :
    m.readBuf b i n = some bs ↔
      bs.length = n ∧ (n = 0 ∨ i + n ≤ bufferSize) ∧ ∀ k < n, m.read (b.base + i + k) = bs[k]? := by
  induction n generalizing i bs with
  | zero => cases bs <;> simp [Memory.readBuf]
  | succ n ih =>
    rw [Memory.readBuf]
    by_cases hi : i < bufferSize
    · rw [if_pos hi]
      cases hr : m.read (b.base + i) with
      | none =>
        simp only [reduceCtorEq, false_iff]
        rintro ⟨hl, -, h⟩
        have := h 0 (by omega)
        cases bs with
        | nil => simp at hl
        | cons x xs => simp [hr] at this
      | some x =>
        simp only [Option.map_eq_some_iff]
        constructor
        · rintro ⟨xs, hxs, rfl⟩
          obtain ⟨hl, hb, h⟩ := (ih _ _).1 hxs
          refine ⟨by simp [hl], by omega, fun k hk => ?_⟩
          cases k with
          | zero => simp [hr]
          | succ k =>
            have := h k (by omega)
            simpa [Nat.add_assoc, Nat.add_comm 1 k] using this
        · rintro ⟨hl, hb, h⟩
          cases bs with
          | nil => simp at hl
          | cons y ys =>
            have h0 := h 0 (by omega)
            simp [hr] at h0
            subst h0
            refine ⟨ys, (ih _ _).2 ⟨by simpa using hl, by omega, fun k hk => ?_⟩, rfl⟩
            have := h (k + 1) (by omega)
            simpa [Nat.add_assoc, Nat.add_comm 1 k] using this
    · rw [if_neg hi]
      simp only [reduceCtorEq, false_iff]
      rintro ⟨_, hb | hb, _⟩
      · exact hb
      · omega

theorem Memory.readBuf_length {m : Memory} {b : Buffer} {i n : Nat} {bs : Bytes} (h : m.readBuf b i n = some bs) :
    bs.length = n := ((m.readBuf_eq_some b i n bs).1 h).1

@[simp] theorem Memory.readBuf_zero (m : Memory) (b : Buffer) (i : Nat) : m.readBuf b i 0 = some [] := rfl

/-- A part of a defined stretch of a buffer. -/
theorem Memory.readBuf_slice {m : Memory} {b : Buffer} {i n : Nat} {bs : Bytes} (h : m.readBuf b i n = some bs)
    (j k : Nat) (hjk : j + k ≤ n) : m.readBuf b (i + j) k = some ((bs.drop j).take k) := by
  obtain ⟨hl, hb, hr⟩ := (m.readBuf_eq_some b i n bs).1 h
  refine (m.readBuf_eq_some _ _ _ _).2 ⟨by simp; omega, by omega, fun x hx => ?_⟩
  rw [List.getElem?_take_of_lt hx, List.getElem?_drop]
  have := hr (j + x) (by omega)
  rwa [← Nat.add_assoc] at this ⊢

/-- Two memories that agree on a stretch give the same read of it. -/
theorem Memory.readBuf_congr {m m' : Memory} {b : Buffer} {i n : Nat}
    (h : ∀ k < n, m.read (b.base + i + k) = m'.read (b.base + i + k)) : m.readBuf b i n = m'.readBuf b i n := by
  induction n generalizing i with
  | zero => rfl
  | succ n ih =>
    have h0 : m.read (b.base + i) = m'.read (b.base + i) := by simpa using h 0 (by omega)
    rw [Memory.readBuf, Memory.readBuf, h0, ih fun k hk => by
      simpa [Nat.add_assoc, Nat.add_comm 1 k] using h (k + 1) (by omega)]

/-- What a byte reads as after a buffer write. -/
theorem Memory.read_writeBuf (m : Memory) (b : Buffer) (i : Nat) (bs : Bytes) (a : Nat) :
    (m.writeBuf b i bs).read a =
      if b.base + i ≤ a ∧ a < b.base + i + bs.length ∧ a < b.base + bufferSize then bs[a - (b.base + i)]?
      else m.read a := by
  induction bs generalizing m i with
  | nil => simp [Memory.writeBuf]; intros; omega
  | cons x xs ih =>
    rw [Memory.writeBuf, ih]
    by_cases ha : a = b.base + i
    · subst ha
      rw [if_neg (by omega)]
      by_cases hi : i < bufferSize
      · rw [if_pos hi, if_pos (by simp; omega), m.read_write_same]; simp
      · rw [if_neg hi, if_neg (by omega)]
    · have hm : (if i < bufferSize then m.write (b.base + i) x else m).read a = m.read a := by
        split
        · exact m.read_write_ne x ha
        · rfl
      rw [hm]
      by_cases hc : b.base + (i + 1) ≤ a ∧ a < b.base + (i + 1) + xs.length ∧ a < b.base + bufferSize
      · rw [if_pos hc, if_pos (by simp; omega)]
        obtain ⟨d, hd⟩ : ∃ d, a - (b.base + i) = d + 1 := ⟨a - (b.base + i) - 1, by omega⟩
        rw [hd, show a - (b.base + (i + 1)) = d by omega]
        simp
      · rw [if_neg hc, if_neg (by simp; omega)]

theorem Memory.readBuf_writeBuf (m : Memory) (b : Buffer) (i : Nat) (bs : Bytes) (h : i + bs.length ≤ bufferSize) :
    (m.writeBuf b i bs).readBuf b i bs.length = some bs := by
  refine (Memory.readBuf_eq_some _ _ _ _ _).2 ⟨rfl, .inr h, fun k hk => ?_⟩
  rw [m.read_writeBuf, if_pos (by omega)]
  congr 1; omega

/-- A write to the other buffer leaves a buffer's bytes alone. -/
theorem Memory.readBuf_writeBuf_ne (m : Memory) {b b' : Buffer} (hb : b ≠ b') (i j n : Nat) (bs : Bytes)
    (hn : j + n ≤ bufferSize ∨ n = 0) :
    (m.writeBuf b i bs).readBuf b' j n = m.readBuf b' j n := by
  refine Memory.readBuf_congr fun k hk => ?_
  rw [m.read_writeBuf, if_neg]
  simp only [bufferSize] at *
  cases b <;> cases b' <;> simp_all [Buffer.base] <;> omega

theorem Memory.readBuf_undefineBuf_ne (m : Memory) {b b' : Buffer} (hb : b ≠ b') (j n : Nat)
    (hn : j + n ≤ bufferSize ∨ n = 0) : (m.undefineBuf b).readBuf b' j n = m.readBuf b' j n := by
  refine Memory.readBuf_congr fun k hk => ?_
  rw [Memory.undefineBuf, m.read_undefine, if_neg]
  simp only [bufferSize] at *
  cases b <;> cases b' <;> simp_all [Buffer.base] <;> omega

/-! ## The canonical form -/

theorem Memory.risesFrom_mono {m : Memory} {lo lo' : Nat} (h : lo' ≤ lo) (hm : m.risesFrom lo = true) :
    m.risesFrom lo' = true := by
  cases m with
  | nil => rfl
  | cons c m => obtain ⟨k, v⟩ := c; simp [Memory.risesFrom] at hm ⊢; exact ⟨by omega, hm.2⟩

theorem Memory.risesFrom_write {m : Memory} {lo a : Nat} (b : Byte) (h : lo ≤ a) (hm : m.risesFrom lo = true) :
    (m.write a b).risesFrom lo = true := by
  induction m generalizing lo with
  | nil => simpa [Memory.write, Memory.risesFrom] using h
  | cons c m ih =>
    obtain ⟨k, v⟩ := c
    simp [Memory.risesFrom] at hm
    rw [Memory.write]
    split
    · simp [Memory.risesFrom, h, hm.2]; omega
    · split
      · next hk => subst hk; simp [Memory.risesFrom, hm]
      · simp [Memory.risesFrom, hm.1]
        exact ih (by omega) hm.2

theorem Memory.all_write {m : Memory} {p : Nat → Bool} {a : Nat} (b : Byte) (ha : p a = true)
    (hm : (m.all fun c => p c.1) = true) : ((m.write a b).all fun c => p c.1) = true := by
  induction m with
  | nil => simpa [Memory.write] using ha
  | cons c m ih =>
    obtain ⟨k, v⟩ := c
    simp only [List.all_cons, Bool.and_eq_true] at hm
    rw [Memory.write]
    split
    · simp only [List.all_cons, ha, hm.1, hm.2, Bool.and_self]
    · split
      · simp only [List.all_cons, ha, hm.2, Bool.and_self]
      · simp only [List.all_cons, hm.1, ih hm.2, Bool.and_self]

/-- Defining a buffer byte keeps the canonical form. -/
theorem Memory.wf_write {m : Memory} {a : Nat} (b : Byte) (ha : isBufferOffset a = true) (h : m.wf = true) :
    (m.write a b).wf = true := by
  simp only [Memory.wf, Bool.and_eq_true] at h ⊢
  exact ⟨Memory.risesFrom_write b (Nat.zero_le _) h.1, Memory.all_write b ha h.2⟩

theorem Buffer.holds_iff (b : Buffer) (off : Nat) :
    b.holds off = true ↔ b.base ≤ off ∧ off < b.base + bufferSize := by simp [Buffer.holds]

theorem isBufferOffset_iff (off : Nat) :
    isBufferOffset off = true ↔ (0x100 ≤ off ∧ off < 0x17F) ∨ (0x180 ≤ off ∧ off < 0x1FF) := by
  rw [isBufferOffset, Bool.or_eq_true, Buffer.holds_iff, Buffer.holds_iff]
  rfl

theorem Buffer.holds_byte (b : Buffer) {i : Nat} (h : i < bufferSize) : isBufferOffset (b.base + i) = true := by
  rw [isBufferOffset_iff]
  simp only [bufferSize] at h
  cases b <;> simp only [Buffer.base] <;> omega

theorem Memory.wf_writeBuf {m : Memory} (b : Buffer) (i : Nat) (bs : Bytes) (h : m.wf = true) :
    (m.writeBuf b i bs).wf = true := by
  induction bs generalizing m i with
  | nil => exact h
  | cons x xs ih =>
    rw [Memory.writeBuf]
    apply ih
    split
    · next hi => exact Memory.wf_write x (b.holds_byte hi) h
    · exact h

theorem Memory.wf_lanesWrite {m : Memory} (off : Nat) (bs : Bytes) (h : m.wf = true) :
    (lanesWrite m off bs).wf = true := by
  induction bs generalizing m off with
  | nil => exact h
  | cons x xs ih =>
    rw [lanesWrite]
    apply ih
    split
    · next hi => exact Memory.wf_write x hi h
    · exact h

theorem Memory.risesFrom_filter {m : Memory} {lo : Nat} (p : Host.Cell → Bool) (h : m.risesFrom lo = true) :
    Memory.risesFrom lo (m.filter p) = true := by
  induction m generalizing lo with
  | nil => rfl
  | cons c m ih =>
    obtain ⟨k, v⟩ := c
    simp [Memory.risesFrom] at h
    rw [List.filter_cons]
    split
    · simp [Memory.risesFrom, h.1, ih h.2]
    · exact Memory.risesFrom_mono (by omega) (ih h.2)

theorem Memory.wf_undefine {m : Memory} (lo n : Nat) (h : m.wf = true) : (m.undefine lo n).wf = true := by
  simp only [Memory.wf, Bool.and_eq_true] at h ⊢
  refine ⟨Memory.risesFrom_filter _ h.1, ?_⟩
  have h2 := h.2
  simp only [Memory.undefine, List.all_eq_true, List.mem_filter] at h2 ⊢
  exact fun c hc => h2 c hc.1

theorem Memory.wf_undefineBuf {m : Memory} (b : Buffer) (h : m.wf = true) : (m.undefineBuf b).wf = true :=
  Memory.wf_undefine _ _ h

/-! ## Byte lanes -/

/-- What a byte reads as after a write of byte lanes. -/
theorem read_lanesWrite (m : Memory) (off : Nat) (bs : Bytes) (a : Nat) :
    (lanesWrite m off bs).read a =
      if off ≤ a ∧ a < off + bs.length ∧ isBufferOffset a = true then bs[a - off]? else m.read a := by
  induction bs generalizing m off with
  | nil => simp [lanesWrite]; intros; omega
  | cons x xs ih =>
    rw [lanesWrite, ih]
    by_cases ha : a = off
    · subst ha
      rw [if_neg (by omega)]
      by_cases hb : isBufferOffset a = true
      · rw [if_pos hb, if_pos (by simp [hb]), m.read_write_same]; simp
      · rw [if_neg hb, if_neg (by simp [hb])]
    · have hm : (if isBufferOffset off = true then m.write off x else m).read a = m.read a := by
        split
        · exact m.read_write_ne x ha
        · rfl
      rw [hm]
      by_cases hc : off + 1 ≤ a ∧ a < off + 1 + xs.length ∧ isBufferOffset a = true
      · rw [if_pos hc, if_pos (by simp; exact ⟨by omega, by omega, hc.2.2⟩)]
        obtain ⟨d, hd⟩ : ∃ d, a - off = d + 1 := ⟨a - off - 1, by omega⟩
        rw [hd, show a - (off + 1) = d by omega]
        simp
      · rw [if_neg hc, if_neg (by rintro ⟨h1, h2, h3⟩; simp at h2; exact hc ⟨by omega, by omega, h3⟩)]

end Sys2Proof.Machine
end

