-- ==== Sys2Proof/Laws/Ops.lean ====
section
/-! SUPPORT. What each shared operation can do, said once: raising, reading the frame, the ports, and the rows of the
two dispatches. -/

namespace Sys2Proof.Machine

/-! ## Raising -/

theorem demand_eq (ok : Bool) (c : Code) (v : Byte) :
    demand ok c v = if ok then .ok () else .error (.raise c v) := rfl

theorem demand_bind {α : Type} (ok : Bool) (c : Code) (v : Byte) (f : Unit → Except Stop α) :
    (demand ok c v >>= f) = if ok then f () else .error (.raise c v) := by
  cases ok <;> rfl

theorem demand_eq_ok {ok : Bool} {c : Code} {v : Byte} : demand ok c v = .ok () ↔ ok = true := by
  cases ok <;> simp [demand_eq]

@[simp] theorem Except.ok_bind {α β : Type} (a : α) (f : α → Except Stop β) : ((.ok a : Except Stop α) >>= f) = f a := rfl

@[simp] theorem Except.error_bind {α β : Type} (e : Stop) (f : α → Except Stop β) :
    ((.error e : Except Stop α) >>= f) = .error e := rfl

theorem Except.bind_eq_ok {α β : Type} {x : Except Stop α} {f : α → Except Stop β} {b : β} :
    (x >>= f) = .ok b ↔ ∃ a, x = .ok a ∧ f a = .ok b := by
  cases x <;> simp [Bind.bind, Except.bind]

theorem Except.then_eq_ok {β : Type} {x : Except Stop Unit} {f : Unit → Except Stop β} {b : β} :
    (x >>= f) = .ok b ↔ x = .ok () ∧ f () = .ok b := by
  cases x <;> simp [Bind.bind, Except.bind]

/-- A computation raises only codes that a command may raise. -/
structure RaisesOnly {α : Type} (x : Except Stop α) : Prop where
  raised : ∀ c v, x = .error (.raise c v) → c ≠ .ok ∧ c ≠ .verificationFailure ∧ c.raisable = true

theorem RaisesOnly.ok {α : Type} (a : α) : RaisesOnly (.ok a : Except Stop α) := ⟨fun _ _ h => nomatch h⟩

theorem RaisesOnly.pure {α : Type} (a : α) : RaisesOnly (Pure.pure a : Except Stop α) := ⟨fun _ _ h => nomatch h⟩

theorem RaisesOnly.bind {α β : Type} {x : Except Stop α} {f : α → Except Stop β} (hx : RaisesOnly x)
    (hf : ∀ a, x = .ok a → RaisesOnly (f a)) : RaisesOnly (x >>= f) := by
  refine ⟨fun c v h => ?_⟩
  cases x with
  | error e => exact hx.raised c v (by simpa [Bind.bind, Except.bind] using h)
  | ok a => exact (hf a rfl).raised c v h

theorem RaisesOnly.demand {c : Code} (hc : c ≠ .ok ∧ c ≠ .verificationFailure ∧ c.raisable = true) (ok : Bool) (v : Byte) :
    RaisesOnly (demand ok c v) := by
  refine ⟨fun c' v' h => ?_⟩
  cases ok
  · simp only [demand_eq, Bool.false_eq_true, if_false, Except.error.injEq, Stop.raise.injEq] at h
    exact h.1 ▸ hc
  · simp [demand_eq] at h

theorem readFbuf_eq_ok {m : Memory} {i n : Nat} {bs : Bytes} :
    readFbuf m i n = .ok bs ↔ m.readBuf .fbuf i n = some bs := by
  rw [readFbuf]; cases m.readBuf .fbuf i n <;> simp

theorem RaisesOnly.readFbuf (m : Memory) (i n : Nat) : RaisesOnly (readFbuf m i n) := by
  refine ⟨fun c v h => ?_⟩
  rw [Machine.readFbuf] at h
  cases hm : m.readBuf .fbuf i n <;> simp [hm] at h

theorem readField_eq_ok {m : Memory} {fin cur n : Nat} {bs : Bytes} :
    readField m fin cur n = .ok bs ↔ cur + n ≤ fin ∧ m.readBuf .fbuf cur n = some bs := by
  rw [readField, demand_bind, ← readFbuf_eq_ok]
  by_cases h : cur + n ≤ fin <;> simp [h]

theorem readField_of_short {m : Memory} {fin cur n : Nat} (h : fin < cur + n) :
    readField m fin cur n = .error (.raise .notEnoughBytes (BitVec.ofNat 8 cur)) := by
  rw [readField, demand_bind, if_neg (by simpa using h)]

theorem RaisesOnly.readField (m : Memory) (fin cur n : Nat) : RaisesOnly (readField m fin cur n) :=
  .bind (.demand (by decide) _ _) fun _ _ => .readFbuf _ _ _

/-! ## Raising in a command -/

theorem raiseIn_withEngine (cmd : Command) (c : Code) (v : Byte) (s : State) (e : Engine) :
    raiseIn cmd c v (s.withEngine e) = raiseIn cmd c v s := by
  cases cmd <;> simp only [raiseIn] <;> (try split) <;> rfl

/-! ## The ports: what a call leaves -/

theorem askKey_state (mode kim : BitVec 2) (kid : Bytes) (dst : Option Address) (s : State) :
    ∃ p, (askKey mode kim kid dst s).2 = s.withPorts p := ⟨_, rfl⟩

theorem askInit_state (key : Bytes) (s : State) : ∃ p, (askInit key s).2 = s.withPorts p := ⟨_, rfl⟩

theorem State.withPorts_withPorts (s : State) (p q : Ports) : (s.withPorts p).withPorts q = s.withPorts q := rfl

/-- An AEAD.seal answer is no breach where it keeps the lengths of R50. -/
theorem sealBreach_some {pt ct tag : Bytes} {t : Nat} :
    sealBreach pt t (some (ct, tag)) = false ↔ ct.length = pt.length ∧ tag.length = t := by simp [sealBreach]

@[simp] theorem sealBreach_none (pt : Bytes) (t : Nat) : sealBreach pt t none = false := rfl

/-- An AEAD.open answer is no breach where it keeps the length of R50. -/
theorem openBreach_some {ct pt : Bytes} : openBreach ct (some pt) = false ↔ pt.length = ct.length := by
  simp [openBreach]

@[simp] theorem openBreach_none (ct : Bytes) : openBreach ct none = false := rfl

/-- A body codec's decode answer is no breach where it consumes no more than it was given (R51). -/
theorem bodyDecodeBreach_ok {bytes : Bytes} {n : Nat} :
    bodyDecodeBreach bytes (.ok n) = false ↔ n ≤ bytes.length := by simp [bodyDecodeBreach]

@[simp] theorem bodyDecodeBreach_err (bytes : Bytes) (e : CodecErr) : bodyDecodeBreach bytes (.err e) = false := rfl

/-- A body codec's encode answer is no breach where it fits its capacity (R51). -/
theorem bodyEncodeBreach_ok {cap : Nat} {bytes : Bytes} :
    bodyEncodeBreach cap (.ok bytes) = false ↔ bytes.length ≤ cap := by simp [bodyEncodeBreach]

@[simp] theorem bodyEncodeBreach_err (cap : Nat) (e : CodecErr) : bodyEncodeBreach cap (.err e) = false := rfl

/-! ## The rows -/

/-- What a row may leave as its result, from its operands. -/
def RowResult (ct : Nat) : Engine → Engine → Prop
  | .decoding _ cur fin, e =>
    (∃ n, e = .consumed n ∧ n ≤ fin - cur) ∨
      ∃ c v, e = .raised c v ∧ c ≠ .ok ∧ c ≠ .verificationFailure ∧ c.raisable = true
  | .encoding _ _ cap, e =>
    (∃ b, e = .produced b ∧ b.length ≤ cap) ∨
      ∃ c v, e = .raised c v ∧ c ≠ .ok ∧ c ≠ .verificationFailure ∧ c.raisable = true
  | .sealing _ _ _ p, e =>
    (∃ q tag, e = .sealed q tag ∧ q.length = p.length ∧ tag.length = ct) ∨ e = .raised .keyFailure 0
  | .opening _ _ _ body _, e => (∃ pt, e = .opened pt ∧ pt.length = body.length) ∨ e = .openFailed
  | _, _ => False

/-- A row that ends in a next state leaves only the ports' side and a result. -/
def RowKeeps (ct : Nat) (s : State) (o : Host.Outcome State Fault Refusal) : Prop :=
  ∀ s', o = .next s' → ∃ p e, s' = (s.withPorts p).withEngine e ∧ RowResult ct s.engine e

theorem bodyError_raised (e : CodecErr) (off : Nat) :
    ∃ c v, bodyError e off = .raised c v ∧ c ≠ .ok ∧ c ≠ .verificationFailure ∧ c.raisable = true := by
  cases e <;> exact ⟨_, _, rfl, by decide⟩

theorem externalContent_keeps (port : BodyPort) (s : State) : RowKeeps 0 s (externalContent port s) := by
  intro s' h
  rw [externalContent] at h
  split at h
  · next fc cur fin he =>
    split at h
    · cases h
    · next bytes hr =>
      split at h
      · cases h
      · next hb =>
        simp only [Host.Outcome.next.injEq] at h
        refine ⟨_, _, h.symm, ?_⟩
        rw [he]
        cases hd : (askBodyDecode port bytes s).1 with
        | ok n =>
          rw [hd] at hb
          have := bodyDecodeBreach_ok.1 (by simpa using hb)
          rw [Memory.readBuf_length hr] at this
          exact .inl ⟨n, rfl, this⟩
        | err e => exact .inr (bodyError_raised e cur)
  · next fc ol cap he =>
    split at h
    · cases h
    · next hb =>
      simp only [Host.Outcome.next.injEq] at h
      refine ⟨_, _, h.symm, ?_⟩
      rw [he]
      cases hd : (askBodyEncode port cap s).1 with
      | ok n =>
        rw [hd] at hb
        exact .inl ⟨n, rfl, bodyEncodeBreach_ok.1 (by simpa using hb)⟩
      | err e => exact .inr (bodyError_raised e ol)
  · cases h

theorem emptyContent_keeps (s : State) : RowKeeps 0 s (emptyContent s) := by
  intro s' h
  rw [emptyContent] at h
  split at h
  · next he =>
    simp only [Host.Outcome.next.injEq] at h
    exact ⟨s.ports, _, h.symm, he ▸ .inl ⟨0, rfl, Nat.zero_le _⟩⟩
  · next he =>
    simp only [Host.Outcome.next.injEq] at h
    exact ⟨s.ports, _, h.symm, he ▸ .inl ⟨[], rfl, Nat.zero_le _⟩⟩
  · cases h

theorem RaisesOnly.fcCheck (fc : Half) : RaisesOnly (fcCheck fc) :=
  .bind (.demand (by decide) _ _) fun _ _ => .bind (.demand (by decide) _ _) fun _ _ =>
    .bind (.demand (by decide) _ _) fun _ _ => .demand (by decide) _ _

theorem invalidContent_keeps (fc : Half) (s : State) : RowKeeps 0 s (invalidContent fc s) := by
  intro s' h
  rw [invalidContent] at h
  split at h
  · next he hc =>
    simp only [Host.Outcome.next.injEq] at h
    exact ⟨s.ports, _, h.symm, he ▸ .inr ⟨_, _, rfl, (RaisesOnly.fcCheck _).raised _ _ hc⟩⟩
  · next he hc =>
    simp only [Host.Outcome.next.injEq] at h
    exact ⟨s.ports, _, h.symm, he ▸ .inr ⟨_, _, rfl, (RaisesOnly.fcCheck _).raised _ _ hc⟩⟩
  · cases h

theorem contentDispatch_eq (fc : Half) (s : State) : contentDispatch fc s = exec (decodeFc fc) s := by
  rw [contentDispatch, decodeFc]
  generalize (fcType fc).toNat = n
  match n with
  | 0 | 1 | 2 | 3 | _ + 4 => rfl

theorem contentDispatch_keeps (fc : Half) (s : State) : RowKeeps 0 s (contentDispatch fc s) := by
  rw [contentDispatch]
  split
  · exact externalContent_keeps _ s
  · exact emptyContent_keeps s
  · exact emptyContent_keeps s
  · exact externalContent_keeps _ s
  · exact invalidContent_keeps _ s

theorem sealCall_keeps {keep : Option Bytes} {inst nonce ad pt : Bytes} {t : Nat} {s : State} {sc : Byte}
    {i n p : Bytes} (he : s.engine = .sealing sc i n p)
    (hl : ∀ ct : Bytes, ct.length = pt.length → (keep.getD ct).length = p.length) :
    RowKeeps t s (sealCall keep inst nonce ad pt t s) := by
  intro s' h
  rw [sealCall] at h
  split at h
  · cases h
  · next hb =>
    simp only [Host.Outcome.next.injEq] at h
    refine ⟨_, _, h.symm, ?_⟩
    rw [he]
    cases ha : (askSeal inst nonce ad pt t s).1 with
    | none => exact .inr rfl
    | some r =>
      rw [ha] at hb
      obtain ⟨h1, h2⟩ := sealBreach_some.1 (by simpa using hb)
      exact .inl ⟨_, _, rfl, hl _ h1, h2⟩

theorem openCall_keeps {keep : Option Bytes} {inst nonce ad ct tag : Bytes} {t t' : Nat} {s : State} {sc : Byte}
    {i n body tg : Bytes} (he : s.engine = .opening sc i n body tg)
    (hl : ∀ pt : Bytes, pt.length = ct.length → (keep.getD pt).length = body.length) :
    RowKeeps t' s (openCall keep inst nonce ad ct tag t s) := by
  intro s' h
  rw [openCall] at h
  split at h
  · cases h
  · next hb =>
    simp only [Host.Outcome.next.injEq] at h
    refine ⟨_, _, h.symm, ?_⟩
    rw [he]
    cases ha : (askOpen inst nonce ad ct tag t s).1 with
    | none => exact .inr rfl
    | some r =>
      rw [ha] at hb
      exact .inl ⟨_, rfl, hl _ (openBreach_some.1 (by simpa using hb))⟩

theorem transform_keeps (lvl : BitVec 3) (s : State) : RowKeeps (tagLen lvl) s (transform lvl s) := by
  rw [transform]
  split
  · next sc inst nonce p he =>
    rw [sealBody]
    split
    · next h0 =>
      intro s' h
      simp only [Host.Outcome.next.injEq] at h
      exact ⟨s.ports, _, h.symm, he ▸ .inl ⟨p, [], rfl, rfl, by rw [tagLen, h0]; rfl⟩⟩
    all_goals first
      | exact sealCall_keeps he fun _ _ => rfl
      | exact sealCall_keeps he fun _ h => h
  · next sc inst nonce body tag he =>
    rw [openBody]
    split
    · intro s' h
      simp only [Host.Outcome.next.injEq] at h
      exact ⟨s.ports, _, h.symm, he ▸ .inl ⟨body, rfl, rfl⟩⟩
    all_goals first
      | exact openCall_keeps he fun _ _ => rfl
      | exact openCall_keeps he fun _ h => h
  · intro s' h; cases h

/-- The transform dispatch is the transform of the level the control byte names. -/
theorem transformDispatch_transform (sc : Byte) (s : State) : transformDispatch sc s = transform (scLevel sc) s := by
  have h8 : (scLevel sc).toNat < 8 := (scLevel sc).isLt
  have hl : scLevel sc = BitVec.ofNat 3 (scLevel sc).toNat := by simp
  rw [transformDispatch, hl]
  generalize (scLevel sc).toNat = n at h8 ⊢
  interval_cases n <;> rfl

theorem transformDispatch_eq (sc : Byte) (s : State) : transformDispatch sc s = exec (decodeSc sc) s := by
  rw [transformDispatch, decodeSc]
  generalize (scLevel sc).toNat = n
  match n with
  | 0 | 1 | 2 | 3 | 4 | 5 | 6 | _ + 7 => rfl

theorem transformDispatch_keeps (sc : Byte) (s : State) :
    RowKeeps (tagLen (scLevel sc)) s (transformDispatch sc s) := by
  rw [transformDispatch_transform]; exact transform_keeps _ s

end Sys2Proof.Machine
end

