-- ==== Sys2Proof/Laws/Commands.lean ====
section
/-! SUPPORT. What each command can do, said once: the cases of a command that ends in a next state. -/

namespace Sys2Proof.Machine

/-! ## The internal functions raise only codes that a command may raise -/

theorem RaisesOnly.ite {α : Type} {c : Prop} [Decidable c] {x y : Except Stop α} (hx : RaisesOnly x)
    (hy : RaisesOnly y) : RaisesOnly (if c then x else y) := by
  split <;> assumption

theorem RaisesOnly.panDecode (m : Memory) (mode : BitVec 2) (role : Role) (pic : Bool) (other : Option Address)
    (fin cur : Nat) : RaisesOnly (panDecode m mode role pic other fin cur) := by
  unfold Machine.panDecode
  split
  · exact .ok _
  · exact .bind (.readField _ _ _ _) fun _ _ => .pure _

theorem RaisesOnly.plainDecode (m : Memory) (mode : BitVec 2) (pan : Half) (fin cur : Nat) :
    RaisesOnly (plainDecode m mode pan fin cur) :=
  .ite (.bind (.readField _ _ _ _) fun _ _ => .pure _) (.bind (.readField _ _ _ _) fun _ _ => .pure _)

theorem RaisesOnly.addressDecode (m : Memory) (mode : BitVec 2) (role : Role) (pic : Bool) (other : Option Address)
    (fin cur : Nat) : RaisesOnly (addressDecode m mode role pic other fin cur) :=
  .ite (.ok _) (.bind (.demand (by decide) _ _) fun _ _ => .bind (.panDecode ..) fun _ _ => .plainDecode ..)

theorem RaisesOnly.fcDecode (m : Memory) (fin : Nat) : RaisesOnly (fcDecode m fin) :=
  .bind (.readField ..) fun _ _ => .bind (.fcCheck _) fun _ _ => .pure _

theorem RaisesOnly.counterDecode (m : Memory) (ver : BitVec 2) (sc : Byte) (fin cur : Nat) :
    RaisesOnly (counterDecode m ver sc fin cur) :=
  .ite (.bind (.readField ..) fun _ _ => .pure _) (.ok _)

theorem RaisesOnly.auxDecode (m : Memory) (ver : BitVec 2) (fin cur : Nat) : RaisesOnly (auxDecode m ver fin cur) :=
  .bind (.readField ..) fun _ _ => .bind (.counterDecode ..) fun _ _ => .bind (.readField ..) fun _ _ => .pure _

theorem RaisesOnly.auxPart (m : Memory) (fc : Half) (fin cur : Nat) : RaisesOnly (auxPart m fc fin cur) :=
  .ite (.bind (.auxDecode ..) fun _ _ => .pure _) (.ok _)

theorem RaisesOnly.headerDecode (m : Memory) (fin : Nat) : RaisesOnly (headerDecode m fin) :=
  .bind (.fcDecode ..) fun _ _ => .bind (.readField ..) fun _ _ => .bind (.addressDecode ..) fun _ _ =>
    .bind (.addressDecode ..) fun _ _ => .bind (.auxPart ..) fun _ _ => .pure _

theorem RaisesOnly.decodeFront (s : State) : RaisesOnly (decodeFront s) :=
  .bind (.headerDecode ..) fun _ _ => .bind (.demand (by decide) _ _) fun _ _ => .pure _

theorem RaisesOnly.contractCheck (h : HeaderRegs) : RaisesOnly (contractCheck h) :=
  .bind (.demand (by decide) _ _) fun _ _ => .demand (by decide) _ _

theorem RaisesOnly.headerValidate (h : HeaderRegs) : RaisesOnly (headerValidate h) :=
  .bind (.contractCheck _) fun _ _ => .fcCheck _

theorem RaisesOnly.modeCheck (h : HeaderRegs) : RaisesOnly (modeCheck h) := .demand (by decide) _ _

theorem RaisesOnly.lengthCheck (h : HeaderRegs) : RaisesOnly (lengthCheck h) := .demand (by decide) _ _

theorem RaisesOnly.counterCheck (c : Word) : RaisesOnly (counterCheck c) := .demand (by decide) _ _

theorem RaisesOnly.secureGuard (s : State) : RaisesOnly (secureGuard s) :=
  .bind (.demand (by decide) _ _) fun _ _ => .contractCheck _

theorem RaisesOnly.secureChecks (s : State) : RaisesOnly (secureChecks s) :=
  .bind (.modeCheck _) fun _ _ => .bind (.lengthCheck _) fun _ _ => .bind (.demand (by decide) _ _) fun _ _ =>
    .counterCheck _

theorem RaisesOnly.verifyGuard (s : State) : RaisesOnly (verifyGuard s) :=
  .bind (.demand (by decide) _ _) fun _ _ => .contractCheck _

theorem RaisesOnly.verifyChecks (s : State) : RaisesOnly (verifyChecks s) :=
  .bind (.modeCheck _) fun _ _ => .bind (.lengthCheck _) fun _ _ => .counterCheck _

/-! ## When the checks pass -/

/-- The checks on a frame control word as one chain, the first that fails on top (R140, R149). -/
theorem fcCheck_eq (fc : Half) :
    fcCheck fc =
      if fcDstMode fc = 1 ∨ fcSrcMode fc = 1 then .error (.raise .invalidAddressMode 1)
      else if 4 ≤ (fcType fc).toNat then .error (.raise .invalidFrameType ((fcType fc).setWidth 8))
      else if fcVersion fc = 3 then .error (.raise .invalidFrameVersion 3)
      else .ok () := by
  simp only [fcCheck, demand_eq]
  generalize fcDstMode fc = a
  generalize fcSrcMode fc = b
  generalize fcVersion fc = c
  generalize fcType fc = d
  by_cases h1 : a = 1#2
  · simp [h1]
  · by_cases h2 : b = 1#2
    · simp [h1, h2]
    · by_cases h3 : 4 ≤ d.toNat
      · simp [h1, h2, h3, show ¬d.toNat ≤ 3 by omega]
      · by_cases h4 : c = 3#2 <;> simp [h1, h2, h3, h4, show d.toNat ≤ 3 by omega]

theorem fcCheck_eq_ok {fc : Half} :
    fcCheck fc = .ok () ↔ fcDstMode fc ≠ 1 ∧ fcSrcMode fc ≠ 1 ∧ (fcType fc).toNat ≤ 3 ∧ fcVersion fc ≠ 3 := by
  simp [fcCheck, Except.then_eq_ok, demand_eq_ok]

theorem contractCheck_eq_ok {h : HeaderRegs} : contractCheck h = .ok () ↔ fcSecurity h.fc = h.auxPresent := by
  cases h1 : fcSecurity h.fc <;> cases h2 : h.auxPresent <;> simp [contractCheck, Except.then_eq_ok, demand_eq_ok, h1, h2]

theorem headerValidate_eq_ok {h : HeaderRegs} :
    headerValidate h = .ok () ↔ fcSecurity h.fc = h.auxPresent ∧ fcCheck h.fc = .ok () := by
  simp [headerValidate, Except.then_eq_ok, contractCheck_eq_ok]

theorem modeCheck_eq_ok {h : HeaderRegs} : modeCheck h = .ok () ↔ fcDstMode h.fc ≠ 1 ∧ fcSrcMode h.fc ≠ 1 := by
  simp [modeCheck, demand_eq_ok]

theorem secureGuard_eq_ok {s : State} :
    secureGuard s = .ok () ↔ s.status.secured = false ∧ fcSecurity s.hdr.fc = s.hdr.auxPresent := by
  simp [secureGuard, Except.then_eq_ok, demand_eq_ok, contractCheck_eq_ok]

theorem secureChecks_eq_ok {s : State} :
    secureChecks s = .ok () ↔
      (fcDstMode s.hdr.fc ≠ 1 ∧ fcSrcMode s.hdr.fc ≠ 1) ∧ lengthCheck s.hdr = .ok () ∧
        s.plen.toNat + tagLen s.hdr.level ≤ bufferSize ∧ s.frameCounter ≠ 0xFFFFFFFF := by
  simp [secureChecks, Except.then_eq_ok, demand_eq_ok, modeCheck_eq_ok, counterCheck]

theorem verifyGuard_eq_ok {s : State} :
    verifyGuard s = .ok () ↔
      (s.status.frameValid = true ∧ s.status.verified = false) ∧ fcSecurity s.hdr.fc = s.hdr.auxPresent := by
  simp [verifyGuard, Except.then_eq_ok, demand_eq_ok, contractCheck_eq_ok]

theorem verifyChecks_eq_ok {s : State} :
    verifyChecks s = .ok () ↔
      (fcDstMode s.hdr.fc ≠ 1 ∧ fcSrcMode s.hdr.fc ≠ 1) ∧ lengthCheck s.hdr = .ok () ∧
        verifyCounter s ≠ 0xFFFFFFFF := by
  simp [verifyChecks, Except.then_eq_ok, demand_eq_ok, modeCheck_eq_ok, counterCheck]

/-! ## The commands -/

/-- The command raised a code of its own, after some port calls. -/
def Raised (cmd : Command) (s t : State) : Prop :=
  ∃ p c v, t = raiseIn cmd c v (s.withPorts p) ∧ c ≠ .ok ∧ c ≠ .verificationFailure ∧ c.raisable = true

theorem decodeFront_eq_ok {s : State} {h : Hdr} {hl : Nat} :
    decodeFront s = .ok (h, hl) ↔
      headerDecode s.mem s.len.toNat = .ok (h, hl) ∧ hl + footerLen s.footerMode ≤ s.len.toNat := by
  rw [decodeFront]
  cases hd : headerDecode s.mem s.len.toNat with
  | error e => simp [Bind.bind, Except.bind]
  | ok r =>
    obtain ⟨h', hl'⟩ := r
    simp only [Bind.bind, Except.bind, demand_eq]
    by_cases hf : hl' + footerLen s.footerMode ≤ s.len.toNat
    · simp only [hf, decide_true, if_true, pure, Except.pure, Except.ok.injEq, Prod.mk.injEq]
      constructor
      · rintro ⟨rfl, rfl⟩; exact ⟨⟨rfl, rfl⟩, hf⟩
      · exact And.left
    · simp only [hf, decide_false, Bool.false_eq_true, if_false, reduceCtorEq, Except.ok.injEq, Prod.mk.injEq,
        false_iff]
      rintro ⟨⟨-, rfl⟩, h⟩; exact hf h

@[simp] theorem footerDecode_withPorts (s : State) (p : Ports) : footerDecode (s.withPorts p) = footerDecode s := rfl
@[simp] theorem footerDecode_withEngine (s : State) (e : Engine) : footerDecode (s.withEngine e) = footerDecode s := rfl
@[simp] theorem footerEncode_withPorts (s : State) (p : Ports) : footerEncode (s.withPorts p) = footerEncode s := rfl
@[simp] theorem footerEncode_withEngine (s : State) (e : Engine) : footerEncode (s.withEngine e) = footerEncode s := rfl

/-- The footer's bytes are as many as its length says. -/
theorem footerEncode_length (s : State) : (footerEncode s).length = footerLen s.footerMode := by
  rw [footerEncode]; cases s.footerMode <;> rfl

/-- ENCODE commits a frame that fits (R221). -/
theorem encodeEnd_produced {out body p : Bytes} {s : State}
    (h : (out ++ body ++ p ++ footerEncode s).length ≤ bufferSize) :
    encodeEnd out p (s.withEngine (.produced body)) = encodeCommit out body p s := by
  simp only [encodeEnd, State.withEngine_engine]
  exact if_pos h

/-- A command that raised a code of its own shows it, and ERR with it. -/
theorem Raised.code {cmd : Command} {s t : State} (h : Raised cmd s t) :
    t.status.code ≠ .ok ∧ t.status.code ≠ .verificationFailure ∧ t.status.code.raisable = true ∧
      t.status.err = true := by
  obtain ⟨p, c, v, rfl, h1, h2, h3⟩ := h
  have hc : (raiseIn cmd c v (s.withPorts p)).status.code = c := by simp
  rw [Status.err, hc]
  refine ⟨h1, h2, h3, ?_⟩
  cases c <;> first | rfl | exact absurd rfl h1

/-- The cases of a DECODE that ends in a next state. -/
theorem execDecode_cases {s t : State} (ht : execDecode s = .next t) :
    Raised .decode s t ∨
      ∃ p h hl cn ft, headerDecode s.mem s.len.toNat = .ok (h, hl) ∧ hl + footerLen s.footerMode ≤ s.len.toNat ∧
        cn ≤ s.len.toNat - footerLen s.footerMode - hl ∧ footerDecode s = some ft ∧
        t = decodeCommit h hl cn ft (s.withPorts p) := by
  rw [execDecode] at ht
  split at ht
  · next c v hf =>
    simp only [Host.Outcome.next.injEq] at ht
    exact .inl ⟨s.ports, c, v, ht.symm, (RaisesOnly.decodeFront s).raised c v hf⟩
  · cases ht
  · next h hl hf =>
    obtain ⟨hh, hl'⟩ := decodeFront_eq_ok.1 hf
    split at ht
    · next s' hs =>
      obtain ⟨p, e, rfl, hr⟩ := contentDispatch_keeps _ _ _ hs
      have hr : RowResult 0 (.decoding h.fc hl (s.len.toNat - footerLen s.footerMode)) e := hr
      rw [decodeBack] at ht
      rcases hr with ⟨n, rfl, hn⟩ | ⟨c, v, rfl, hc⟩
      · split at ht
        · next ft hft =>
          simp only [Host.Outcome.next.injEq] at ht
          exact .inr ⟨p, h, hl, n, ft, hh, hl', hn, hft, ht.symm⟩
        · cases ht
      · refine .inl ⟨p, c, v, ?_, hc⟩
        split at ht
        · exact (Host.Outcome.next.inj ht).symm
        · exact (Host.Outcome.next.inj ht).symm
    · cases ht
    · cases ht

/-- The cases of an ENCODE that ends in a next state. -/
theorem execEncode_cases {s t : State} (ht : execEncode s = .next t) :
    Raised .encode s t ∨
      ∃ p body pl, headerValidate s.hdr = .ok () ∧ s.mem.readBuf .pbuf 0 s.plen.toNat = some pl ∧
        (headerEncode s.hdr ++ body ++ pl ++ footerEncode s).length ≤ bufferSize ∧
        t = encodeCommit (headerEncode s.hdr) body pl (s.withPorts p) := by
  rw [execEncode] at ht
  split at ht
  · next c v hf =>
    simp only [Host.Outcome.next.injEq] at ht
    exact .inl ⟨s.ports, c, v, ht.symm, (RaisesOnly.headerValidate _).raised c v hf⟩
  · cases ht
  · next hv =>
    split at ht
    · next s' hs =>
      obtain ⟨p, e, rfl, hr⟩ := contentDispatch_keeps _ _ _ hs
      have hr : RowResult 0 (.encoding s.hdr.fc (headerEncode s.hdr).length
        (bufferSize - (headerEncode s.hdr).length - s.plen.toNat - footerLen s.footerMode)) e := hr
      rw [encodeBack] at ht
      rcases hr with ⟨body, rfl, -⟩ | ⟨c, v, rfl, hc⟩
      · split at ht
        · next pl hpl =>
          simp only [Host.Outcome.next.injEq] at ht
          subst ht
          rw [encodeEnd]
          simp only [State.withEngine_engine]
          split
          · next hlen => exact .inr ⟨p, body, pl, hv, hpl, hlen, rfl⟩
          · exact .inl ⟨p, _, _, rfl, by decide⟩
        · cases ht
      · refine .inl ⟨p, c, v, ?_, hc⟩
        split at ht
        · exact (Host.Outcome.next.inj ht).symm
        · exact (Host.Outcome.next.inj ht).symm
    · cases ht
    · cases ht

/-- Steps 5 to 7 change only the ports' side, and fail only with a code of their own. -/
theorem prepare_cases (c : Word) (s : State) :
    ∃ p, (prepare c s).2 = s.withPorts p ∧
      ((∃ inst nonce, (prepare c s).1 = .ready inst nonce) ∨
        ∃ k, (prepare c s).1 = .failed k ∧ k ≠ .ok ∧ k ≠ .verificationFailure ∧ k.raisable = true) := by
  rw [prepare]
  obtain ⟨p1, h1⟩ := askKey_state (fcDstMode s.hdr.fc) (scKeyIdMode s.hdr.auxCtrl) s.hdr.kidUsed s.hdr.dstAddr s
  split
  · next s1 hk =>
    have : s1 = s.withPorts p1 := by rw [← h1, ← keyStep, hk]
    exact ⟨p1, this, .inr ⟨_, rfl, by decide⟩⟩
  · next key s1 hk =>
    have e1 : s1 = s.withPorts p1 := by rw [← h1, ← keyStep, hk]
    subst e1
    obtain ⟨p2, h2⟩ := askInit_state key (s.withPorts p1)
    split
    · next s2 hi =>
      have : s2 = s.withPorts p2 := by rw [hi] at h2; exact h2
      exact ⟨p2, this, .inr ⟨_, rfl, by decide⟩⟩
    · next inst s2 hi =>
      have : s2 = s.withPorts p2 := by rw [hi] at h2; exact h2
      split
      · exact ⟨p2, this, .inr ⟨_, rfl, by decide⟩⟩
      · exact ⟨p2, this, .inl ⟨_, _, rfl⟩⟩

/-- SECURE with security on succeeded: the payload `q` and the tag have their lengths, and this is the commit. -/
def Sealed (s t : State) : Prop :=
  ∃ p pl q tag, secureGuard s = .ok () ∧ fcSecurity s.hdr.fc = true ∧ secureChecks s = .ok () ∧
    s.mem.readBuf .pbuf 0 s.plen.toNat = some pl ∧ q.length = s.plen.toNat ∧ tag.length = tagLen s.hdr.level ∧
    t = secureCommit q tag (s.withPorts p)

/-- The cases of a SECURE that ends in a next state. -/
theorem execSecure_cases {s t : State} (ht : execSecure s = .next t) :
    Raised .secure s t ∨ (fcSecurity s.hdr.fc = false ∧ t = secureOff s) ∨ Sealed s t := by
  rw [execSecure] at ht
  split at ht
  · next c v hf =>
    simp only [Host.Outcome.next.injEq] at ht
    exact .inl ⟨s.ports, c, v, ht.symm, (RaisesOnly.secureGuard _).raised c v hf⟩
  · cases ht
  · next hg =>
    split at ht
    · next hsec =>
      rw [secureOn] at ht
      split at ht
      · next c v hf =>
        simp only [Host.Outcome.next.injEq] at ht
        exact .inl ⟨s.ports, c, v, ht.symm, (RaisesOnly.secureChecks _).raised c v hf⟩
      · cases ht
      · next hc =>
        obtain ⟨p, hp, hr⟩ := prepare_cases s.frameCounter s
        split at ht
        · next c s' hpr =>
          rw [hpr] at hp hr
          simp only at hp hr
          subst hp
          simp only [Host.Outcome.next.injEq] at ht
          rcases hr with ⟨_, _, h⟩ | ⟨k, h, hk⟩
          · cases h
          · cases h; exact .inl ⟨p, c, 0, ht.symm, hk⟩
        · next inst nonce s' hpr =>
          rw [hpr] at hp
          simp only at hp
          subst hp
          rw [secureSeal] at ht
          split at ht
          · cases ht
          · next pl hpl =>
            split at ht
            · next s' hs =>
              obtain ⟨p', e, rfl, hres⟩ := transformDispatch_keeps _ _ _ hs
              simp only [Host.Outcome.next.injEq] at ht
              have hres : RowResult (tagLen s.hdr.level) (.sealing s.hdr.auxCtrl inst nonce pl) e := hres
              rcases hres with ⟨q, tag, rfl, hq, htg⟩ | rfl
              · exact .inr (.inr ⟨p', pl, q, tag, hg, hsec, hc, hpl, by
                  rw [hq]; exact Memory.readBuf_length hpl, htg, ht.symm⟩)
              · exact .inl ⟨p', _, _, ht.symm, by decide⟩
            · cases ht
            · cases ht
    · next hsec =>
      simp only [Host.Outcome.next.injEq] at ht
      exact .inr (.inl ⟨by simpa using hsec, ht.symm⟩)

/-- VERIFY with security on succeeded: the payload was at least as long as its tag, the plaintext has the length of the
rest, and this is the commit. -/
def Opened (s t : State) : Prop :=
  ∃ p bs pt, verifyGuard s = .ok () ∧ fcSecurity s.hdr.fc = true ∧ verifyChecks s = .ok () ∧
    tagLen s.hdr.level ≤ s.payload.len.toNat ∧
    s.mem.readBuf .fbuf s.payload.off.toNat s.payload.len.toNat = some bs ∧
    pt.length = s.payload.len.toNat - tagLen s.hdr.level ∧ t = verifyCommit pt (s.withPorts p)

/-- The cases of a VERIFY that ends in a next state. -/
theorem execVerify_cases {s t : State} (ht : execVerify s = .next t) :
    Raised .verify s t ∨
      (∃ p, verifyGuard s = .ok () ∧ t = raiseIn .verify .verificationFailure 0 (s.withPorts p)) ∨
      (verifyGuard s = .ok () ∧ fcSecurity s.hdr.fc = false ∧ t = verifyOff s) ∨ Opened s t := by
  rw [execVerify] at ht
  split at ht
  · next c v hf =>
    simp only [Host.Outcome.next.injEq] at ht
    exact .inl ⟨s.ports, c, v, ht.symm, (RaisesOnly.verifyGuard _).raised c v hf⟩
  · cases ht
  · next hg =>
    split at ht
    · next hsec =>
      rw [verifyOn] at ht
      split at ht
      · next c v hf =>
        simp only [Host.Outcome.next.injEq] at ht
        exact .inl ⟨s.ports, c, v, ht.symm, (RaisesOnly.verifyChecks _).raised c v hf⟩
      · cases ht
      · next hc =>
        obtain ⟨p, hp, hr⟩ := prepare_cases (verifyCounter s) s
        split at ht
        · next c s' hpr =>
          rw [hpr] at hp hr
          simp only at hp hr
          subst hp
          simp only [Host.Outcome.next.injEq] at ht
          rcases hr with ⟨_, _, h⟩ | ⟨k, h, hk⟩
          · cases h
          · cases h; exact .inl ⟨p, c, 0, ht.symm, hk⟩
        · next inst nonce s' hpr =>
          rw [hpr] at hp
          simp only at hp
          subst hp
          rw [verifyOpen] at ht
          split at ht
          · simp only [Host.Outcome.next.injEq] at ht
            exact .inr (.inl ⟨p, hg, ht.symm⟩)
          · next hlen =>
            split at ht
            · cases ht
            · next bs hbs =>
              have hbl := Memory.readBuf_length hbs
              simp only [State.withPorts_payload, State.withPorts_hdr] at hbl hlen
              split at ht
              · next s' hs =>
                obtain ⟨p', e, rfl, hres⟩ := transformDispatch_keeps _ _ _ hs
                simp only [Host.Outcome.next.injEq] at ht
                rcases hres with ⟨pt, rfl, hpt⟩ | rfl
                · refine .inr (.inr (.inr ⟨p', bs, pt, hg, hsec, hc, by omega, hbs, ?_, ht.symm⟩))
                  rw [hpt, List.length_take, hbl]
                  simp only [State.withPorts_payload, State.withPorts_hdr]
                  omega
                · exact .inr (.inl ⟨p', hg, ht.symm⟩)
              · cases ht
              · cases ht
    · next hsec =>
      simp only [Host.Outcome.next.injEq] at ht
      exact .inr (.inr (.inl ⟨hg, by simpa using hsec, ht.symm⟩))

/-- A row run by `exec` changes only the ports' side and the command-internal state. -/
theorem exec_row {i : Instr} {s t : State} (hi : i.format ≠ .cmd32) (h : exec i s = .next t) :
    ∃ p e, t = (s.withPorts p).withEngine e := by
  cases i <;> first
    | exact absurd rfl hi
    | exact (externalContent_keeps _ s t h).imp fun _ h => h.imp fun _ h => h.1
    | exact (emptyContent_keeps s t h).imp fun _ h => h.imp fun _ h => h.1
    | exact (invalidContent_keeps _ s t h).imp fun _ h => h.imp fun _ h => h.1
    | exact (transform_keeps _ s t h).imp fun _ h => h.imp fun _ h => h.1

end Sys2Proof.Machine
end

