-- ==== Sys2Proof/Laws/Words.lean ====
section
/-! SUPPORT. The packed words bit by bit: the frame control word, the security control byte, and the register words. -/

namespace Sys2Proof

/-! ## The dispatch words -/

theorem getLsbD_packFc (ft : BitVec 3) (f : FcFields) {k : Nat} (h : k < 16) :
    (packFc ft f).getLsbD k =
      if k < 3 then ft.getLsbD k else if k = 3 then f.security else if k = 4 then f.framePending
      else if k = 5 then f.ackRequest else if k = 6 then f.panIdCompress else if k < 10 then f.rsvd.getLsbD (k - 7)
      else if k < 12 then f.dstMode.getLsbD (k - 10) else if k < 14 then f.version.getLsbD (k - 12)
      else f.srcMode.getLsbD (k - 14) := by
  unfold packFc
  change BitVec.getLsbD (w := 2 + 2 + 2 + 3 + 1 + 1 + 1 + 1 + 3) _ _ = _
  simp only [BitVec.getLsbD_append, BitVec.getLsbD_ofBool]
  interval_cases k <;> simp

theorem getLsbD_packSc (lvl : BitVec 3) (f : ScFields) {k : Nat} (h : k < 8) :
    (packSc lvl f).getLsbD k =
      if k < 3 then lvl.getLsbD k else if k < 5 then f.keyIdMode.getLsbD (k - 3) else if k = 5 then f.fcSuppress
      else if k = 6 then f.asnInNonce else f.rsvd := by
  unfold packSc
  change BitVec.getLsbD (w := 1 + 1 + 1 + 2 + 3) _ _ = _
  simp only [BitVec.getLsbD_append, BitVec.getLsbD_ofBool]
  interval_cases k <;> simp

@[simp] theorem fcType_packFc (ft : BitVec 3) (f : FcFields) : fcType (packFc ft f) = ft := by
  unfold fcType
  ext k hk
  rw [BitVec.getElem_extractLsb', getLsbD_packFc _ _ (by omega)]
  simp [hk, BitVec.getLsbD_eq_getElem]

@[simp] theorem fcFields_packFc (ft : BitVec 3) (f : FcFields) : fcFields (packFc ft f) = f := by
  obtain ⟨a, b, c, d, e, g, h, i⟩ := f
  simp only [fcFields, fcSecurity, fcPending, fcAck, fcCompress, fcRsvd, fcDstMode, fcVersion, fcSrcMode,
    getLsbD_packFc _ _ (show 3 < 16 by decide), getLsbD_packFc _ _ (show 4 < 16 by decide),
    getLsbD_packFc _ _ (show 5 < 16 by decide), getLsbD_packFc _ _ (show 6 < 16 by decide)]
  congr 1
  all_goals
    ext k hk
    rw [BitVec.getElem_extractLsb', getLsbD_packFc _ _ (by omega)]
    interval_cases k <;> simp [BitVec.getLsbD_eq_getElem]

@[simp] theorem packFc_fcFields (fc : Half) : packFc (fcType fc) (fcFields fc) = fc := by
  refine BitVec.eq_of_getLsbD_eq fun k hk => ?_
  rw [getLsbD_packFc _ _ hk]
  simp only [fcType, fcFields, fcSecurity, fcPending, fcAck, fcCompress, fcRsvd, fcDstMode, fcVersion, fcSrcMode]
  interval_cases k <;> simp

@[simp] theorem scLevel_packSc (lvl : BitVec 3) (f : ScFields) : scLevel (packSc lvl f) = lvl := by
  unfold scLevel
  ext k hk
  rw [BitVec.getElem_extractLsb', getLsbD_packSc _ _ (by omega)]
  simp [hk, BitVec.getLsbD_eq_getElem]

@[simp] theorem scFields_packSc (lvl : BitVec 3) (f : ScFields) : scFields (packSc lvl f) = f := by
  obtain ⟨a, b, c, d⟩ := f
  simp only [scFields, scKeyIdMode, scFcSuppress, scAsnInNonce, scRsvd,
    getLsbD_packSc _ _ (show 5 < 8 by decide), getLsbD_packSc _ _ (show 6 < 8 by decide),
    getLsbD_packSc _ _ (show 7 < 8 by decide)]
  congr 1
  ext k hk
  rw [BitVec.getElem_extractLsb', getLsbD_packSc _ _ (by omega)]
  interval_cases k <;> simp [BitVec.getLsbD_eq_getElem]

@[simp] theorem packSc_scFields (sc : Byte) : packSc (scLevel sc) (scFields sc) = sc := by
  refine BitVec.eq_of_getLsbD_eq fun k hk => ?_
  rw [getLsbD_packSc _ _ hk]
  simp only [scLevel, scFields, scKeyIdMode, scFcSuppress, scAsnInNonce, scRsvd]
  interval_cases k <;> simp

theorem getLsbD_fcWithRsvd (fc : Half) (r : BitVec 3) {k : Nat} (h : k < 16) :
    (fcWithRsvd fc r).getLsbD k = if 7 ≤ k ∧ k < 10 then r.getLsbD (k - 7) else fc.getLsbD k := by
  unfold fcWithRsvd
  change BitVec.getLsbD (w := 6 + 3 + 7) _ _ = _
  simp only [BitVec.getLsbD_append, BitVec.getLsbD_extractLsb']
  interval_cases k <;> simp

namespace Machine

/-! ## The register words -/

theorem Status.getLsbD_word (st : Status) {k : Nat} (h : k < 32) :
    st.word.getLsbD k =
      if k = 0 then st.busy else if k = 1 then st.err else if k = 2 then st.frameValid else if k = 3 then st.verified
      else if k = 4 then st.secured else if k < 8 then false else if k < 16 then st.code.value.getLsbD (k - 8)
      else if k < 24 then st.errVal.getLsbD (k - 16) else if k < 27 then st.secPhase.value.getLsbD (k - 24)
      else false := by
  unfold Status.word
  change BitVec.getLsbD (w := 5 + 3 + 8 + 8 + 3 + 1 + 1 + 1 + 1 + 1) _ _ = _
  simp only [BitVec.getLsbD_append, BitVec.getLsbD_ofBool]
  interval_cases k <;> simp

theorem HeaderRegs.getLsbD_ctrlWord (hd : HeaderRegs) {k : Nat} (h : k < 32) :
    hd.ctrlWord.getLsbD k =
      if k < 16 then hd.fc.getLsbD k else if k < 24 then hd.seq.getLsbD (k - 16) else if k = 24 then hd.auxPresent
      else false := by
  unfold HeaderRegs.ctrlWord
  change BitVec.getLsbD (w := 7 + 1 + 8 + 16) _ _ = _
  simp only [BitVec.getLsbD_append, BitVec.getLsbD_ofBool]
  interval_cases k <;> simp

theorem View.getLsbD_word (v : View) {k : Nat} (h : k < 32) :
    v.word.getLsbD k =
      if k < 7 then v.off.getLsbD k else if k = 7 then false else if k < 15 then v.len.getLsbD (k - 8) else false := by
  unfold View.word
  change BitVec.getLsbD (w := 17 + 7 + 1 + 7) _ _ = _
  simp only [BitVec.getLsbD_append]
  interval_cases k <;> simp

end Machine

end Sys2Proof
end

