-- ==== Sys2Proof/Laws/Codec.lean ====
section
/-! SUPPORT. The wire: byte order, and how the decoders read ahead of a cursor. -/

namespace Sys2Proof

/-! ## Byte order -/

@[simp] theorem toLE_length (n v : Nat) : (toLE n v).length = n := by
  induction n generalizing v with
  | zero => rfl
  | succ n ih => simp [toLE, ih]

/-- `fromLE` undoes `toLE` (spec/00_scope.md R10). -/
theorem fromLE_toLE (n v : Nat) : fromLE (toLE n v) = v % 256 ^ n := by
  induction n generalizing v with
  | zero => simp [toLE, fromLE, Nat.mod_one]
  | succ n ih =>
    rw [toLE, fromLE, ih, BitVec.toNat_ofNat, show 256 ^ (n + 1) = 256 * 256 ^ n by ring, Nat.mod_mul]

theorem ofLE_toLE (n : Nat) (v : BitVec (8 * n)) : ofLE (8 * n) (toLE n v.toNat) = v := by
  apply BitVec.eq_of_toNat_eq
  rw [ofLE, fromLE_toLE, BitVec.toNat_ofNat, show (256 : Nat) = 2 ^ 8 from rfl, ← Nat.pow_mul, Nat.mod_mod,
    Nat.mod_eq_of_lt v.isLt]

@[simp] theorem ofLE_le16 (v : Half) : ofLE 16 (le16 v) = v := ofLE_toLE 2 v
@[simp] theorem ofLE_le32 (v : Word) : ofLE 32 (le32 v) = v := ofLE_toLE 4 v
@[simp] theorem ofLE_le64 (v : BitVec 64) : ofLE 64 (le64 v) = v := ofLE_toLE 8 v
@[simp] theorem ofLE_singleton (b : Byte) : ofLE 8 [b] = b := by
  apply BitVec.eq_of_toNat_eq; simp [ofLE, fromLE]

@[simp] theorem le16_length (v : Half) : (le16 v).length = 2 := toLE_length ..
@[simp] theorem le32_length (v : Word) : (le32 v).length = 4 := toLE_length ..
@[simp] theorem le64_length (v : BitVec 64) : (le64 v).length = 8 := toLE_length ..

theorem fromLE_lt (bs : Bytes) : fromLE bs < 256 ^ bs.length := by
  induction bs with
  | nil => simp [fromLE]
  | cons b bs ih => have := b.isLt; simp [fromLE, Nat.pow_succ]; omega

/-- `toLE` undoes `fromLE` on as many bytes. -/
theorem toLE_fromLE (bs : Bytes) : toLE bs.length (fromLE bs) = bs := by
  induction bs with
  | nil => rfl
  | cons b bs ih =>
    have := b.isLt
    simp only [List.length_cons, toLE, fromLE]
    rw [show (b.toNat + 256 * fromLE bs) / 256 = fromLE bs by omega, ih]
    congr 1
    apply BitVec.eq_of_toNat_eq
    simp; omega

theorem toLE_ofLE (bs : Bytes) : toLE bs.length (ofLE (8 * bs.length) bs).toNat = bs := by
  rw [ofLE, BitVec.toNat_ofNat, Nat.mod_eq_of_lt, toLE_fromLE]
  have := fromLE_lt bs
  rwa [show (256 : Nat) = 2 ^ 8 from rfl, ← Nat.pow_mul] at this

theorem toLE_getElem? (n i v : Nat) (h : i < n) : (toLE n v)[i]? = some (BitVec.ofNat 8 (v / 256 ^ i)) := by
  induction n generalizing i v with
  | zero => omega
  | succ n ih =>
    cases i with
    | zero => simp [toLE]
    | succ i => rw [toLE, List.getElem?_cons_succ, ih i _ (by omega), Nat.div_div_eq_div_mul, Nat.pow_succ, Nat.mul_comm]

/-- Byte lane `i` of a word. -/
theorem toLE_lane (n i : Nat) (w : Word) (h : i < n) : (toLE n w.toNat)[i]? = some (w.extractLsb' (8*i) 8) := by
  rw [toLE_getElem? n i _ h]
  congr 1
  apply BitVec.eq_of_toNat_eq
  rw [BitVec.toNat_ofNat, BitVec.extractLsb'_toNat, Nat.shiftRight_eq_div_pow, Nat.pow_mul]

theorem fromLE_lane (bs : Bytes) (i : Nat) (h : i < bs.length) : fromLE bs / 256 ^ i % 256 = (bs[i]).toNat := by
  have := toLE_getElem? bs.length i (fromLE bs) h
  rw [toLE_fromLE, List.getElem?_eq_getElem h, Option.some.injEq] at this
  rw [this, BitVec.toNat_ofNat]

/-- Byte lane `i` of the word that up to four bytes make. -/
theorem ofLE_lane (bs : Bytes) (i : Nat) (h : i < bs.length) (h4 : bs.length ≤ 4) : (ofLE 32 bs).extractLsb' (8*i) 8 = bs[i] := by
  apply BitVec.eq_of_toNat_eq
  have hlt : fromLE bs < 2 ^ 32 := Nat.lt_of_lt_of_le (fromLE_lt bs) (by
    calc 256 ^ bs.length ≤ 256 ^ 4 := Nat.pow_le_pow_right (by omega) h4
      _ = 2 ^ 32 := by norm_num)
  rw [BitVec.extractLsb'_toNat, ofLE, BitVec.toNat_ofNat, Nat.mod_eq_of_lt hlt, Nat.shiftRight_eq_div_pow, Nat.pow_mul, ← fromLE_lane bs i h]

/-- A little-endian field is its tail above its first byte. -/
theorem ofLE_cons (n : Nat) (a : Byte) (bs : Bytes) (h : bs.length = n) :
    ofLE (8 * n + 8) (a :: bs) = ofLE (8 * n) bs ++ a := by
  apply BitVec.eq_of_toNat_eq
  have h1 := fromLE_lt bs
  have h2 : (256 : Nat) ^ bs.length = 2 ^ (8 * n) := by rw [h, show (256 : Nat) = 2 ^ 8 from rfl, ← Nat.pow_mul]
  have h3 := a.isLt
  rw [BitVec.toNat_append, ofLE, ofLE, BitVec.toNat_ofNat, BitVec.toNat_ofNat,
    Nat.mod_eq_of_lt (b := 2 ^ (8 * n)) (by omega), ← Nat.shiftLeft_add_eq_or_of_lt a.isLt, Nat.shiftLeft_eq, fromLE,
    Nat.mod_eq_of_lt]
  · omega
  · rw [Nat.pow_add]; omega

theorem ofLE_two (a b : Byte) : ofLE 16 [a, b] = b ++ a := by
  have h := ofLE_cons 1 a [b] rfl
  rw [ofLE_singleton] at h
  exact h

theorem ofLE_four (a b c d : Byte) : ofLE 32 [a, b, c, d] = d ++ c ++ b ++ a := by
  have h := ofLE_cons 3 a [b, c, d] rfl
  rw [ofLE_cons 2 b [c, d] rfl, ofLE_cons 1 c [d] rfl, ofLE_singleton] at h
  exact h

theorem ofLE_eight (a b c d e f g h : Byte) :
    ofLE 64 [a, b, c, d, e, f, g, h] = h ++ g ++ f ++ e ++ d ++ c ++ b ++ a := by
  have hh := ofLE_cons 7 a [b, c, d, e, f, g, h] rfl
  rw [ofLE_cons 6 b [c, d, e, f, g, h] rfl, ofLE_cons 5 c [d, e, f, g, h] rfl, ofLE_cons 4 d [e, f, g, h] rfl,
    ofLE_cons 3 e [f, g, h] rfl, ofLE_cons 2 f [g, h] rfl, ofLE_cons 1 g [h] rfl, ofLE_singleton] at hh
  exact hh

theorem le16_eq (v : Half) : le16 v = [v.extractLsb' 0 8, v.extractLsb' 8 8] := by
  simp only [le16, toLE, List.cons.injEq, and_true]
  refine ⟨?_, ?_⟩ <;> (apply BitVec.eq_of_toNat_eq; simp [Nat.shiftRight_eq_div_pow])

theorem le32_eq (v : Word) :
    le32 v = [v.extractLsb' 0 8, v.extractLsb' 8 8, v.extractLsb' 16 8, v.extractLsb' 24 8] := by
  simp only [le32, toLE, List.cons.injEq, and_true]
  refine ⟨?_, ?_, ?_, ?_⟩ <;> (apply BitVec.eq_of_toNat_eq; simp [Nat.shiftRight_eq_div_pow]; try omega)

theorem le64_eq (v : BitVec 64) :
    le64 v =
      [v.extractLsb' 0 8, v.extractLsb' 8 8, v.extractLsb' 16 8, v.extractLsb' 24 8, v.extractLsb' 32 8,
       v.extractLsb' 40 8, v.extractLsb' 48 8, v.extractLsb' 56 8] := by
  simp only [le64, toLE, List.cons.injEq, and_true]
  refine ⟨?_, ?_, ?_, ?_, ?_, ?_, ?_, ?_⟩ <;>
    (apply BitVec.eq_of_toNat_eq; simp [Nat.shiftRight_eq_div_pow]; try omega)

/-- The eight bytes of a double word are those of its low half and of its high half. -/
theorem le64_append (hi lo : Word) : le64 (hi ++ lo) = le32 lo ++ le32 hi := by
  rw [le64_eq, le32_eq, le32_eq]
  simp only [List.cons_append, List.nil_append, List.cons.injEq, and_true]
  refine ⟨?_, ?_, ?_, ?_, ?_, ?_, ?_, ?_⟩ <;>
  · refine BitVec.eq_of_getLsbD_eq fun k hk => ?_
    simp only [BitVec.getLsbD_extractLsb', BitVec.getLsbD_append]
    interval_cases k <;> simp

/-! ## The decoder on a word's own bytes -/

theorem decodeBytes_le32 (w : Word) : decodeBytes .cmd32 (le32 w) = .ok (decodeCmd w) := by
  conv_rhs => rw [← ofLE_le32 w]
  rfl

theorem decodeBytes_le16 (w : Half) : decodeBytes .fc16 (le16 w) = .ok (decodeFc w) := by
  conv_rhs => rw [← ofLE_le16 w]
  rfl

theorem decodeBytes_sc (sc : Byte) : decodeBytes .sc8 [sc] = .ok (decodeSc sc) := rfl

namespace Machine

/-! ## Stretches of a buffer -/

/-- A stretch of a buffer is defined with given bytes. -/
def Memory.holds (m : Memory) (b : Buffer) (i : Nat) (bs : Bytes) : Prop := m.readBuf b i bs.length = some bs

theorem Memory.readBuf_append {m : Memory} {b : Buffer} {i n k : Nat} {xs ys : Bytes}
    (hx : m.readBuf b i n = some xs) (hy : m.readBuf b (i + n) k = some ys) :
    m.readBuf b i (n + k) = some (xs ++ ys) := by
  obtain ⟨hl, hb, hr⟩ := (m.readBuf_eq_some b i n xs).1 hx
  obtain ⟨hl', hb', hr'⟩ := (m.readBuf_eq_some b (i + n) k ys).1 hy
  refine (m.readBuf_eq_some _ _ _ _).2 ⟨by simp [hl, hl'], by omega, fun j hj => ?_⟩
  by_cases h : j < n
  · rw [List.getElem?_append_left (by omega)]; exact hr j h
  · have := hr' (j - n) (by omega)
    rw [List.getElem?_append_right (by omega), hl, ← this]
    congr 1; omega

theorem Memory.holds_append {m : Memory} {b : Buffer} {i : Nat} {xs ys : Bytes} :
    m.holds b i (xs ++ ys) ↔ m.holds b i xs ∧ m.holds b (i + xs.length) ys := by
  unfold Memory.holds
  constructor
  · intro h
    have h1 := Memory.readBuf_slice h 0 xs.length (by simp)
    have h2 := Memory.readBuf_slice h xs.length ys.length (by simp)
    simp at h1 h2
    exact ⟨h1, h2⟩
  · rintro ⟨h1, h2⟩
    simpa using Memory.readBuf_append h1 h2

theorem readField_of_holds {m : Memory} {fin cur n : Nat} {bs : Bytes} (h : m.holds .fbuf cur bs)
    (hn : bs.length = n) (hf : cur + n ≤ fin) : readField m fin cur n = .ok bs :=
  readField_eq_ok.2 ⟨hf, hn ▸ h⟩

/-! ## Reading ahead of a cursor

A decoder that starts at a cursor and ends at `stop a` needs only the bytes between: with any end of the frame at or
after `stop a` it answers the same, with any end before it is NotEnoughBytes. -/

/-- What a decoder that reads ahead of `cur` does with the end of the frame. -/
structure ReadsAhead {α : Type} (cur : Nat) (stop : α → Nat) (p : Nat → Except Stop α) : Prop where
  spec : ∀ fin a, p fin = .ok a → cur ≤ stop a ∧ (cur ≤ fin → stop a ≤ fin) ∧ (∀ n, stop a ≤ n → p n = .ok a) ∧
    ∀ n, cur ≤ n → n < stop a → ∃ k : Byte, p n = .error (.raise .notEnoughBytes k) ∧ k.toNat ≤ n

theorem ReadsAhead.bind {α β : Type} {cur : Nat} {stop : α → Nat} {stop' : β → Nat} {p : Nat → Except Stop α}
    {q : α → Nat → Except Stop β} (hp : ReadsAhead cur stop p) (hq : ∀ a, ReadsAhead (stop a) stop' (q a)) :
    ReadsAhead cur stop' fun fin => p fin >>= fun a => q a fin := by
  refine ⟨fun fin b h => ?_⟩
  obtain ⟨a, ha, hb⟩ := Except.bind_eq_ok.1 h
  obtain ⟨p1, p2, p3, p4⟩ := hp.spec fin a ha
  obtain ⟨q1, q2, q3, q4⟩ := (hq a).spec fin b hb
  refine ⟨by omega, fun hc => q2 (p2 hc), fun n hn => ?_, fun n hc hn => ?_⟩
  · rw [p3 n (by omega)]; exact q3 n hn
  · by_cases hs : n < stop a
    · obtain ⟨k, hk, hkn⟩ := p4 n hc hs
      exact ⟨k, by rw [hk]; rfl, hkn⟩
    · obtain ⟨k, hk, hkn⟩ := q4 n (by omega) hn
      exact ⟨k, by rw [p3 n (by omega)]; exact hk, hkn⟩

theorem ReadsAhead.field (m : Memory) (cur n : Nat) :
    ReadsAhead cur (fun _ => cur + n) fun fin => readField m fin cur n := by
  refine ⟨fun fin bs h => ?_⟩
  obtain ⟨hf, hr⟩ := readField_eq_ok.1 h
  refine ⟨by omega, fun _ => hf, fun k hk => readField_eq_ok.2 ⟨hk, hr⟩, fun k hc hk => ?_⟩
  refine ⟨BitVec.ofNat 8 cur, readField_of_short hk, ?_⟩
  rw [BitVec.toNat_ofNat]; omega

/-- A computation that reads nothing more. -/
theorem ReadsAhead.const {α : Type} {cur : Nat} {stop : α → Nat} {x : Except Stop α}
    (h : ∀ a, x = .ok a → stop a = cur) : ReadsAhead cur stop fun _ => x := by
  refine ⟨fun fin a ha => ?_⟩
  have := h a ha
  refine ⟨by omega, fun _ => by omega, fun _ _ => ha, fun n _ _ => by omega⟩

theorem ReadsAhead.panDecode (m : Memory) (mode : BitVec 2) (role : Role) (pic : Bool) (other : Option Address)
    (cur : Nat) : ReadsAhead cur Prod.snd fun fin => panDecode m mode role pic other fin cur := by
  cases hi : panImplied role pic other mode with
  | false =>
    simp only [Machine.panDecode, hi]
    exact .bind (.field ..) fun _ => .const fun a ha => by cases ha; rfl
  | true =>
    cases other with
    | none =>
      simp only [Machine.panDecode, hi]
      exact .bind (.field ..) fun _ => .const fun a ha => by cases ha; rfl
    | some o =>
      simp only [Machine.panDecode, hi]
      exact .const fun a ha => by cases ha; rfl

theorem ReadsAhead.plainDecode (m : Memory) (mode : BitVec 2) (pan : Half) (cur : Nat) :
    ReadsAhead cur Prod.snd fun fin => plainDecode m mode pan fin cur := by
  unfold Machine.plainDecode
  split
  · exact .bind (.field ..) fun _ => .const fun a ha => by cases ha; rfl
  · exact .bind (.field ..) fun _ => .const fun a ha => by cases ha; rfl

theorem ReadsAhead.addressDecode (m : Memory) (mode : BitVec 2) (role : Role) (pic : Bool) (other : Option Address)
    (cur : Nat) : ReadsAhead cur Prod.snd fun fin => addressDecode m mode role pic other fin cur := by
  unfold Machine.addressDecode
  split
  · exact .const fun a ha => by cases ha; rfl
  · exact .bind (stop := fun _ => cur) (.const fun _ _ => rfl) fun _ =>
      .bind (.panDecode ..) fun _ => .plainDecode ..

theorem ReadsAhead.counterDecode (m : Memory) (ver : BitVec 2) (sc : Byte) (cur : Nat) :
    ReadsAhead cur Prod.snd fun fin => counterDecode m ver sc fin cur := by
  unfold Machine.counterDecode
  split
  · exact .bind (.field ..) fun _ => .const fun a ha => by cases ha; rfl
  · exact .const fun a ha => by cases ha; rfl

theorem ReadsAhead.auxDecode (m : Memory) (ver : BitVec 2) (cur : Nat) :
    ReadsAhead cur Prod.snd fun fin => auxDecode m ver fin cur :=
  .bind (.field ..) fun _ => .bind (.counterDecode ..) fun _ => .bind (.field ..) fun _ =>
    .const fun a ha => by cases ha; rfl

theorem ReadsAhead.auxPart (m : Memory) (fc : Half) (cur : Nat) :
    ReadsAhead cur Prod.snd fun fin => auxPart m fc fin cur := by
  unfold Machine.auxPart
  split
  · exact .bind (.auxDecode ..) fun _ => .const fun a ha => by cases ha; rfl
  · exact .const fun a ha => by cases ha; rfl

theorem ReadsAhead.fcDecode (m : Memory) : ReadsAhead 0 (fun _ => 2) fun fin => fcDecode m fin :=
  .bind (.field ..) fun _ => .bind (stop := fun _ => 2) (.const fun _ _ => rfl) fun _ => .const fun _ _ => rfl

/-- The PAN identifier is left out exactly where a present source follows a present destination under compression. -/
theorem panImplied_iff {role : Role} {pic : Bool} {other : Option Address} {mode : BitVec 2} :
    panImplied role pic other mode = true ↔ role = .src ∧ pic = true ∧ other.isSome = true ∧ mode ≠ 0 := by
  cases role <;> cases other <;> simp [panImplied, srcPanCompressed]

/-- What AddressDecode answers: the address of the mode, and the cursor after it. -/
theorem addressDecode_cases {m : Memory} {mode : BitVec 2} {role : Role} {pic : Bool} {other : Option Address}
    {fin cur c : Nat} {a : Option Address} (h : addressDecode m mode role pic other fin cur = .ok (a, c)) :
    (mode = 0 ∧ a = none ∧ c = cur) ∨
      (∃ p x, mode = 2 ∧ a = some (.short p x) ∧
        c = cur + (if panImplied role pic other mode then 0 else 2) + 2) ∨
      ∃ p x, mode = 3 ∧ a = some (.extended p x) ∧
        c = cur + (if panImplied role pic other mode then 0 else 2) + 8 := by
  rw [addressDecode] at h
  split at h
  · next h0 => cases h; exact .inl ⟨h0, rfl, rfl⟩
  next h0 =>
  obtain ⟨h1, h⟩ := Except.then_eq_ok.1 h
  simp only [demand_eq_ok, bne_iff_ne, ne_eq] at h1
  obtain ⟨⟨pan, c1⟩, hp, h⟩ := Except.bind_eq_ok.1 h
  have hc : c1 = cur + (if panImplied role pic other mode then 0 else 2) := by
    unfold panDecode at hp
    split at hp
    · next hi => cases hp; simp [hi]
    · next hi =>
      obtain ⟨bs, -, hb⟩ := Except.bind_eq_ok.1 hp
      cases hb
      rw [if_neg]
      intro hpi
      obtain ⟨o, ho⟩ := Option.isSome_iff_exists.1 (panImplied_iff.1 hpi).2.2.1
      exact hi o hpi ho
  simp only [plainDecode] at h
  split at h
  · next h2 =>
    obtain ⟨bs, -, hb⟩ := Except.bind_eq_ok.1 h
    cases hb
    exact .inr (.inl ⟨_, _, h2, rfl, by omega⟩)
  · next h2 =>
    obtain ⟨bs, -, hb⟩ := Except.bind_eq_ok.1 h
    cases hb
    refine .inr (.inr ⟨_, _, ?_, rfl, by omega⟩)
    have := mode.isLt
    have hn : ∀ k : BitVec 2, mode ≠ k → mode.toNat ≠ k.toNat := fun k hk h => hk (BitVec.eq_of_toNat_eq h)
    have e0 := hn 0 h0
    have e1 := hn 1 h1
    have e2 := hn 2 h2
    apply BitVec.eq_of_toNat_eq
    simp at e0 e1 e2 ⊢
    omega

/-- What AuxDecode answers: the header's length is AuxLen and the key identifier has KidLen bytes. -/
theorem auxDecode_cases {m : Memory} {ver : BitVec 2} {fin cur c : Nat} {a : Aux}
    (h : auxDecode m ver fin cur = .ok (a, c)) :
    c = cur + auxLen ver a.sc ∧ a.kid.length = kidLen (scKeyIdMode a.sc) ∧ a.fcv.isSome = fcPresent ver a.sc := by
  simp only [auxDecode, Except.bind_eq_ok] at h
  obtain ⟨b, hb, ⟨fcv, c1⟩, hc, kid, hk, hr⟩ := h
  cases hr
  have hl := Memory.readBuf_length (readField_eq_ok.1 hk).2
  simp only [counterDecode] at hc
  split at hc
  · next hp =>
    obtain ⟨bs, -, hbs⟩ := Except.bind_eq_ok.1 hc
    cases hbs
    exact ⟨by simp only [auxLen, hp, if_true]; omega, hl, by simp [hp]⟩
  · next hp => cases hc; exact ⟨by simp only [auxLen, hp]; simp; omega, hl, by simp [hp]⟩

/-- The four key identifier widths (R103). -/
theorem kidLen_eq (kim : BitVec 2) :
    kidLen kim = if kim = 0 then 0 else if kim = 1 then 1 else if kim = 2 then 5 else 9 := by
  revert kim; decide

theorem kidLen_le (kim : BitVec 2) : kidLen kim ≤ 9 := by
  unfold kidLen; split <;> omega

theorem auxLen_le (ver : BitVec 2) (sc : Byte) : 1 ≤ auxLen ver sc ∧ auxLen ver sc ≤ 14 := by
  have := kidLen_le (scKeyIdMode sc)
  unfold auxLen; split <;> omega

/-- A header ends within the frame. -/
theorem headerDecode_le {m : Memory} {fin hl : Nat} {h : Hdr} (hd : headerDecode m fin = .ok (h, hl)) :
    3 ≤ hl ∧ hl ≤ fin := by
  simp only [headerDecode, Except.bind_eq_ok] at hd
  obtain ⟨fc, hfc, sq, hsq, ⟨dst, c1⟩, hdst, ⟨src, c2⟩, hsrc, ⟨aux, c3⟩, haux, hret⟩ := hd
  cases hret
  have h1 := (readField_eq_ok.1 hsq).1
  have h2 := (ReadsAhead.addressDecode ..).spec _ _ hdst
  have h3 := (ReadsAhead.addressDecode ..).spec _ _ hsrc
  have h4 := (ReadsAhead.auxPart ..).spec _ _ haux
  simp only at h2 h3 h4
  exact ⟨by omega, h4.2.1 (h3.2.1 (h2.2.1 h1))⟩

/-- Every address mode but 1 is a mode of an address or of none. -/
theorem mode_cases {x : BitVec 2} (h : x ≠ 1) : x = 0 ∨ x = 2 ∨ x = 3 := by
  revert x; decide

theorem auxPart_cases {m : Memory} {fc : Half} {fin cur c : Nat} {a : Option Aux}
    (h : auxPart m fc fin cur = .ok (a, c)) :
    (fcSecurity fc = true ∧ ∃ x, a = some x ∧ auxDecode m (fcVersion fc) fin cur = .ok (x, c)) ∨
      (fcSecurity fc = false ∧ a = none ∧ c = cur) := by
  rw [auxPart] at h
  split at h
  · next hs =>
    obtain ⟨⟨x, c'⟩, hx, hr⟩ := Except.bind_eq_ok.1 h
    cases hr; exact .inl ⟨hs, x, rfl, hx⟩
  · next hs => cases h; exact .inr ⟨by simpa using hs, rfl, rfl⟩

/-- The parts of a header that was decoded. -/
theorem headerDecode_parts {m : Memory} {fin hl : Nat} {h : Hdr} (hd : headerDecode m fin = .ok (h, hl)) :
    ∃ c1 c2, fcCheck h.fc = .ok () ∧
      addressDecode m (fcDstMode h.fc) .dst (fcCompress h.fc) none fin 3 = .ok (h.dst, c1) ∧
      addressDecode m (fcSrcMode h.fc) .src (fcCompress h.fc) h.dst fin c1 = .ok (h.src, c2) ∧
      auxPart m h.fc fin c2 = .ok (h.aux, hl) := by
  simp only [headerDecode, Except.bind_eq_ok] at hd
  obtain ⟨fc, hfc, sq, hsq, ⟨dst, c1⟩, hdst, ⟨src, c2⟩, hsrc, ⟨aux, c3⟩, haux, hret⟩ := hd
  cases hret
  refine ⟨c1, c2, ?_, hdst, hsrc, haux⟩
  simp only [fcDecode, Except.bind_eq_ok] at hfc
  obtain ⟨bs, -, u, hu, hfc⟩ := hfc
  cases hfc; exact hu

/-- The length of an encoded address. -/
theorem addressEncode_length (addr : Option Address) (role : Role) (pic : Bool) (other : Option Address) :
    (addressEncode addr role pic other).length =
      match addr with
      | none => 0
      | some (.short _ _) => (if panImplied role pic other 1 then 0 else 2) + 2
      | some (.extended _ _) => (if panImplied role pic other 1 then 0 else 2) + 8 := by
  rcases addr with - | ⟨p, x⟩ | ⟨p, x⟩
  · rfl
  all_goals simp only [addressEncode, List.length_append, le16_length, le64_length]; split <;> simp

/-- The length of an encoded auxiliary header is AuxLen (R146). -/
theorem auxEncode_length (h : HeaderRegs) : (auxEncode h).length = h.auxSize := by
  have := kidLen_le (scKeyIdMode h.auxCtrl)
  have hk : h.kidUsed.length = kidLen (scKeyIdMode h.auxCtrl) := by
    simp [HeaderRegs.kidUsed, HeaderRegs.kid]; omega
  simp only [auxEncode, HeaderRegs.auxSize, auxLen, List.length_append, List.length_singleton, hk]
  split <;> simp

theorem fcEncode_length (fc : Half) : (fcEncode fc).length = 2 := le16_length _

/-! ## The registers of a decoded header -/

theorem padKid_eq (bs : Bytes) (h : bs.length ≤ 9) : padKid bs = bs ++ List.replicate (9 - bs.length) 0 := by
  rw [padKid, List.take_append, List.take_of_length_le h, List.take_replicate, Nat.min_eq_left (by omega)]

theorem padKid_length (bs : Bytes) : (padKid bs).length = 9 := by simp [padKid]

/-- Three key identifier registers hold any nine bytes. -/
theorem kid_of_nine {h : HeaderRegs} {k : Bytes} (hk : k.length = 9) (h0 : h.kid0 = ofLE 32 (k.take 4))
    (h1 : h.kid1 = ofLE 32 ((k.drop 4).take 4)) (h2 : h.kid2 = ofLE 8 (k.drop 8)) : h.kid = k := by
  have e0 : le32 (ofLE 32 (k.take 4)) = k.take 4 := by
    have := toLE_ofLE (k.take 4)
    rw [show (k.take 4).length = 4 by simp; omega] at this; exact this
  have e1 : le32 (ofLE 32 ((k.drop 4).take 4)) = (k.drop 4).take 4 := by
    have := toLE_ofLE ((k.drop 4).take 4)
    rw [show ((k.drop 4).take 4).length = 4 by simp; omega] at this; exact this
  obtain ⟨b, hb⟩ : ∃ b, k.drop 8 = [b] := List.length_eq_one_iff.1 (by simp; omega)
  rw [HeaderRegs.kid, h0, h1, h2, e0, e1, hb, ofLE_singleton, ← hb, List.append_assoc,
    show k.drop 8 = (k.drop 4).drop 4 by simp, List.take_append_drop, List.take_append_drop]

/-- The key identifier registers after a commit hold the decoded key identifier, filled up with zeros (R148). -/
theorem headerCommit_kid (h : Hdr) : (headerCommit h).kid = h.auxRegs.2.2 :=
  kid_of_nine (by unfold Hdr.auxRegs; split <;> exact padKid_length _) rfl rfl rfl

/-- The two address registers hold an extended address. -/
theorem extended_halves (a : BitVec 64) : a.extractLsb' 32 32 ++ a.extractLsb' 0 32 = a := by
  refine BitVec.eq_of_getLsbD_eq fun k hk => ?_
  rw [BitVec.getLsbD_append]
  simp only [BitVec.getLsbD_extractLsb']
  split
  · next h => simp [h]
  · next h => rw [show 32 + (k - 32) = k by omega]; simp; omega

end Machine

end Sys2Proof
end

