-- ==== Sys2Proof/Laws/Definedness.lean ====
section
/-! SUPPORT. Which bytes of FBUF the decoders read: memory beyond them does not matter, and an undefined one among them
is UNINIT_READ (spec/10_state.md R55). -/

namespace Sys2Proof.Machine

/-- Every defined byte of `m` has the same value in `m'`. -/
def Memory.Extends (m m' : Memory) : Prop := ∀ a b, m.read a = some b → m'.read a = some b

/-- Byte `i` of FBUF is undefined. -/
def Memory.gap (m : Memory) (i : Nat) : Prop := m.read (0x100 + i) = none

theorem Memory.readBuf_of_gap {m : Memory} {i n k : Nat} (h : m.gap k) (h1 : i ≤ k) (h2 : k < i + n) :
    m.readBuf .fbuf i n = none := by
  cases hr : m.readBuf .fbuf i n with
  | none => rfl
  | some bs =>
    obtain ⟨hl, -, hv⟩ := (m.readBuf_eq_some ..).1 hr
    have hk := hv (k - i) (by omega)
    rw [show Buffer.fbuf.base + i + (k - i) = 0x100 + k by simp only [Buffer.base]; omega, show m.read _ = none from h,
      eq_comm, List.getElem?_eq_none_iff] at hk
    omega

/-- A stretch without a gap reads the same in every extension. -/
theorem Memory.Extends.agree {m m' : Memory} (h : m.Extends m') {i : Nat} (hg : ¬m.gap i) :
    m'.read (0x100 + i) = m.read (0x100 + i) := by
  cases hr : m.read (0x100 + i) with
  | none => exact absurd hr hg
  | some b => exact h _ _ hr

/-- A decoder that starts at `cur` reads exactly the bytes up to `stop a` where it answers `a`, and the bytes before
the offset it reports where it answers NotEnoughBytes: other memory does not change the answer, and an undefined byte
among them is UNINIT_READ. -/
structure ReadsBytes {α : Type} (cur : Nat) (stop : α → Nat) (p : Memory → Nat → Except Stop α) : Prop where
  same : ∀ m m' fin a, p m fin = .ok a →
    (∀ i, cur ≤ i → i < stop a → m'.read (0x100 + i) = m.read (0x100 + i)) → p m' fin = .ok a
  gap : ∀ m m' fin a i, m.Extends m' → p m' fin = .ok a → cur ≤ i → i < stop a → m.gap i →
    p m fin = .error (.fault .uninitRead)
  short : ∀ m m' fin (c : Byte) i, m.Extends m' → p m' fin = .error (.raise .notEnoughBytes c) → cur ≤ i →
    i < c.toNat → m.gap i → p m fin = .error (.fault .uninitRead)

/-- In an extension a decoder answers what it answers without, unless it meets a gap. -/
theorem ReadsBytes.back {α : Type} {cur : Nat} {stop : α → Nat} {p : Memory → Nat → Except Stop α}
    (h : ReadsBytes cur stop p) {m m' : Memory} {fin : Nat} {a : α} (he : m.Extends m') (ha : p m' fin = .ok a) :
    p m fin = .ok a ∨ p m fin = .error (.fault .uninitRead) := by
  by_cases hg : ∃ i, cur ≤ i ∧ i < stop a ∧ m.gap i
  · obtain ⟨i, h1, h2, h3⟩ := hg
    exact .inr (h.gap m m' fin a i he ha h1 h2 h3)
  · exact .inl (h.same m' m fin a ha fun i h1 h2 => (he.agree fun hi => hg ⟨i, h1, h2, hi⟩).symm)

theorem ReadsBytes.bind {α β : Type} {cur : Nat} {stop : α → Nat} {stop' : β → Nat} {p : Memory → Nat → Except Stop α}
    {q : α → Memory → Nat → Except Stop β} (hp : ReadsBytes cur stop p) (hq : ∀ a, ReadsBytes (stop a) stop' (q a))
    (hmono : ∀ a m fin b, p m fin = .ok a → q a m fin = .ok b → cur ≤ stop a ∧ stop a ≤ stop' b) :
    ReadsBytes cur stop' fun m fin => p m fin >>= fun a => q a m fin := by
  refine ⟨fun m m' fin b h hs => ?_, fun m m' fin b i he h h1 h2 hg => ?_, fun m m' fin c i he h h1 h2 hg => ?_⟩
  · obtain ⟨a, ha, hb⟩ := Except.bind_eq_ok.1 h
    obtain ⟨l1, l2⟩ := hmono _ _ _ _ ha hb
    rw [hp.same m m' fin a ha fun i h1 h2 => hs i h1 (by omega)]
    exact (hq a).same m m' fin b hb fun i h1 h2 => hs i (by omega) h2
  · obtain ⟨a, ha, hb⟩ := Except.bind_eq_ok.1 h
    rcases hp.back he ha with hm | hm
    · by_cases hi : i < stop a
      · rw [hp.gap m m' fin a i he ha h1 hi hg]; rfl
      · rw [hm]; exact (hq a).gap m m' fin b i he hb (by omega) h2 hg
    · rw [hm]; rfl
  · cases hx : p m' fin with
    | error e =>
      rw [hx] at h
      cases h
      rw [hp.short m m' fin c i he hx h1 h2 hg]; rfl
    | ok a =>
      rw [hx] at h
      rcases hp.back he hx with hm | hm
      · by_cases hi : i < stop a
        · rw [hp.gap m m' fin a i he hx h1 hi hg]; rfl
        · rw [hm]; exact (hq a).short m m' fin c i he h (by omega) h2 hg
      · rw [hm]; rfl

theorem ReadsBytes.field (cur n : Nat) : ReadsBytes cur (fun _ => cur + n) fun m fin => readField m fin cur n := by
  refine ⟨fun m m' fin bs h hs => ?_, fun m m' fin bs i he h h1 h2 hg => ?_, fun m m' fin c i he h h1 h2 hg => ?_⟩
  · obtain ⟨hf, hr⟩ := readField_eq_ok.1 h
    exact readField_eq_ok.2 ⟨hf, by
      rw [Memory.readBuf_congr fun k hk => ?_]
      · exact hr
      · have := hs (cur + k) (by omega) (by omega)
        rwa [← Nat.add_assoc] at this⟩
  · rw [readField, demand_bind, if_pos (by simpa using (readField_eq_ok.1 h).1), readFbuf,
      Memory.readBuf_of_gap hg h1 h2]
  · exfalso
    by_cases hf : cur + n ≤ fin
    · rw [readField, demand_bind, if_pos (by simpa using hf), readFbuf] at h
      split at h <;> cases h
    · rw [readField_of_short (by omega)] at h
      cases h
      rw [BitVec.toNat_ofNat] at h2
      omega

/-- A computation that reads nothing more and never answers NotEnoughBytes. -/
theorem ReadsBytes.const {α : Type} {cur : Nat} {stop : α → Nat} {x : Except Stop α}
    (h : ∀ a, x = .ok a → stop a = cur) (hx : ∀ c, x ≠ .error (.raise .notEnoughBytes c)) :
    ReadsBytes cur stop fun _ _ => x :=
  ⟨fun _ _ _ _ ha _ => ha, fun _ _ _ a i _ ha h1 h2 _ => by have := h a ha; omega,
    fun _ _ _ c _ _ he _ _ _ => absurd he (hx c)⟩

theorem ReadsBytes.panDecode (mode : BitVec 2) (role : Role) (pic : Bool) (other : Option Address) (cur : Nat) :
    ReadsBytes cur Prod.snd fun m fin => panDecode m mode role pic other fin cur := by
  have hread : ReadsBytes cur Prod.snd fun m fin => do
      let bs ← readField m fin cur 2
      return ((ofLE 16 bs : Half), cur + 2) :=
    .bind (.field ..) (fun _ => .const (fun a ha => by cases ha; rfl) nofun) fun a m fin b _ hb => by
      cases hb; exact ⟨Nat.le_add_right .., Nat.le_refl _⟩
  cases hi : panImplied role pic other mode with
  | false => simpa only [Machine.panDecode, hi] using hread
  | true =>
    cases other with
    | none => simpa only [Machine.panDecode, hi] using hread
    | some o =>
      simp only [Machine.panDecode, hi]
      exact .const (fun a ha => by cases ha; rfl) nofun

theorem ReadsBytes.plainDecode (mode : BitVec 2) (pan : Half) (cur : Nat) :
    ReadsBytes cur Prod.snd fun m fin => plainDecode m mode pan fin cur := by
  unfold Machine.plainDecode
  split <;>
  · exact .bind (.field ..) (fun _ => .const (fun a ha => by cases ha; rfl) nofun) fun a m fin b _ hb => by
      cases hb; exact ⟨Nat.le_add_right .., Nat.le_refl _⟩

theorem demand_ne {ok : Bool} {c d : Code} {v w : Byte} (h : c ≠ d) : demand ok c v ≠ .error (.raise d w) := by
  unfold demand
  split
  · nofun
  · intro e; injection e with e; injection e with e; exact h e

theorem ReadsBytes.addressDecode (mode : BitVec 2) (role : Role) (pic : Bool) (other : Option Address) (cur : Nat) :
    ReadsBytes cur Prod.snd fun m fin => addressDecode m mode role pic other fin cur := by
  unfold Machine.addressDecode
  split
  · exact .const (fun a ha => by cases ha; rfl) nofun
  · refine .bind (stop := fun _ => cur) (.const (fun _ _ => rfl) fun _ => demand_ne (by decide)) (fun _ =>
      .bind (ReadsBytes.panDecode ..) (fun _ => .plainDecode ..) fun a m fin b ha hb =>
        ⟨((ReadsAhead.panDecode ..).spec _ _ ha).1, ((ReadsAhead.plainDecode ..).spec _ _ hb).1⟩)
      fun _ m fin b _ hb => ⟨Nat.le_refl _, ?_⟩
    obtain ⟨x, hx, hy⟩ := Except.bind_eq_ok.1 hb
    exact Nat.le_trans ((ReadsAhead.panDecode ..).spec _ _ hx).1 ((ReadsAhead.plainDecode ..).spec _ _ hy).1

theorem ReadsBytes.counterDecode (ver : BitVec 2) (sc : Byte) (cur : Nat) :
    ReadsBytes cur Prod.snd fun m fin => counterDecode m ver sc fin cur := by
  unfold Machine.counterDecode
  split
  · exact .bind (.field ..) (fun _ => .const (fun a ha => by cases ha; rfl) nofun) fun a m fin b _ hb => by
      cases hb; exact ⟨Nat.le_add_right .., Nat.le_refl _⟩
  · exact .const (fun a ha => by cases ha; rfl) nofun

theorem ReadsBytes.auxDecode (ver : BitVec 2) (cur : Nat) :
    ReadsBytes cur Prod.snd fun m fin => auxDecode m ver fin cur := by
  unfold Machine.auxDecode
  refine .bind (.field cur 1) (fun b => .bind (ReadsBytes.counterDecode ver (ofLE 8 b) (cur + 1)) (fun x =>
    .bind (.field x.2 (kidLen (scKeyIdMode (ofLE 8 b)))) (fun kid => .const (fun a ha => by cases ha; rfl) nofun)
      fun a m fin r _ hr => ?_) fun x m fin r hx hr => ?_) fun b m fin r _ hr => ?_
  · cases hr; exact ⟨Nat.le_add_right .., Nat.le_refl _⟩
  · obtain ⟨kid, -, hr⟩ := Except.bind_eq_ok.1 hr
    cases hr
    exact ⟨((ReadsAhead.counterDecode ..).spec _ _ hx).1, Nat.le_add_right ..⟩
  · obtain ⟨x, hx, hr⟩ := Except.bind_eq_ok.1 hr
    obtain ⟨kid, -, hr⟩ := Except.bind_eq_ok.1 hr
    cases hr
    have := ((ReadsAhead.counterDecode ..).spec _ _ hx).1
    exact ⟨Nat.le_add_right .., Nat.le_trans this (Nat.le_add_right ..)⟩

theorem ReadsBytes.auxPart (fc : Half) (cur : Nat) :
    ReadsBytes cur Prod.snd fun m fin => auxPart m fc fin cur := by
  unfold Machine.auxPart
  split
  · exact .bind (ReadsBytes.auxDecode ..) (fun _ => .const (fun a ha => by cases ha; rfl) nofun) fun a m fin b ha hb => by
      cases hb; exact ⟨((ReadsAhead.auxDecode ..).spec _ _ ha).1, Nat.le_refl _⟩
  · exact .const (fun a ha => by cases ha; rfl) nofun

theorem fcCheck_ne (fc : Half) (c : Byte) : fcCheck fc ≠ .error (.raise .notEnoughBytes c) := by
  intro h
  simp only [fcCheck, demand_bind] at h
  split at h
  · split at h
    · split at h
      · exact demand_ne (by decide) h
      · cases h
    · cases h
  · cases h

theorem ReadsBytes.fcDecode : ReadsBytes 0 (fun _ => 2) fun m fin => fcDecode m fin := by
  unfold Machine.fcDecode
  exact .bind (.field 0 2) (fun b => .bind (stop := fun _ => 2) (.const (fun _ _ => rfl) (fcCheck_ne _))
    (fun _ => .const (fun _ _ => rfl) nofun) fun _ _ _ _ _ _ => ⟨Nat.le_refl _, Nat.le_refl _⟩)
    fun _ _ _ _ _ _ => ⟨Nat.zero_le _, Nat.le_refl _⟩

/-- A header is read from its own bytes alone. -/
theorem ReadsBytes.headerDecode : ReadsBytes 0 Prod.snd fun m fin => headerDecode m fin := by
  unfold Machine.headerDecode
  have hsrc (fc : Half) (dst : Option Address × Nat) := fun (m : Memory) (fin : Nat) (x : Option Address × Nat)
    (y : Option Aux × Nat) (hx : Machine.addressDecode m (fcSrcMode fc) .src (fcCompress fc) dst.1 fin dst.2 = .ok x)
    (hy : Machine.auxPart m fc fin x.2 = .ok y) =>
      And.intro ((ReadsAhead.addressDecode ..).spec _ _ hx).1 ((ReadsAhead.auxPart ..).spec _ _ hy).1
  refine .bind .fcDecode (fun fc => .bind (.field 2 1) (fun sq => .bind (.addressDecode _ _ _ _ 3) (fun dst =>
    .bind (.addressDecode _ _ _ _ dst.2) (fun src => .bind (.auxPart fc src.2) (fun aux =>
      .const (fun a ha => by cases ha; rfl) nofun) ?_) ?_) ?_) ?_) ?_
  · intro aux m fin b ha hb
    cases hb; exact ⟨((ReadsAhead.auxPart ..).spec _ _ ha).1, Nat.le_refl _⟩
  · intro src m fin b hx hb
    obtain ⟨y, hy, hb⟩ := Except.bind_eq_ok.1 hb
    cases hb; exact hsrc fc dst m fin src y hx hy
  · intro dst m fin b hd hb
    obtain ⟨x, hx, hb⟩ := Except.bind_eq_ok.1 hb
    obtain ⟨y, hy, hb⟩ := Except.bind_eq_ok.1 hb
    cases hb
    have := hsrc fc dst m fin x y hx hy
    exact ⟨((ReadsAhead.addressDecode ..).spec _ _ hd).1, Nat.le_trans this.1 this.2⟩
  · intro sq m fin b _ hb
    obtain ⟨dst, hd, hb⟩ := Except.bind_eq_ok.1 hb
    obtain ⟨x, hx, hb⟩ := Except.bind_eq_ok.1 hb
    obtain ⟨y, hy, hb⟩ := Except.bind_eq_ok.1 hb
    cases hb
    have := hsrc fc dst m fin x y hx hy
    have h3 := ((ReadsAhead.addressDecode ..).spec _ _ hd).1
    exact ⟨by omega, Nat.le_trans h3 (Nat.le_trans this.1 this.2)⟩
  · intro fc m fin b hf hb
    refine ⟨Nat.zero_le _, ?_⟩
    obtain ⟨sq, hs, hb'⟩ := Except.bind_eq_ok.1 hb
    have := headerDecode_le (m := m) (fin := fin) (hl := b.2) (h := b.1) (by
      unfold Machine.headerDecode; rw [hf]; exact hb)
    omega

end Sys2Proof.Machine
end

