-- ==== Sys2Proof/Laws/Step.lean ====
section
/-! SUPPORT. What one turn of the host can do, and what a step is, said once. -/

namespace Sys2Proof.Machine

/-! ## Host accesses -/

/-- A buffer read changes only what the host has read and how many free bytes were drawn. -/
theorem lanesRead_state (off n : Nat) (s : State) : ∃ k, (lanesRead off n s).2 = { s with draws := k } := by
  induction n generalizing off s with
  | zero => exact ⟨s.draws, rfl⟩
  | succ n ih =>
    rw [lanesRead]
    obtain ⟨k, hk⟩ := ih (off + 1) (laneRead off s).2
    have hl : ∃ j, (laneRead off s).2 = { s with draws := j } := by
      rw [laneRead]
      split
      · split
        · exact ⟨s.draws, rfl⟩
        · exact ⟨s.draws + 1, rfl⟩
      · exact ⟨s.draws, rfl⟩
    obtain ⟨j, hj⟩ := hl
    exact ⟨k, by rw [hk, hj]⟩

/-- One lane: the defined byte, or 0 at a reserved offset. -/
theorem laneRead_defined (t : State) (a : Nat) :
    (isBufferOffset a = true → ∀ b, t.mem.read a = some b → laneRead a t = (b, t)) ∧
    (isBufferOffset a = false → laneRead a t = (0, t)) := by
  constructor
  · intro h b hb; simp [laneRead, h, hb]
  · intro h; simp [laneRead, h]

/-- Lane `i` of a buffer read, up to the draws of the lanes before it. -/
theorem lanesRead_lane (s : State) (off n i : Nat) (h : i < n) :
    ∃ k, (lanesRead off n s).1[i]? = some (laneRead (off + i) { s with draws := k }).1 := by
  induction n generalizing off i s with
  | zero => omega
  | succ n ih =>
    rw [lanesRead]
    cases i with
    | zero => exact ⟨s.draws, rfl⟩
    | succ i =>
      obtain ⟨k0, h0⟩ := lanesRead_state off 1 s
      have h1 : (laneRead off s).2 = { s with draws := k0 } := h0
      obtain ⟨k, hk⟩ := ih { s with draws := k0 } (off + 1) i (by omega)
      refine ⟨k, ?_⟩
      rw [h1, List.getElem?_cons_succ, hk, show off + 1 + i = off + (i + 1) by omega]

theorem lanesRead_length (s : State) (off n : Nat) : (lanesRead off n s).1.length = n := by
  induction n generalizing off s with
  | zero => rfl
  | succ n ih => simp [lanesRead, ih]

/-- A host read that is answered changes only what the host has read and how many free bytes were drawn. -/
theorem hostRead_cases {off width : Nat} {s t : State} (h : hostRead off width s = .next t) :
    ∃ d k, t = { s with readData := d, draws := k } := by
  rw [hostRead] at h
  split at h
  · cases h
  · split at h
    · cases h
    · split at h
      · cases h; exact ⟨_, s.draws, rfl⟩
      · cases h
        obtain ⟨k, hk⟩ := lanesRead_state off (width / 8) s
        exact ⟨_, k, by rw [bufRead, hk]⟩

/-- A host write that starts a command leaves the state to it. -/
theorem hostWrite_run {off width : Nat} {data : Word} {s s' : State} {i : Instr}
    (h : hostWrite off width data s = .run i s') : i = decodeCmd data ∧ s' = s ∧ off = 0 := by
  rw [hostWrite] at h
  split at h
  · cases h
  · split at h
    · cases h
    · split at h
      · split at h
        · next hr =>
          cases h
          refine ⟨rfl, rfl, ?_⟩
          have := List.find?_some hr
          exact (eq_of_beq this).symm
        · cases h
        · cases h
      · cases h

/-- A host write that is over is a register write, a buffer write, or a write to a reserved offset. -/
theorem hostWrite_over {off width : Nat} {data : Word} {s t : State}
    (h : hostWrite off width data s = .over (.next t)) :
    t = s ∨ (∃ r, regAt off = some r ∧ off < 0x100 ∧ t = regWrite r data s) ∨
      (0x100 ≤ off ∧ t = bufWrite off (width / 8) data s) := by
  rw [hostWrite] at h
  split at h
  · cases h
  · split at h
    · cases h
    · split at h
      · next hoff =>
        split at h
        · cases h
        · next hr => cases h; exact .inr (.inl ⟨_, hr, hoff, rfl⟩)
        · cases h; exact .inl rfl
      · next hoff => cases h; exact .inr (.inr ⟨by omega, rfl⟩)

/-- The register found at an offset is the register with that offset. -/
theorem regAt_offset {off : Nat} {r : Reg} (h : regAt off = some r) : r.offset = off := by
  simpa using List.find?_some h

theorem regAt_of_offset (r : Reg) : regAt r.offset = some r := by cases r <;> rfl

theorem Reg.offset_lt (r : Reg) : r.offset < 0x100 ∧ r.offset % 4 = 0 := by cases r <;> decide

/-! ## Commands -/

/-- The command words decode to the five commands and to ILLEGAL. -/
theorem decodeCmd_cases (w : Word) :
    decodeCmd w = .nop ∨ decodeCmd w = .decode ∨ decodeCmd w = .encode ∨ decodeCmd w = .secure ∨
      decodeCmd w = .verify ∨ decodeCmd w = .illegal w := by
  rw [decodeCmd]
  split <;> simp

/-- Every instruction is a row of a dispatch or one of the commands. -/
theorem row_or_command (i : Instr) :
    i.format ≠ .cmd32 ∨ i = .nop ∨ i = .decode ∨ i = .encode ∨ i = .secure ∨ i = .verify ∨ ∃ w, i = .illegal w := by
  cases i <;> simp [Instr.format]

/-- The row of a pending dispatch is no command. -/
theorem Engine.pendingRow_format {e : Engine} {i : Instr} (h : e.pendingRow = some i) : i.format ≠ .cmd32 := by
  cases e <;> simp [Engine.pendingRow] at h <;> subst h
  · rw [decodeFc]; split <;> simp [Instr.format]
  · rw [decodeFc]; split <;> simp [Instr.format]
  · rw [decodeSc]; split <;> simp [Instr.format]
  · rw [decodeSc]; split <;> simp [Instr.format]

/-! ## What a host write leaves alone -/

theorem regWrite_keeps (r : Reg) (w : Word) (s : State) :
    (regWrite r w s).platform = s.platform ∧ (regWrite r w s).host = s.host ∧ (regWrite r w s).ports = s.ports ∧
      (regWrite r w s).mem = s.mem ∧ (regWrite r w s).engine = s.engine ∧
      (regWrite r w s).status.busy = s.status.busy := by
  cases r <;> exact ⟨rfl, rfl, rfl, rfl, rfl, rfl⟩

theorem regWrite_frameCounter {r : Reg} (w : Word) (s : State) (h : r ≠ .frameCounter) :
    (regWrite r w s).frameCounter = s.frameCounter := by
  cases r <;> first | rfl | exact absurd rfl h

theorem bufWrite_keeps (off n : Nat) (w : Word) (s : State) :
    (bufWrite off n w s).platform = s.platform ∧ (bufWrite off n w s).host = s.host ∧
      (bufWrite off n w s).ports = s.ports ∧ (bufWrite off n w s).frameCounter = s.frameCounter ∧
      (bufWrite off n w s).engine = s.engine ∧ (bufWrite off n w s).status.busy = s.status.busy := by
  unfold bufWrite
  cases covers .fbuf off n <;> cases covers .pbuf off n <;> exact ⟨rfl, rfl, rfl, rfl, rfl, rfl⟩

/-- A register write leaves every other register, STATUS apart (spec/20_memory.md R61, R69). -/
theorem regWrite_other {r r' : Reg} (w : Word) (s : State) (h : r' ≠ r) (hs : r' ≠ .status) :
    regRead r' (regWrite r w s) = regRead r' s := by
  cases r' <;> first | exact absurd rfl hs | (cases r <;> first | exact absurd rfl h | rfl)

theorem regWrite_reads (r : Reg) (w : Word) (s : State) :
    (regWrite r w s).readData = s.readData ∧ (regWrite r w s).draws = s.draws := by
  cases r <;> exact ⟨rfl, rfl⟩

/-- A buffer write leaves every register, STATUS apart. -/
theorem bufWrite_other {r : Reg} (off n : Nat) (w : Word) (s : State) (hs : r ≠ .status) :
    regRead r (bufWrite off n w s) = regRead r s := by
  unfold bufWrite
  cases covers .fbuf off n <;> cases covers .pbuf off n <;> cases r <;> first | exact absurd rfl hs | rfl

theorem bufWrite_reads (off n : Nat) (w : Word) (s : State) :
    (bufWrite off n w s).readData = s.readData ∧ (bufWrite off n w s).draws = s.draws := by
  unfold bufWrite
  cases covers .fbuf off n <;> cases covers .pbuf off n <;> exact ⟨rfl, rfl⟩

theorem bufWrite_mem (off n : Nat) (w : Word) (s : State) :
    (bufWrite off n w s).mem = lanesWrite s.mem off (toLE n w.toNat) := by
  unfold bufWrite
  cases covers .fbuf off n <;> cases covers .pbuf off n <;> rfl

/-- A buffer write leaves every byte outside its own. -/
theorem bufWrite_read {off n a : Nat} (w : Word) (s : State) (h : a < off ∨ off + n ≤ a) :
    (bufWrite off n w s).mem.read a = s.mem.read a := by
  rw [bufWrite_mem, read_lanesWrite, if_neg]
  rw [toLE_length]
  rintro ⟨h1, h2, -⟩
  omega

/-- An access that covers no byte of a buffer touches none. -/
theorem covers_eq_false {b : Buffer} {off n a : Nat} (h : covers b off n = false) (h1 : off ≤ a) (h2 : a < off + n) :
    b.holds a = false := by
  simp only [covers, List.any_eq_false, List.mem_range, Bool.not_eq_true] at h
  have := h (a - off) (by omega)
  rwa [show off + (a - off) = a by omega] at this

/-! ## The step -/

/-- With no dispatch pending the next turn is the host's. -/
theorem nextTurn_host {s : State} (he : s.engine.pendingRow = none) :
    nextTurn s = match s.host with
      | [] => .over (.next s)
      | op :: rest => busTurn op { s with host := rest } := by
  rw [nextTurn, he]
  all_goals rfl


/-- An address in the window has its offset (R60, R71). -/
theorem offsetOf_base (p : Platform) {off : Nat} (h : off < 0x200) : offsetOf p (p.base + off) = some off := by
  rw [offsetOf, if_pos (by omega), Nat.add_sub_cancel_left]

/-- The step of a host read in the window. -/
theorem step_read {s : State} {off width : Nat} {rest : List BusOp} (he : s.engine.pendingRow = none)
    (hh : s.host = .read (s.platform.base + off) width :: rest) (ho : off < 0x200) :
    step s = hostRead off width { s with host := rest } := by
  rw [step, nextTurn_host he, hh]
  simp only [busTurn, offsetOf_base _ ho]

/-- The step of a host write in the window. -/
theorem step_write {s : State} {off width : Nat} {data : Word} {rest : List BusOp} (he : s.engine.pendingRow = none)
    (hh : s.host = .write (s.platform.base + off) width data :: rest) (ho : off < 0x200) :
    step s = match hostWrite off width data { s with host := rest } with
      | .run i s' => exec i s'
      | .over o => o := by
  rw [step, nextTurn_host he, hh]
  simp only [busTurn, offsetOf_base _ ho]
  all_goals rfl

/-- A host read of a register (R61, R62). -/
theorem hostRead_reg {s : State} (r : Reg) (hb : s.status.busy = false) :
    hostRead r.offset 32 s = .next { s with readData := regRead r s } := by
  have h := r.offset_lt
  simp only [hostRead, hb, accessOk, h, regAt_of_offset]
  rfl

/-- A host write of a register other than CMD (R61, R62). -/
theorem hostWrite_reg {s : State} {r : Reg} (data : Word) (hr : r ≠ .cmd) (hb : s.status.busy = false) :
    hostWrite r.offset 32 data s = .over (.next (regWrite r data s)) := by
  have h := r.offset_lt
  simp only [hostWrite, hb, accessOk, h, regAt_of_offset]
  rfl

/-- The cases of a step, with no dispatch pending: idle, a reset, a host read, a host write, or a command. -/
theorem step_cases {s t : State} (he : s.engine.pendingRow = none) (h : step s = .next t) :
    (s.host = [] ∧ t = s) ∨
      ∃ op rest, s.host = op :: rest ∧
        ((op = .reset ∧ t = resetBlock { s with host := rest }) ∨
          (∃ addr width d k, op = .read addr width ∧ t = { s with host := rest, readData := d, draws := k }) ∨
          (∃ addr width data off, op = .write addr width data ∧ offsetOf s.platform addr = some off ∧
            hostWrite off width data { s with host := rest } = .over (.next t)) ∨
          ∃ addr width data, op = .write addr width data ∧ offsetOf s.platform addr = some 0 ∧
            nextTurn s = .run (decodeCmd data) { s with host := rest } ∧
            exec (decodeCmd data) { s with host := rest } = .next t) := by
  rw [step] at h
  have hn := nextTurn_host he
  cases hh : s.host with
  | nil =>
    rw [hn, hh] at h
    cases h; exact .inl ⟨rfl, rfl⟩
  | cons op rest =>
    rw [hh] at hn
    simp only at hn
    rw [hn] at h
    refine .inr ⟨op, rest, rfl, ?_⟩
    cases op with
    | reset => cases h; exact .inl ⟨rfl, rfl⟩
    | otherHost => cases h
    | read addr width =>
      rw [busTurn] at h
      simp only at h
      cases ho : offsetOf s.platform addr with
      | none => rw [ho] at h; cases h
      | some off =>
        rw [ho] at h
        obtain ⟨d, k, rfl⟩ := hostRead_cases h
        exact .inr (.inl ⟨addr, width, d, k, rfl, rfl⟩)
    | write addr width data =>
      rw [busTurn] at h hn
      simp only at h hn
      cases ho : offsetOf s.platform addr with
      | none => rw [ho] at h; cases h
      | some off =>
        rw [ho] at h hn
        simp only at h hn
        rcases hw : hostWrite off width data { s with host := rest } with ⟨i, s'⟩ | o
        rotate_left
        · rw [hw] at h
          exact .inr (.inr (.inl ⟨addr, width, data, off, rfl, ho, by rw [hw]; exact congrArg _ h⟩))
        · obtain ⟨rfl, rfl, rfl⟩ := hostWrite_run hw
          rw [hw] at h hn
          exact .inr (.inr (.inr ⟨addr, width, data, rfl, ho, hn, h⟩))

/-- A run of one more step, of any machine: the first step and the rest. -/
theorem run_succ_cases (M : Host.Core) {n : Nat} {s t : M.State} (h : M.run (n + 1) s = .next t) :
    ∃ u, M.step s = .next u ∧ M.run n u = .next t := by
  rw [Host.Core.run] at h
  split at h
  · next u hu => exact ⟨u, hu, h⟩
  · cases h
  · cases h

/-- A run of the block of one more step: the first step and the rest. -/
theorem core_run_succ {n : Nat} {s t : State} (h : core.run (n + 1) s = .next t) :
    ∃ u, step s = .next u ∧ core.run n u = .next t := run_succ_cases core h

end Sys2Proof.Machine
end

