-- ==== Sys2Proof/Laws/Invariant.lean ====
section
/-! SUPPORT. The parts of the invariant as propositions, and the one part that buffer writes must respect. -/

namespace Sys2Proof.Machine

theorem Status.consistent_iff (st : Status) :
    st.consistent = true ↔
      st.busy = false ∧ (st.verified = false ∨ st.frameValid = true) ∧ st.secPhase.settled = true ∧
        st.code.raisable = true := by
  simp [Status.consistent, and_assoc]

theorem State.viewsAgree_iff (s : State) :
    s.viewsAgree = true ↔
      s.content.off = s.hdrLen ∧
        (s.status.frameValid = true →
          s.payload.off.toNat = s.content.off.toNat + s.content.len.toNat ∧
            s.payload.off.toNat + s.payload.len.toNat ≤ s.len.toNat) := by
  cases h : s.status.frameValid <;> simp [State.viewsAgree, h]

theorem State.payloadDefined_iff (s : State) :
    s.payloadDefined = true ↔
      (s.status.secured = true → ∃ bs, s.mem.readBuf .pbuf 0 s.plen.toNat = some bs) := by
  cases h : s.status.secured <;> simp [State.payloadDefined, h, Option.isSome_iff_exists]

/-- A defined PBUF stretch is read alike from any memory that agrees on PBUF. -/
theorem Memory.readBuf_pbuf_of {m m' : Memory} {n : Nat} {bs : Bytes}
    (h : ∀ a, 0x180 ≤ a → a < 0x1FF → m'.read a = m.read a) (hr : m.readBuf .pbuf 0 n = some bs) :
    m'.readBuf .pbuf 0 n = some bs := by
  rw [← hr]
  refine Memory.readBuf_congr fun k hk => h _ ?_ ?_
  · simp only [Buffer.base]; omega
  · have := ((m.readBuf_eq_some ..).1 hr).2.1
    simp only [Buffer.base, bufferSize] at *; omega

end Sys2Proof.Machine
end

