-- ==== Sys2Proof/Laws/PerInstr.lean ====
section
/-! SUPPORT. What holds of every instruction as syntax, constructor by constructor. -/

namespace Sys2Proof.Laws.EncodeLength

/-- The encoding has the length of the instruction's format (spec/30_encoding.md R110). -/
def Statement (i : Instr) : Prop := (Sys2Proof.encode i).length = i.format.bytes

theorem nop : Statement (Instr.nop) := rfl

theorem decode : Statement (Instr.decode) := rfl

theorem encode : Statement (Instr.encode) := rfl

theorem secure : Statement (Instr.secure) := rfl

theorem verify : Statement (Instr.verify) := rfl

theorem illegal (w : Word) : Statement (Instr.illegal w) := rfl

theorem contentBeacon (f : FcFields) : Statement (Instr.contentBeacon f) := rfl

theorem contentData (f : FcFields) : Statement (Instr.contentData f) := rfl

theorem contentAck (f : FcFields) : Statement (Instr.contentAck f) := rfl

theorem contentCommand (f : FcFields) : Statement (Instr.contentCommand f) := rfl

theorem contentInvalid (ft : BitVec 3) (f : FcFields) : Statement (Instr.contentInvalid ft f) := rfl

theorem secNone (f : ScFields) : Statement (Instr.secNone f) := rfl

theorem secMic32 (f : ScFields) : Statement (Instr.secMic32 f) := rfl

theorem secMic64 (f : ScFields) : Statement (Instr.secMic64 f) := rfl

theorem secMic128 (f : ScFields) : Statement (Instr.secMic128 f) := rfl

theorem secEnc (f : ScFields) : Statement (Instr.secEnc f) := rfl

theorem secEncMic32 (f : ScFields) : Statement (Instr.secEncMic32 f) := rfl

theorem secEncMic64 (f : ScFields) : Statement (Instr.secEncMic64 f) := rfl

theorem secEncMic128 (f : ScFields) : Statement (Instr.secEncMic128 f) := rfl

end Sys2Proof.Laws.EncodeLength
end

