-- ==== Sys2Proof/Laws/Security.lean ====
section
/-! SUPPORT. SECURE and VERIFY with security on: what steps 5 to 7 give, and the transform of each kind of level. -/

namespace Sys2Proof.Machine

theorem tagLen_le (l : BitVec 3) : tagLen l ≤ 16 := by unfold tagLen; split <;> omega

/-! ## The transform by kind of level -/

/-- The MIC levels authenticate the payload as associated data (R181). -/
theorem sealBody_mic {lvl : BitVec 3} (h0 : lvl ≠ 0) (h : lvl.toNat ≤ 3) (inst nonce p : Bytes) (s : State) :
    sealBody lvl inst nonce p s = sealCall (some p) inst nonce p [] (tagLen lvl) s := by
  have h1 : lvl.toNat ≠ 0 := fun h => h0 (BitVec.eq_of_toNat_eq h)
  rw [sealBody]
  generalize hl : lvl.toNat = n at *
  interval_cases n
  · exact absurd rfl h1
  all_goals rfl

/-- The encrypting levels seal the payload as plaintext (R181). -/
theorem sealBody_enc {lvl : BitVec 3} (h : 3 < lvl.toNat) (inst nonce p : Bytes) (s : State) :
    sealBody lvl inst nonce p s = sealCall none inst nonce [] p (tagLen lvl) s := by
  have h8 := lvl.isLt
  rw [sealBody]
  generalize hl : lvl.toNat = n at *
  interval_cases n <;> rfl

/-- The MIC levels open the body as associated data (R182). -/
theorem openBody_mic {lvl : BitVec 3} (h0 : lvl ≠ 0) (h : lvl.toNat ≤ 3) (inst nonce body tag : Bytes) (s : State) :
    openBody lvl inst nonce body tag s = openCall (some body) inst nonce body [] tag (tagLen lvl) s := by
  have h1 : lvl.toNat ≠ 0 := fun h => h0 (BitVec.eq_of_toNat_eq h)
  rw [openBody]
  generalize hl : lvl.toNat = n at *
  interval_cases n
  · exact absurd rfl h1
  all_goals rfl

/-- The encrypting levels open the body as ciphertext, with a tag of the level's length (R182). -/
theorem openBody_enc {lvl : BitVec 3} (h : 3 < lvl.toNat) (inst nonce body : Bytes) {tag : Bytes}
    (ht : tag.length = tagLen lvl) (s : State) :
    openBody lvl inst nonce body tag s = openCall none inst nonce [] body tag (tagLen lvl) s := by
  have h8 := lvl.isLt
  rw [openBody]
  rw [tagLen] at ht ⊢
  generalize hl : lvl.toNat = n at *
  interval_cases n
  · rw [List.eq_nil_of_length_eq_zero ht]; rfl
  all_goals rfl

/-! ## Steps 5 to 7 -/

/-- The ports after KeyStep (R186). -/
def State.keyAsked (s : State) : Ports :=
  { s.ports with
    keyLookup := s.ports.keyLookup.tail,
    log := s.ports.log ++
      [.keyLookup (fcDstMode s.hdr.fc) (scKeyIdMode s.hdr.auxCtrl) s.hdr.kidUsed s.hdr.dstAddr] }

/-- The ports after KeyStep and InitStep (R186, R187). -/
def State.initAsked (s : State) (key : Bytes) : Ports :=
  { s.ports with
    keyLookup := s.ports.keyLookup.tail, aeadInit := s.ports.aeadInit.tail,
    log := s.ports.log ++
      [.keyLookup (fcDstMode s.hdr.fc) (scKeyIdMode s.hdr.auxCtrl) s.hdr.kidUsed s.hdr.dstAddr, .aeadInit key] }

theorem keyStep_of {s : State} {a : Option Bytes} {ks : List (Option Bytes)} (h : s.ports.keyLookup = a :: ks) :
    keyStep s = (a, s.withPorts s.keyAsked) := by
  simp only [keyStep, askKey, h, State.keyAsked]
  rfl

theorem askInit_of {s : State} {a : Option Bytes} {is : List (Option Bytes)} (key : Bytes)
    (h : s.ports.aeadInit = a :: is) :
    askInit key (s.withPorts s.keyAsked) = (a, s.withPorts (s.initAsked key)) := by
  simp only [askInit, State.withPorts_ports, State.keyAsked, State.initAsked, Ports.record, h, List.append_assoc]
  rfl

theorem prepare_miss {c : Word} {s : State} {ks : List (Option Bytes)} (h : s.ports.keyLookup = none :: ks) :
    prepare c s = (.failed .unavailableKey, s.withPorts s.keyAsked) := by
  rw [prepare, keyStep_of h]

theorem prepare_badKey {c : Word} {s : State} {key : Bytes} {ks is : List (Option Bytes)}
    (h : s.ports.keyLookup = some key :: ks) (h' : s.ports.aeadInit = none :: is) :
    prepare c s = (.failed .keyFailure, s.withPorts (s.initAsked key)) := by
  rw [prepare, keyStep_of h]
  simp only [askInit_of key h']

theorem prepare_noAddress {c : Word} {s : State} {key inst : Bytes} {ks is : List (Option Bytes)}
    (h : s.ports.keyLookup = some key :: ks) (h' : s.ports.aeadInit = some inst :: is)
    (hx : extAddrOf s.platform s.hdr.srcAddr = none) :
    prepare c s = (.failed .nonceAddressUnavailable, s.withPorts (s.initAsked key)) := by
  rw [prepare, keyStep_of h]
  simp only [askInit_of key h', nonceStep, State.withPorts_platform, State.withPorts_hdr, hx]
  rfl

theorem prepare_ready {c : Word} {s : State} {key inst : Bytes} {ks is : List (Option Bytes)} {ea : BitVec 64}
    (h : s.ports.keyLookup = some key :: ks) (h' : s.ports.aeadInit = some inst :: is)
    (hx : extAddrOf s.platform s.hdr.srcAddr = some ea) :
    prepare c s = (.ready inst (nonceOf ea c s.hdr.level), s.withPorts (s.initAsked key)) := by
  rw [prepare, keyStep_of h]
  simp only [askInit_of key h', nonceStep, State.withPorts_platform, State.withPorts_hdr, hx]
  rfl

/-! ## The commands once their checks have passed -/

theorem execSecure_on {s : State} (hg : secureGuard s = .ok ()) (hc : secureChecks s = .ok ())
    (hs : fcSecurity s.hdr.fc = true) :
    execSecure s = match prepare s.frameCounter s with
      | (.failed c, s') => .next (raiseIn .secure c 0 s')
      | (.ready inst nonce, s') => secureSeal inst nonce s' := by
  rw [execSecure, hg]
  simp only
  rw [if_pos hs, secureOn, hc]
  all_goals rfl

theorem execVerify_on {s : State} (hg : verifyGuard s = .ok ()) (hc : verifyChecks s = .ok ())
    (hs : fcSecurity s.hdr.fc = true) :
    execVerify s = match prepare (verifyCounter s) s with
      | (.failed c, s') => .next (raiseIn .verify c 0 s')
      | (.ready inst nonce, s') => verifyOpen inst nonce s' := by
  rw [execVerify, hg]
  simp only
  rw [if_pos hs, verifyOn, hc]
  all_goals rfl

end Sys2Proof.Machine
end

