-- ==== Sys2Proof/Laws/PortLog.lean ====
section
/-! SUPPORT. The request log is no input: with the AEAD's answers listed, the security procedures show the host the same
whatever the log holds (spec/60_exceptions.md R251). -/

namespace Sys2Proof.Machine

/-- The state with another request log. -/
def State.withLog (s : State) (l : List PortCall) : State := s.withPorts { s.ports with log := l }

theorem sealCall_log (keep : Option Bytes) (inst nonce ad pt : Bytes) (t : Nat) (s : State) (l) (h : s.ports.aeadSeal ≠ []) :
    ∃ l', sealCall keep inst nonce ad pt t (s.withLog l) =
      match sealCall keep inst nonce ad pt t s with
      | .next x => .next (x.withLog l')
      | .fault r => .fault r
      | .refused r => .refused r := by
  obtain ⟨a, as, hs⟩ := List.exists_cons_of_ne_nil h
  refine ⟨l ++ [.aeadSeal inst nonce ad pt t], ?_⟩
  simp only [sealCall, askSeal, State.withLog, State.withPorts, hs, Ports.record, List.headD_cons]
  split <;> rfl

theorem openCall_log (keep : Option Bytes) (inst nonce ad ct tag : Bytes) (t : Nat) (s : State) (l) (h : s.ports.aeadOpen ≠ []) :
    ∃ l', openCall keep inst nonce ad ct tag t (s.withLog l) =
      match openCall keep inst nonce ad ct tag t s with
      | .next x => .next (x.withLog l')
      | .fault r => .fault r
      | .refused r => .refused r := by
  obtain ⟨a, as, hs⟩ := List.exists_cons_of_ne_nil h
  refine ⟨l ++ [.aeadOpen inst nonce ad ct tag t], ?_⟩
  simp only [openCall, askOpen, State.withLog, State.withPorts, hs, Ports.record, List.headD_cons]
  split <;> rfl


/-- The outcome with another request log. -/
def outcomeWithLog (l : List PortCall) : Host.Outcome State Fault Refusal → Host.Outcome State Fault Refusal
      | .next x => .next (x.withLog l)
      | .fault r => .fault r
      | .refused r => .refused r

theorem transform_log (lvl : BitVec 3) (s : State) (l) (h : s.ports.aeadSeal ≠ []) (h' : s.ports.aeadOpen ≠ []) :
    ∃ l', transform lvl (s.withLog l) = outcomeWithLog l' (transform lvl s) := by
  unfold transform
  rw [show (s.withLog l).engine = s.engine from rfl]
  split
  · unfold sealBody
    split
    · exact ⟨l, rfl⟩
    · exact sealCall_log _ _ _ _ _ _ s l h
    · exact sealCall_log _ _ _ _ _ _ s l h
    · exact sealCall_log _ _ _ _ _ _ s l h
    · exact sealCall_log _ _ _ _ _ _ s l h
  · unfold openBody
    split
    · exact ⟨l, rfl⟩
    all_goals exact openCall_log _ _ _ _ _ _ _ s l h'
  · exact ⟨l, rfl⟩

theorem raiseIn_vis (c : Command) (k v) (s : State) (l) : (raiseIn c k v (s.withLog l)).visible = (raiseIn c k v s).visible := by
  cases c <;> simp only [raiseIn] <;> (try split) <;> rfl

theorem secureEnd_vis (s : State) (l) : (secureEnd (s.withLog l)).visible = (secureEnd s).visible := by
  unfold secureEnd
  rw [show (s.withLog l).engine = s.engine from rfl]
  split
  · rfl
  · exact raiseIn_vis _ _ _ _ _
  · rfl

theorem verifyEnd_vis (s : State) (l) : (verifyEnd (s.withLog l)).visible = (verifyEnd s).visible := by
  unfold verifyEnd
  rw [show (s.withLog l).engine = s.engine from rfl]
  split
  · rfl
  · exact raiseIn_vis _ _ _ _ _
  · rfl

theorem secureSeal_log (inst nonce : Bytes) (s : State) (l) (h : s.ports.aeadSeal ≠ []) (h' : s.ports.aeadOpen ≠ []) :
    visibleOutcome (secureSeal inst nonce (s.withLog l)) = visibleOutcome (secureSeal inst nonce s) := by
  unfold secureSeal
  simp only [show (s.withLog l).mem = s.mem from rfl, show (s.withLog l).plen = s.plen from rfl, show (s.withLog l).hdr = s.hdr from rfl]
  split
  · rfl
  · rename_i p _
    rw [show ((s.withLog l).withEngine (.sealing s.hdr.auxCtrl inst nonce p)) = State.withLog (s.withEngine (.sealing s.hdr.auxCtrl inst nonce p)) l from rfl]
    rw [transformDispatch_transform, transformDispatch_transform]
    obtain ⟨l', e⟩ := transform_log (scLevel s.hdr.auxCtrl) (s.withEngine (.sealing s.hdr.auxCtrl inst nonce p)) l h h'
    rw [e]
    cases transform (scLevel s.hdr.auxCtrl) (s.withEngine (.sealing s.hdr.auxCtrl inst nonce p)) with
    | next x => simp only [outcomeWithLog, visibleOutcome, secureEnd_vis]
    | fault r => rfl
    | refused r => rfl

theorem verifyOpen_log (inst nonce : Bytes) (s : State) (l) (h : s.ports.aeadSeal ≠ []) (h' : s.ports.aeadOpen ≠ []) :
    visibleOutcome (verifyOpen inst nonce (s.withLog l)) = visibleOutcome (verifyOpen inst nonce s) := by
  unfold verifyOpen
  simp only [show (s.withLog l).mem = s.mem from rfl, show (s.withLog l).payload = s.payload from rfl, show (s.withLog l).hdr = s.hdr from rfl]
  split
  · simp only [visibleOutcome, raiseIn_vis]
  split
  · rfl
  · rename_i bs _
    generalize hE : Engine.opening s.hdr.auxCtrl inst nonce (bs.take (s.payload.len.toNat - tagLen s.hdr.level)) (bs.drop (s.payload.len.toNat - tagLen s.hdr.level)) = E
    rw [show ((s.withLog l).withEngine E) = State.withLog (s.withEngine E) l from rfl]
    rw [transformDispatch_transform, transformDispatch_transform]
    obtain ⟨l', e⟩ := transform_log (scLevel s.hdr.auxCtrl) (s.withEngine E) l h h'
    rw [e]
    cases transform (scLevel s.hdr.auxCtrl) (s.withEngine E) with
    | next x => simp only [outcomeWithLog, visibleOutcome, verifyEnd_vis]
    | fault r => rfl
    | refused r => rfl

theorem prepare_key {c : Word} (s : State) (k k' : Bytes) (ks : List (Option Bytes)) (hk : s.ports.keyLookup = some k :: ks) (hi : s.ports.aeadInit ≠ []) :
   (∃ d l, (prepare c s).1 = .failed d ∧ prepare c (s.withNextKey k') = (.failed d, State.withLog (prepare c s).2 l)) ∨
   (∃ i n l, (prepare c s).1 = .ready i n ∧ prepare c (s.withNextKey k') = (.ready i n, State.withLog (prepare c s).2 l)
      ∧ (prepare c s).2.ports.aeadSeal = s.ports.aeadSeal ∧ (prepare c s).2.ports.aeadOpen = s.ports.aeadOpen) := by
  obtain ⟨a, is, hi⟩ := List.exists_cons_of_ne_nil hi
  have hk' : (s.withNextKey k').ports.keyLookup = some k' :: ks := by simp [State.withNextKey, hk]
  have hi' : (s.withNextKey k').ports.aeadInit = a :: is := by simp [State.withNextKey, hi]
  have e : ∀ key, State.withPorts (s.withNextKey k') ((s.withNextKey k').initAsked k') = State.withLog (s.withPorts (s.initAsked key)) ((s.withNextKey k').initAsked k').log := by
    intro key; simp [State.initAsked, State.withLog, State.withNextKey, State.withPorts]
  cases a with
  | none => rw [prepare_badKey hk hi, prepare_badKey hk' hi']; exact .inl ⟨_, _, rfl, by rw [e k]⟩
  | some inst =>
    cases hx : extAddrOf s.platform s.hdr.srcAddr with
    | none => rw [prepare_noAddress hk hi hx, prepare_noAddress hk' hi' hx]; exact .inl ⟨_, _, rfl, by rw [e k]⟩
    | some ea => rw [prepare_ready hk hi hx, prepare_ready hk' hi' hx]; exact .inr ⟨_, _, _, rfl, by rw [e k]; rfl, rfl, rfl⟩

theorem raiseIn_key (c : Command) (k v) (s : State) (k') : (raiseIn c k v (s.withNextKey k')).visible = (raiseIn c k v s).visible := by
  cases c <;> simp only [raiseIn] <;> (try split) <;> rfl

end Sys2Proof.Machine
end

