-- ==== Sys2Proof/Laws/RoundTrip.lean ====
section
/-! SUPPORT. The header codec both ways: what the encoders write, the decoders read back. -/

namespace Sys2Proof.Machine

/-- Bits 9:7 that are zero already stay as they are. -/
theorem fcWithRsvd_zero {fc : Half} (hr : fcRsvd fc = 0) : fcWithRsvd fc 0 = fc := by
  refine BitVec.eq_of_getLsbD_eq fun k hk => ?_
  rw [getLsbD_fcWithRsvd _ _ hk]
  split
  · next hk' =>
    have h : (fcRsvd fc).getLsbD (k - 7) = (0 : BitVec 3).getLsbD (k - 7) := by rw [hr]
    rw [fcRsvd, BitVec.getLsbD_extractLsb', show 7 + (k - 7) = k by omega] at h
    rw [← h]
    simp
    intro
    omega
  · rfl

theorem plain_short {m : Memory} {fin cur} (pan x : Half) (h : m.holds .fbuf cur (le16 x)) (hf : cur + 2 ≤ fin) :
    plainDecode m 2 pan fin cur = .ok (some (.short pan x), cur + 2) := by
  rw [plainDecode, if_pos rfl, readField_of_holds h (le16_length _) hf, Except.ok_bind, ofLE_le16]; rfl
theorem plain_ext {m : Memory} {fin cur} (pan : Half) (x : BitVec 64) (h : m.holds .fbuf cur (le64 x)) (hf : cur + 8 ≤ fin) :
    plainDecode m 3 pan fin cur = .ok (some (.extended pan x), cur + 8) := by
  rw [plainDecode, if_neg (by decide), readField_of_holds h (le64_length _) hf, Except.ok_bind, ofLE_le64]; rfl

/-- The address bytes of an address, without its PAN identifier. -/
def plainBytes : Address → Bytes
  | .short _ y => le16 y
  | .extended _ y => le64 y

/-- The address mode of an address (spec/30_encoding.md R99). -/
def modeOf : Option Address → BitVec 2
  | none => 0
  | some (.short _ _) => 2
  | some (.extended _ _) => 3

/-- AddressDecode undoes AddressEncode (spec/40_address_codec.md R130, R131). -/
theorem address_roundtrip {m : Memory} {fin cur} (a : Option Address) (role : Role) (pic : Bool) (other : Option Address)
    (hp : ∀ o x, role = .src → pic = true → other = some o → a = some x → addrPan o = addrPan x)
    (h : m.holds .fbuf cur (addressEncode a role pic other)) (hf : cur + (addressEncode a role pic other).length ≤ fin) :
    addressDecode m (modeOf a) role pic other fin cur = .ok (a, cur + (addressEncode a role pic other).length) := by
  rcases a with - | x
  · rfl
  have hmode : modeOf (some x) ≠ 0 ∧ modeOf (some x) ≠ 1 := by cases x with
    | short => exact ⟨(by decide : (2 : BitVec 2) ≠ 0), (by decide : (2 : BitVec 2) ≠ 1)⟩
    | extended => exact ⟨(by decide : (3 : BitVec 2) ≠ 0), (by decide : (3 : BitVec 2) ≠ 1)⟩
  have himp : panImplied role pic other (modeOf (some x)) = panImplied role pic other 1 := by
    rw [Bool.eq_iff_iff, panImplied_iff, panImplied_iff]; simp [show modeOf (some x) ≠ 0#2 from hmode.1]
  obtain ⟨pd, rest, he, hpan⟩ : ∃ pd rest, addressEncode (some x) role pic other = pd ++ rest ∧ rest = plainBytes x ∧ 
      (m.holds .fbuf cur pd → cur + pd.length ≤ fin → panDecode m (modeOf (some x)) role pic other fin cur = .ok (addrPan x, cur + pd.length)) := by
    refine ⟨if panImplied role pic other 1 then [] else le16 (addrPan x), plainBytes x, by cases x <;> rfl, rfl, fun hh hl => ?_⟩
    unfold panDecode
    rw [himp]
    cases hi : panImplied role pic other 1 with
    | true =>
      obtain ⟨h1, h2, h3, -⟩ := panImplied_iff.1 hi
      obtain ⟨o, ho⟩ := Option.isSome_iff_exists.1 h3
      subst ho
      simp only [if_true, List.length_nil, Nat.add_zero]
      rw [hp o x h1 h2 rfl rfl]
    | false =>
      simp only [hi, Bool.false_eq_true, if_false] at hh hl ⊢
      rw [readField_of_holds hh (le16_length _) (by simpa using hl), Except.ok_bind, ofLE_le16, le16_length]; rfl
  rw [he] at h hf ⊢
  obtain ⟨h1, h2⟩ := Memory.holds_append.1 h
  rw [List.length_append] at hf
  rw [addressDecode, if_neg hmode.1, demand_bind, if_pos (by simpa using hmode.2), hpan.2 h1 (by omega), Except.ok_bind]
  rw [hpan.1] at h2 hf ⊢
  rw [List.length_append, ← Nat.add_assoc]
  cases x with
  | short p y => simp only [plainBytes, le16_length] at *; exact plain_short p y h2 (by omega)
  | extended p y => simp only [plainBytes, le64_length] at *; exact plain_ext p y h2 (by omega)

/-- The auxiliary header that the registers give (spec/41_header_codec.md R145). -/
def auxOf (h : HeaderRegs) : Aux :=
  { sc := h.auxCtrl, fcv := if fcPresent (fcVersion h.fc) h.auxCtrl then some h.auxFc else none, kid := h.kidUsed }

theorem kidUsed_length (h : HeaderRegs) : h.kidUsed.length = kidLen (scKeyIdMode h.auxCtrl) := by
  have := kidLen_le (scKeyIdMode h.auxCtrl)
  simp [HeaderRegs.kidUsed, HeaderRegs.kid]; omega

/-- AuxDecode undoes AuxEncode (spec/41_header_codec.md R144, R145). -/
theorem aux_roundtrip {m : Memory} {fin cur} (hd : HeaderRegs) (h : m.holds .fbuf cur (auxEncode hd)) (hf : cur + (auxEncode hd).length ≤ fin) :
    auxDecode m (fcVersion hd.fc) fin cur = .ok (auxOf hd, cur + (auxEncode hd).length) := by
  have hkl := kidUsed_length hd
  unfold auxEncode at *
  rw [List.append_assoc] at h hf ⊢
  obtain ⟨h1, h2⟩ := Memory.holds_append.1 h
  obtain ⟨h2, h3⟩ := Memory.holds_append.1 h2
  simp only [List.length_append, List.length_singleton, hkl] at hf h2 h3 ⊢
  rw [auxDecode, readField_of_holds (n := 1) h1 rfl (by omega), Except.ok_bind]
  simp only [ofLE_singleton]
  rw [counterDecode, auxOf]
  cases hp : fcPresent (fcVersion hd.fc) hd.auxCtrl with
  | true =>
    simp only [hp, if_true, le32_length] at *
    rw [readField_of_holds h2 (le32_length _) (by omega), Except.ok_bind, ofLE_le32]
    show (readField m fin (cur + 1 + 4) _ >>= _) = _
    rw [readField_of_holds h3 hkl (by omega), Except.ok_bind]
    show Except.ok _ = _
    simp only [Nat.add_assoc]
  | false =>
    simp only [hp, Bool.false_eq_true, if_false, List.length_nil, Nat.add_zero, Nat.zero_add] at *
    show (readField m fin (cur + 1) _ >>= _) = _
    rw [readField_of_holds h3 hkl (by omega), Except.ok_bind]
    show Except.ok _ = _
    simp only [Nat.add_assoc]

/-- The header that the registers give (spec/41_header_codec.md R141). -/
def hdrOf (h : HeaderRegs) : Hdr :=
  { fc := h.fc, seq := h.seq, dst := h.dstAddr, src := h.srcAddr, aux := if fcSecurity h.fc then some (auxOf h) else none }

theorem modeOf_addrOf {mode : BitVec 2} (p lo hi) (h : mode ≠ 1) : modeOf (addrOf mode p lo hi) = mode := by
  rcases mode_cases h with rfl | rfl | rfl <;> rfl

/-- HeaderDecode undoes HeaderEncode (spec/41_header_codec.md R141). -/
theorem header_roundtrip {m : Memory} {fin} (h : HeaderRegs) (hc : fcCheck h.fc = .ok ()) (hr : fcRsvd h.fc = 0)
    (hp : srcPanCompressed (fcCompress h.fc) (fcDstMode h.fc) (fcSrcMode h.fc) = true → h.srcPan = h.dstPan)
    (hm : m.holds .fbuf 0 (headerEncode h)) (hf : (headerEncode h).length ≤ fin) :
    headerDecode m fin = .ok (hdrOf h, (headerEncode h).length) := by
  have hfc : fcEncode h.fc = le16 h.fc := by rw [fcEncode, fcWithRsvd_zero hr]
  obtain ⟨hd, hs, -, -⟩ := fcCheck_eq_ok.1 hc
  unfold headerEncode at *
  rw [hfc] at hm hf ⊢
  obtain ⟨h1, h5⟩ := Memory.holds_append.1 hm
  obtain ⟨h1, h4⟩ := Memory.holds_append.1 h1
  obtain ⟨h1, h3⟩ := Memory.holds_append.1 h1
  obtain ⟨h1, h2⟩ := Memory.holds_append.1 h1
  simp only [List.length_append, le16_length, List.length_singleton, Nat.zero_add] at *
  have e1 : fcDecode m fin = .ok h.fc := by
    rw [fcDecode, readField_of_holds h1 (le16_length _) (by omega), Except.ok_bind, ofLE_le16, hc]; rfl
  have hm1 : modeOf h.dstAddr = fcDstMode h.fc := modeOf_addrOf _ _ _ hd
  have hm2 : modeOf h.srcAddr = fcSrcMode h.fc := modeOf_addrOf _ _ _ hs
  have a1 := address_roundtrip (fin := fin) h.dstAddr .dst (fcCompress h.fc) none (by nofun) h3 (by omega)
  have a2 := address_roundtrip (fin := fin) h.srcAddr .src (fcCompress h.fc) h.dstAddr (by
    rintro o x - hpic ho hx
    have := hp
    rw [hpic] at this
    simp only [HeaderRegs.dstAddr, HeaderRegs.srcAddr] at ho hx
    rcases mode_cases hd with h0 | h0 | h0 <;> rcases mode_cases hs with h0' | h0' | h0' <;> rw [h0] at ho this <;> rw [h0'] at hx this <;> cases ho <;> cases hx <;>
      exact (this rfl).symm) h4 (by omega)
  rw [hm1] at a1
  rw [hm2] at a2
  rw [headerDecode, e1, Except.ok_bind, readField_of_holds (n := 1) h2 rfl (by omega), Except.ok_bind, a1, Except.ok_bind]
  dsimp only
  rw [a2, Except.ok_bind]
  dsimp only
  rw [auxPart, hdrOf]
  cases hsec : fcSecurity h.fc with
  | true =>
    simp only [hsec, if_true] at *
    rw [aux_roundtrip h h5 (by omega), Except.ok_bind, ofLE_singleton]
    simp only [pure, Except.pure, Except.ok_bind]
  | false => 
    simp only [hsec, Bool.false_eq_true, if_false, ofLE_singleton] at *
    simp only [pure, Except.pure, Except.ok_bind, List.length_nil, Nat.add_zero]

/-- HeaderCommit gives back address registers that hold nothing beside the address (spec/40_address_codec.md R133). -/
theorem addr_back {mode : BitVec 2} {p lo hi} (hm : mode ≠ 1) (h : addrCanonical mode p lo hi = true) : addrRegs (addrOf mode p lo hi) = (p, lo, hi) := by
  rcases mode_cases hm with rfl | rfl | rfl
  · simp [addrCanonical] at h; simp [addrOf, addrRegs, h]
  · simp [addrCanonical] at h; simp [addrOf, addrRegs, h]
    refine BitVec.eq_of_getLsbD_eq fun k hk => ?_
    have := congrArg (fun v => v.getLsbD (k - 16)) h.1
    simp at this
    simp
    by_cases h16 : k < 16
    · simp [h16]; exact fun _ => hk
    · simp [h16]; rw [show 16 + (k - 16) = k by omega] at this; rw [this (by omega)]
  · simp [addrOf, addrRegs]
    constructor
    · refine BitVec.eq_of_getLsbD_eq fun k hk => ?_
      rw [BitVec.getLsbD_extractLsb']
      change (_ && BitVec.getLsbD (w := 32 + 32) (hi ++ lo) (0 + k)) = _
      rw [BitVec.getLsbD_append]; simp [hk]
    · refine BitVec.eq_of_getLsbD_eq fun k hk => ?_
      rw [BitVec.getLsbD_extractLsb']
      change (_ && BitVec.getLsbD (w := 32 + 32) (hi ++ lo) (32 + k)) = _
      rw [BitVec.getLsbD_append]; simp [hk]

theorem kid_ext {a b : HeaderRegs} (h : a.kid = b.kid) : a.kid0 = b.kid0 ∧ a.kid1 = b.kid1 ∧ a.kid2 = b.kid2 := by
  simp only [HeaderRegs.kid] at h
  obtain ⟨h1, h2⟩ := List.append_inj h (by simp)
  obtain ⟨h1, h3⟩ := List.append_inj h1 (by simp)
  refine ⟨?_, ?_, by simpa using h2⟩
  · rw [← ofLE_le32 a.kid0, h1, ofLE_le32]
  · rw [← ofLE_le32 a.kid1, h3, ofLE_le32]

/-- HeaderCommit gives back the registers of a well-formed header (spec/44_frame_codec.md R225). -/
theorem commit_back (h : HeaderRegs) (hc : h.canonical = true) (hd : fcDstMode h.fc ≠ 1) (hs : fcSrcMode h.fc ≠ 1) (ha : fcSecurity h.fc = h.auxPresent) :
    headerCommit (hdrOf h) = h := by
  simp only [HeaderRegs.canonical, Bool.and_eq_true] at hc
  obtain ⟨⟨⟨⟨-, h1⟩, h2⟩, h3⟩, -⟩ := hc
  have e1 : addrRegs (hdrOf h).dst = _ := addr_back hd h1
  have e2 : addrRegs (hdrOf h).src = _ := addr_back hs h2
  have hk := headerCommit_kid (hdrOf h)
  have hkl : h.kid.length = 9 := by simp [HeaderRegs.kid]
  have hk2 : (hdrOf h).auxRegs.2.2 = h.kid ∧ (hdrOf h).auxRegs.1 = h.auxCtrl ∧ (hdrOf h).auxRegs.2.1 = h.auxFc := by
    simp only [HeaderRegs.auxCanonical] at h3
    simp only [Hdr.auxRegs, hdrOf]
    cases hsec : fcSecurity h.fc with
    | true =>
      simp only [hsec, if_true, Bool.and_eq_true, beq_iff_eq, Bool.or_eq_true] at h3 ⊢
      refine ⟨?_, rfl, ?_⟩
      · have := kidLen_le (scKeyIdMode h.auxCtrl)
        have hl := kidUsed_length h
        show padKid h.kidUsed = _
        rw [padKid_eq _ (by omega), hl, ← h3.1, HeaderRegs.kidUsed, List.take_append_drop]
      · show Option.getD (if _ then _ else _) _ = _
        rcases h3.2 with h' | h'
        · rw [if_pos h']; rfl
        · split
          · rfl
          · exact h'.symm
    | false =>
      simp only [hsec, Bool.false_eq_true, if_false, Bool.and_eq_true, beq_iff_eq] at h3 ⊢
      exact ⟨h3.2.symm, h3.1.1.symm, h3.1.2.symm⟩
  rw [hk2.1] at hk
  obtain ⟨k0, k1, k2⟩ := kid_ext hk
  have hfc : (headerCommit (hdrOf h)).fc = h.fc := rfl
  unfold headerCommit at *
  simp only [e1, e2, hk2] at *
  obtain ⟨⟩ := h
  simp_all [hdrOf]

end Sys2Proof.Machine
end

