-- ==== Sys2Proof/Tests/Slice0.lean ====
section
/-! SUPPORT. Tests of single steps and words against spec/95_test_vectors.md and spec/30_encoding.md, and for every
obligation with hypotheses a state that meets them. -/

namespace Sys2Proof.Tests

set_option Elab.async false

open Sys2Proof.Machine

/-! ## Helpers -/

/-- The outcome is a next state with the given property. -/
def nextIs (o : Host.Outcome State Fault Refusal) (p : State → Bool) : Bool :=
  match o with
  | .next t => p t
  | .fault _ => false
  | .refused _ => false

theorem nextIs_elim {o : Host.Outcome State Fault Refusal} {p : State → Bool} (h : nextIs o p = true) :
    ∃ t, o = .next t ∧ p t = true := by
  cases o with
  | next t => exact ⟨t, rfl, h⟩
  | fault r => exact absurd h Bool.false_ne_true
  | refused r => exact absurd h Bool.false_ne_true

/-- The state after reset with a frame in FBUF. -/
def inFrame (bs : Bytes) : State :=
  { State.reset with mem := State.reset.mem.writeBuf .fbuf 0 bs, len := BitVec.ofNat 7 bs.length }

/-- The state after reset with header registers and a payload in PBUF. -/
def inRegs (h : HeaderRegs) (p : Bytes) : State :=
  { State.reset with hdr := h, mem := State.reset.mem.writeBuf .pbuf 0 p, plen := BitVec.ofNat 7 p.length }

/-- The state with other ports. -/
def ports (p : Ports) (s : State) : State := s.withPorts p

/-- The footer mode Explicit. -/
def explicit (s : State) : State := { s with footerMode := .explicit }

/-- The frame of vector V1. -/
def v1 : Bytes := [0x41, 0x88, 0x91, 0x8f, 0x20, 0xff, 0xff, 0x33, 0x44, 0x00, 0x00]

/-- The registers of vector V2. -/
def v2 : HeaderRegs :=
  { HeaderRegs.reset with
    fc := 0x8801, seq := 1, dstPan := 0x1234, dstLo := 0x5678, srcPan := 0x4321, srcLo := 0x9abc }

/-- The registers of vector V3. -/
def v3 : HeaderRegs :=
  { HeaderRegs.reset with
    fc := 0x8C42, seq := 0xff, dstPan := 0x1234, dstHi := 0x11223344, dstLo := 0x55667788, srcPan := 0x1234,
    srcLo := 0x9abc }

/-- The registers of the security fixture S, with a security control byte. -/
def fixS (sc : Byte) : HeaderRegs :=
  { HeaderRegs.reset with
    fc := 0xD849, seq := 7, auxPresent := true, dstPan := 0x1234, dstLo := 0xffff, srcPan := 0x1234,
    srcHi := 0x01020304, srcLo := 0x05060708, auxCtrl := sc, kid0 := 1 }

/-- The 16-byte key of the port test doubles. -/
def key : Bytes := [0, 1, 2, 3, 4, 5, 6, 7, 8, 9, 10, 11, 12, 13, 14, 15]

/-- The nonce of the fixture: counter 5 and a level. -/
def nonce (lvl : Byte) : Bytes := [1, 2, 3, 4, 5, 6, 7, 8, 0, 0, 0, 5, lvl]

/-- The port answers of one SECURE. -/
def sealTape (a : Option (Bytes × Bytes)) : Ports :=
  { Ports.none with keyLookup := [some key], aeadInit := [some key], aeadSeal := [a] }

/-- The port answers of one VERIFY. -/
def openTape (a : Option Bytes) : Ports :=
  { Ports.none with keyLookup := [some key], aeadInit := [some key], aeadOpen := [a] }

/-- The port answers of one body codec. -/
def bodyTape (d : List (CodecReply Nat)) (e : List (CodecReply Bytes)) : Ports :=
  { Ports.none with
    beaconDecode := d, commandDecode := d, beaconEncode := e, commandEncode := e }

/-- The fixture S ready for SECURE. -/
def toSecure (sc : Byte) (p : Bytes) (pt : Ports) : State :=
  ports pt { inRegs (fixS sc) p with frameCounter := 5 }

/-- The header bytes of the fixture S on the wire. -/
def wireS (sc : Byte) : Bytes :=
  [0x49, 0xd8, 7, 0x34, 0x12, 0xff, 0xff, 8, 7, 6, 5, 4, 3, 2, 1, sc, 5, 0, 0, 0, 1]

/-- The fixture S as DECODE leaves it: 21 header bytes, then the body. -/
def toVerify (sc : Byte) (body : Bytes) (pt : Ports) : State :=
  ports pt { inFrame (wireS sc ++ body) with
    hdr := { fixS sc with auxFc := 5 }, hdrLen := 21, content := ⟨21, 0⟩, payload := ⟨21, BitVec.ofNat 7 body.length⟩,
    status := { Status.reset with frameValid := true } }

/-- A command-internal operand, as a command leaves it for a row. -/
def pending (e : Engine) (pt : Ports) : State := ports pt (State.reset.withEngine e)

/-- Fields of a frame control word that are all clear. -/
def noFc : FcFields :=
  { security := false, framePending := false, ackRequest := false, panIdCompress := false, rsvd := 0, dstMode := 0,
    version := 0, srcMode := 0 }

/-- Fields of a security control byte that are all clear. -/
def noSc : ScFields := { keyIdMode := 0, fcSuppress := false, asnInNonce := false, rsvd := false }

/-! ## WellFormed -/

theorem test_illegal_zero_is_no_term : (Instr.illegal 0).wellFormed = false := by decide
theorem test_illegal_four_is_no_term : (Instr.illegal 4).wellFormed = false := by decide
theorem test_invalid_type_three_is_no_term : (Instr.contentInvalid 3 noFc).wellFormed = false := by decide
theorem test_wellformed_boundaries :
    (Instr.illegal 5).wellFormed = true ∧ (Instr.contentInvalid 4 noFc).wellFormed = true ∧
    (Instr.contentInvalid 7 noFc).wellFormed = true := by decide

/-! ## Decoding: words written out from spec/30_encoding.md (bits from the least significant) -/

/-- R91: NOP 0, DECODE 1, ENCODE 2, SECURE 3, VERIFY 4. -/
theorem test_decode_commands :
    decodeBytes .cmd32 [0, 0, 0, 0] = .ok .nop ∧ decodeBytes .cmd32 [1, 0, 0, 0] = .ok .decode ∧
    decodeBytes .cmd32 [2, 0, 0, 0] = .ok .encode ∧ decodeBytes .cmd32 [3, 0, 0, 0] = .ok .secure ∧
    decodeBytes .cmd32 [4, 0, 0, 0] = .ok .verify := by decide

/-- R92, R93: T-CMD-3, T-CMD-4, and a word whose low byte is a command's (T-CMD-6). -/
theorem test_decode_illegal :
    decodeBytes .cmd32 [0x05, 0x01, 0, 0] = .ok (.illegal 0x105) ∧ decodeBytes .cmd32 [5, 0, 0, 0] = .ok (.illegal 5) ∧
    decodeBytes .cmd32 [0, 1, 0, 0] = .ok (.illegal 0x100) ∧
    decodeBytes .cmd32 [1, 0, 0, 0x80] = .ok (.illegal 0x80000001) := by decide

/-- Beacon: type 000, SRC_MODE 10 (0x8000, T-CNT-1). -/
theorem test_decode_beacon :
    decodeBytes .fc16 [0x00, 0x80] = .ok (.contentBeacon { noFc with srcMode := 2 }) := by decide

/-- Data: V1's 0x8841, and 0xD849 of the fixture S: SECURITY, PAN_ID_COMPRESS, DST_MODE 2, VERSION 1, SRC_MODE 3. -/
theorem test_decode_data :
    decodeBytes .fc16 [0x41, 0x88] =
      .ok (.contentData { noFc with panIdCompress := true, dstMode := 2, srcMode := 2 }) ∧
    decodeBytes .fc16 [0x49, 0xd8] = .ok (.contentData
      { noFc with security := true, panIdCompress := true, dstMode := 2, version := 1, srcMode := 3 }) := by decide

/-- Acknowledgement: 0000 0000 0011 0010, FRAME_PENDING (bit 4) and ACK_REQUEST (bit 5). -/
theorem test_decode_ack :
    decodeBytes .fc16 [0x32, 0x00] = .ok (.contentAck { noFc with framePending := true, ackRequest := true }) := by
  decide

/-- Command: type 011, reserved bits 9:7 all set, VERSION 2. -/
theorem test_decode_command :
    decodeBytes .fc16 [0x83, 0x23] = .ok (.contentCommand { noFc with rsvd := 7, version := 2 }) := by decide

/-- Types 4 to 7 (T-FC-6: 0x8805, type 5). -/
theorem test_decode_invalid :
    decodeBytes .fc16 [0x05, 0x88] = .ok (.contentInvalid 5 { noFc with dstMode := 2, srcMode := 2 }) ∧
    decodeBytes .fc16 [0x04, 0x00] = .ok (.contentInvalid 4 noFc) ∧
    decodeBytes .fc16 [0x07, 0x00] = .ok (.contentInvalid 7 noFc) := by decide

/-- The eight levels, each with another field set: KEY_ID_MODE bits 4:3, FC_SUPPRESS bit 5, ASN_IN_NONCE bit 6,
reserved bit 7. -/
theorem test_decode_levels :
    decodeBytes .sc8 [0x08] = .ok (.secNone { noSc with keyIdMode := 1 }) ∧
    decodeBytes .sc8 [0x21] = .ok (.secMic32 { noSc with fcSuppress := true }) ∧
    decodeBytes .sc8 [0x42] = .ok (.secMic64 { noSc with asnInNonce := true }) ∧
    decodeBytes .sc8 [0x83] = .ok (.secMic128 { noSc with rsvd := true }) ∧
    decodeBytes .sc8 [0x0c] = .ok (.secEnc { noSc with keyIdMode := 1 }) ∧
    decodeBytes .sc8 [0x0d] = .ok (.secEncMic32 { noSc with keyIdMode := 1 }) ∧
    decodeBytes .sc8 [0x16] = .ok (.secEncMic64 { noSc with keyIdMode := 2 }) ∧
    decodeBytes .sc8 [0x1f] = .ok (.secEncMic128 { noSc with keyIdMode := 3 }) := by decide

/-- Byte strings of a wrong length are refused by name. -/
theorem test_decode_wrong_length :
    decodeBytes .cmd32 [1, 0, 0] = .error (.wrongLength .cmd32 3) ∧
    decodeBytes .fc16 [] = .error (.wrongLength .fc16 0) ∧
    decodeBytes .sc8 [0, 0] = .error (.wrongLength .sc8 2) := by decide

/-- No two rows of the table match one word: some bit both rows test differs (R110). -/
theorem test_rows_do_not_overlap :
    (cmdRows.Pairwise fun a b => (a.mask &&& b.mask) &&& (a.pattern ^^^ b.pattern) ≠ 0) ∧
    (fcRows.Pairwise fun a b => (a.mask &&& b.mask) &&& (a.pattern ^^^ b.pattern) ≠ 0) ∧
    (scRows.Pairwise fun a b => (a.mask &&& b.mask) &&& (a.pattern ^^^ b.pattern) ≠ 0) := by decide

/-- The host's two entries: the table's numbering, and the next step runs the word. -/
theorem test_table_word :
    decodeTableWord 32 4 = some .verify ∧
    decodeTableWord 16 0x8805 = some (.contentInvalid 5 { noFc with dstMode := 2, srcMode := 2 }) ∧
    decodeTableWord 8 0x0d = some (.secEncMic32 { noSc with keyIdMode := 1 }) ∧ decodeTableWord 24 0 = none := by decide

theorem test_fetch_word :
    nextIs (step (State.reset.withFetchWord 32 0x105)) (fun t => t.status.word == 0x00053002) = true ∧
    nextIs (step (State.reset.withFetchWord 16 0x0001)) (fun t => t.engine == .consumed 0) = true ∧
    nextIs (step (State.reset.withFetchWord 16 0x8000)) (fun t => t.engine == .consumed 0) = true ∧
    nextIs (step (State.reset.withFetchWord 8 0x00)) (fun t => t.engine == .sealed [] []) = true ∧
    nextIs (step (State.reset.withFetchWord 8 0x0d)) (fun t => t.engine == .sealed [] [0, 0, 0, 0]) = true := by
  decide +kernel

/-! ## The commands, one step each (spec/95_test_vectors.md) -/

/-- T-CMD-2: NOP after a DECODE keeps FRAME_VALID and VERIFIED. -/
theorem test_nop :
    nextIs (exec .nop { State.reset with status := { Status.reset with
        frameValid := true, verified := true, code := .sequenceError, errVal := 7, secPhase := .rejected } })
      (fun t => t.status.word == 0x0500000C) = true := by decide +kernel

/-- T-CMD-5: 0x000000FF. -/
theorem test_illegal :
    nextIs (exec (.illegal 0xFF) State.reset) (fun t => t.status.word == 0x00FF3002) = true := by decide +kernel

/-- V1 under Explicit. -/
theorem test_decode_v1 :
    nextIs (exec .decode (explicit (inFrame v1))) (fun t =>
      t.status.word == 0x00000004 && regRead .hdrCtrl t == 0x00918841 && t.hdr.dstPan == 0x208f &&
      t.hdr.dstLo == 0xffff && t.hdr.srcPan == 0x208f && t.hdr.srcLo == 0x4433 && t.hdrLen == 9 &&
      t.payload == ⟨9, 0⟩ && t.footer == 0) = true := by decide +kernel

/-- T-AUX-6: the counter field at offset 4 does not fit. -/
theorem test_decode_short_counter :
    nextIs (exec .decode (inFrame [0x09, 0x10, 0x2d, 0x0d, 0x05, 0x00])) (fun t =>
      t.status.word == 0x00041002 && t.hdr == HeaderRegs.reset) = true := by decide +kernel

/-- T-AUX-4 (mode 3, 9 bytes) and T-AUX-8 (mode 2, 5 bytes at offset 8). -/
theorem test_decode_key_identifiers :
    nextIs (exec .decode (inFrame [0x09, 0x10, 0x2d, 0x1f, 1, 0, 0, 0, 0xa1, 0xa2, 0xa3, 0xa4, 0xa5, 0xa6, 0xa7, 0xa8,
        0xa9])) (fun t =>
      t.hdr.auxFc == 1 && t.hdr.kid0 == 0xA4A3A2A1 && t.hdr.kid1 == 0xA8A7A6A5 && t.hdr.kid2 == 0xA9 &&
      t.hdrLen == 17) = true ∧
    nextIs (exec .decode (inFrame [0x09, 0x10, 0x2d, 0x15, 5, 0, 0, 0, 1, 2])) (fun t =>
      t.status.word == 0x00081002) = true := by decide +kernel

/-- V2. -/
theorem test_encode_v2 :
    nextIs (exec .encode (inRegs v2 [0xde, 0xf0])) (fun t =>
      t.len == 13 && t.mem.readBuf .fbuf 0 13 ==
        some [0x01, 0x88, 0x01, 0x34, 0x12, 0x78, 0x56, 0x21, 0x43, 0xbc, 0x9a, 0xde, 0xf0] &&
      t.hdrLen == 11 && t.payload == ⟨11, 2⟩ && t.status.word == 0) = true := by decide +kernel

/-- V3: the source PAN identifier is not written. -/
theorem test_encode_v3 :
    nextIs (exec .encode (inRegs v3 [])) (fun t =>
      t.mem.readBuf .fbuf 0 15 ==
        some [0x42, 0x8c, 0xff, 0x34, 0x12, 0x88, 0x77, 0x66, 0x55, 0x44, 0x33, 0x22, 0x11, 0xbc, 0x9a]) = true := by
  decide +kernel

/-- T-SEC-1. -/
theorem test_secure :
    nextIs (exec .secure (toSecure 0x0d [1, 2, 3] (sealTape (some ([1, 3, 1], [0x33, 0x34, 0x35, 0x36]))))) (fun t =>
      t.status.word == 0x04000010 && t.plen == 7 && t.hdr.auxFc == 5 && t.frameCounter == 6 &&
      t.mem.readBuf .pbuf 0 7 == some [1, 3, 1, 0x33, 0x34, 0x35, 0x36] &&
      t.ports.log == [.keyLookup 2 1 [1] (some (.short 0x1234 0xffff)), .aeadInit key,
        .aeadSeal key (nonce 5) [] [1, 2, 3] 4]) = true := by decide +kernel

/-- T-SEC-8: the counter is exhausted. -/
theorem test_secure_exhausted :
    nextIs (exec .secure { toSecure 0x0d [1, 2, 3] Ports.none with frameCounter := 0xFFFFFFFF }) (fun t =>
      t.status.word == 0x05002102 && t.plen == 3 && t.frameCounter == 0xFFFFFFFF) = true := by decide +kernel

/-- T-SEC-15: level None with security on. -/
theorem test_secure_none :
    nextIs (exec .secure (toSecure 0x08 [1, 2, 3] (sealTape none))) (fun t =>
      t.status.word == 0x04000010 && t.plen == 3 && t.frameCounter == 6 && t.mem.readBuf .pbuf 0 3 == some [1, 2, 3] &&
      t.ports.log == [.keyLookup 2 1 [1] (some (.short 0x1234 0xffff)), .aeadInit key]) = true := by decide +kernel

/-- T-VER-1. -/
theorem test_verify :
    nextIs (exec .verify (toVerify 0x0d [1, 3, 1, 0x33, 0x34, 0x35, 0x36] (openTape (some [1, 2, 3])))) (fun t =>
      t.status.word == 0x0400000C && regRead .payload t == 0x00000315 &&
      t.mem.readBuf .fbuf 21 7 == some [1, 2, 3, 0x33, 0x34, 0x35, 0x36] && t.frameCounter == 0xFFFFFFFF &&
      t.ports.log == [.keyLookup 2 1 [1] (some (.short 0x1234 0xffff)), .aeadInit key,
        .aeadOpen key (nonce 5) [] [1, 3, 1] [0x33, 0x34, 0x35, 0x36] 4]) = true := by decide +kernel

/-- T-VER-5: a tag the AEAD refuses. -/
theorem test_verify_failure :
    nextIs (exec .verify (toVerify 0x0d [1, 3, 1, 0x33, 0x34, 0x35, 0xc9] (openTape none))) (fun t =>
      t.status.word == 0x05002402 && regRead .payload t == 0x00000015 &&
      t.mem.readBuf .fbuf 21 3 == some [1, 3, 1]) = true := by decide +kernel

/-! ## The rows, one step each -/

/-- T-CNT-1's beacon: 4 of 6 bytes are content. -/
theorem test_content_beacon :
    nextIs (exec (.contentBeacon { noFc with srcMode := 2 })
        (ports (bodyTape [.ok 4] []) ((inFrame [0, 0x80, 7, 0x34, 0x12, 1, 0, 0xff, 0xcf, 0, 0, 0xde, 0xad]).withEngine
          (.decoding 0x8000 7 13))))
      (fun t => t.engine == .consumed 4 && t.ports.log == [.bodyDecode .beacon [0xff, 0xcf, 0, 0, 0xde, 0xad]]) =
      true := by decide +kernel

/-- T-CNT-5's acknowledgement has no content (R170). -/
theorem test_content_data_ack :
    nextIs (exec (.contentData noFc) (pending (.decoding 0x0001 3 5) Ports.none)) (fun t => t.engine == .consumed 0) =
      true ∧
    nextIs (exec (.contentAck noFc) (pending (.encoding 0x0002 3 124) Ports.none)) (fun t => t.engine == .produced []) =
      true := by decide +kernel

/-- T-CNT-7: the command codec's error, at the header's length. -/
theorem test_content_command :
    nextIs (exec (.contentCommand noFc) (pending (.encoding 0x0003 3 124) (bodyTape [] [.err (.other 3)]))) (fun t =>
      t.engine == .raised .invalidValue 3 && t.ports.log == [.bodyEncode .command 124]) = true := by decide +kernel

/-- T-FC-5 and T-FC-6: an address mode of 1 comes before the frame type. -/
theorem test_content_invalid :
    nextIs (exec (.contentInvalid 5 { noFc with dstMode := 2, srcMode := 1 }) (pending (.decoding 0x4805 0 0) Ports.none))
      (fun t => t.engine == .raised .invalidAddressMode 1) = true ∧
    nextIs (exec (.contentInvalid 5 { noFc with dstMode := 2, srcMode := 2 }) (pending (.decoding 0x8805 0 0) Ports.none))
      (fun t => t.engine == .raised .invalidFrameType 5) = true := by decide +kernel

/-- A row in SECURE, asked to seal [1, 2, 3] with the nonce of its level. -/
def seals (i : Instr) (sc : Byte) (a : Option (Bytes × Bytes)) (p : State → Bool) : Bool :=
  nextIs (exec i (pending (.sealing sc key (nonce sc) [1, 2, 3]) (sealTape a))) p

/-- A row in VERIFY, asked to open [1, 3, 1] and a tag with the nonce of its level. -/
def opens (i : Instr) (sc : Byte) (tag : Bytes) (a : Option Bytes) (p : State → Bool) : Bool :=
  nextIs (exec i (pending (.opening sc key (nonce sc) [1, 3, 1] tag) (openTape a))) p

/-- T-SEC-15: no port call. -/
theorem test_sec_none :
    seals (.secNone noSc) 0 none (fun t => t.engine == .sealed [1, 2, 3] [] && t.ports.log == []) = true ∧
    opens (.secNone noSc) 0 [] none (fun t => t.engine == .opened [1, 3, 1] && t.ports.log == []) = true := by
  decide +kernel

/-- T-SEC-13: the payload is associated data and stays. -/
theorem test_sec_mic32 :
    seals (.secMic32 noSc) 1 (some ([], [0x30, 0x31, 0x32, 0x33])) (fun t =>
      t.engine == .sealed [1, 2, 3] [0x30, 0x31, 0x32, 0x33] &&
      t.ports.log == [.aeadSeal key (nonce 1) [1, 2, 3] [] 4]) = true := by decide +kernel

/-- R180: the tag of MIC64 is 8 bytes. -/
theorem test_sec_mic64 :
    seals (.secMic64 noSc) 2 (some ([], [0, 1, 2, 3, 4, 5, 6, 7])) (fun t =>
      t.engine == .sealed [1, 2, 3] [0, 1, 2, 3, 4, 5, 6, 7] &&
      t.ports.log == [.aeadSeal key (nonce 2) [1, 2, 3] [] 8]) = true := by decide +kernel

/-- R180, R182: the tag of MIC128 is 16 bytes; opened, the body stays. -/
theorem test_sec_mic128 :
    opens (.secMic128 noSc) 3 key (some []) (fun t =>
      t.engine == .opened [1, 3, 1] && t.ports.log == [.aeadOpen key (nonce 3) [1, 3, 1] [] key 16]) = true := by
  decide +kernel

/-- T-SEC-14: no tag. -/
theorem test_sec_enc :
    seals (.secEnc noSc) 4 (some ([1, 3, 1], [])) (fun t =>
      t.engine == .sealed [1, 3, 1] [] && t.ports.log == [.aeadSeal key (nonce 4) [] [1, 2, 3] 0]) = true := by
  decide +kernel

/-- T-SEC-1's transform, and an answer whose tag is short: PORT_CONTRACT (R257). -/
theorem test_sec_encmic32 :
    seals (.secEncMic32 noSc) 5 (some ([1, 3, 1], [0x33, 0x34, 0x35, 0x36])) (fun t =>
      t.engine == .sealed [1, 3, 1] [0x33, 0x34, 0x35, 0x36]) = true ∧
    (match exec (.secEncMic32 noSc) (pending (.sealing 5 key (nonce 5) [1]) (sealTape (some ([1], [9])))) with
      | .fault .portContract => true
      | _ => false) = true := by decide +kernel

/-- R181: Err is KeyFailure(0). -/
theorem test_sec_encmic64 :
    seals (.secEncMic64 noSc) 6 none (fun t => t.engine == .raised .keyFailure 0) = true := by decide +kernel

/-- R182: Err is Fail. -/
theorem test_sec_encmic128 :
    opens (.secEncMic128 noSc) 7 key none (fun t =>
      t.engine == .openFailed && t.ports.log == [.aeadOpen key (nonce 7) [] [1, 3, 1] key 16]) = true := by
  decide +kernel

/-- A row between commands stops by name (R2). -/
theorem test_no_dispatch :
    (match exec (.secEnc noSc) State.reset with
      | .refused .noDispatch => true
      | _ => false) = true := by decide +kernel

/-! ## Witnesses: states that meet the hypotheses of the obligations, clause by clause -/

/-- The outcome of a host write is a next state with the given property. -/
def overIs (u : Turn) (p : State → Bool) : Bool :=
  match u with
  | .over o => nextIs o p
  | .run _ _ => false

theorem overIs_elim {u : Turn} {p : State → Bool} (h : overIs u p = true) :
    ∃ t, u = .over (.next t) ∧ p t = true := by
  rcases u with ⟨i, s⟩ | o
  · exact absurd h Bool.false_ne_true
  · obtain ⟨t, rfl, ht⟩ := nextIs_elim h
    exact ⟨t, rfl, ht⟩

/-- What V1 decodes to. -/
def v1Hdr : Hdr :=
  { fc := 0x8841, seq := 0x91, dst := some (.short 0x208f 0xffff), src := some (.short 0x208f 0x4433), aux := none }

/-- T-CNT-1's beacon frame: 7 header bytes and 6 more. -/
def beaconFrame : Bytes := [0, 0x80, 7, 0x34, 0x12, 1, 0, 0xff, 0xcf, 0, 0, 0xde, 0xad]

/-- What it decodes to. -/
def beaconHdr : Hdr := { fc := 0x8000, seq := 7, dst := none, src := some (.short 0x1234 1), aux := none }

/-- A MAC command frame with no address and one byte after its header. -/
def commandFrame : Bytes := [0x03, 0x00, 5, 4]

/-- What it decodes to. -/
def commandHdr : Hdr := { fc := 0x0003, seq := 5, dst := none, src := none, aux := none }

/-- Header registers of a frame type with no address. -/
def bare (fc : Half) : HeaderRegs := { HeaderRegs.reset with fc := fc }

/-- A state on which a 32-bit write to CMD is next. -/
def writes (w : Word) (s : State) : State := { s with host := [.write s.platform.base 32 w] }

theorem witness_DecodeOfEncodeIsTheInstruction :
    (Instr.illegal 5).WellFormed ∧ (Instr.illegal 0xFFFFFFFF).WellFormed ∧ (Instr.contentInvalid 4 noFc).WellFormed ∧
    (Instr.secEncMic128 noSc).WellFormed := by decide

theorem witness_EveryWordHasOneMeaning :
    ([1, 0, 0, 0] : Bytes).length = Format.cmd32.bytes ∧ ([0x41, 0x88] : Bytes).length = Format.fc16.bytes ∧
    ([0x0d] : Bytes).length = Format.sc8.bytes ∧ ([1] : Bytes).length ≠ Format.cmd32.bytes := by decide

theorem witness_DecoderFollowsTheOpcodeTable :
    0xFFFFFFFF < 2 ^ (8 * Format.cmd32.bytes) ∧ 0xFFFF < 2 ^ (8 * Format.fc16.bytes) ∧
    0xFF < 2 ^ (8 * Format.sc8.bytes) := by decide

theorem witness_StepRunsTheDecodedInstruction :
    ((writes 5 State.reset).engine.pendingRow = none ∧ (writes 5 State.reset).status.busy = false ∧
      (writes 5 State.reset).host = [.write (writes 5 State.reset).platform.base 32 5] ∧
      decodeBytes .cmd32 (le32 5) = .ok (.illegal 5)) ∧
    ((pending (.decoding 0x0001 3 5) Ports.none).engine = .decoding 0x0001 3 5 ∧
      (pending (.encoding 0x0001 3 5) Ports.none).engine = .encoding 0x0001 3 5 ∧
      decodeBytes .fc16 (le16 0x0001) = .ok (.contentData noFc)) ∧
    ((pending (.sealing 0x0d key key []) Ports.none).engine = .sealing 0x0d key key [] ∧
      (pending (.opening 0x0d key key [] key) Ports.none).engine = .opening 0x0d key key [] key ∧
      decodeBytes .sc8 [0x0d] = .ok (.secEncMic32 { noSc with keyIdMode := 1 })) := by decide +kernel

theorem witness_IllegalWordsReportThemselves : 5 ≤ (5 : Word).toNat ∧ 5 ≤ (0xFFFFFFFF : Word).toNat := by decide

/-- Each clause: one byte; an address mode of 1; a frame type of 4; a version of 3; a word that passes. -/
theorem witness_FrameControlChecksInOrder :
    (inFrame [0x41]).len.toNat < 2 ∧
    (2 ≤ (inFrame [0x41, 0x84]).len.toNat ∧ (inFrame [0x41, 0x84]).mem.readBuf .fbuf 0 2 = some [0x41, 0x84] ∧
      ((0x84 : Byte) ++ (0x41 : Byte)).extractLsb' 10 2 = (1 : BitVec 2)) ∧
    (2 ≤ (inFrame [0x04, 0x00]).len.toNat ∧ (inFrame [0x04, 0x00]).mem.readBuf .fbuf 0 2 = some [0x04, 0x00] ∧
      4 ≤ (((0x00 : Byte) ++ (0x04 : Byte)).extractLsb' 0 3).toNat) ∧
    (2 ≤ (inFrame [0x01, 0xb8]).len.toNat ∧ (inFrame [0x01, 0xb8]).mem.readBuf .fbuf 0 2 = some [0x01, 0xb8] ∧
      ((0xb8 : Byte) ++ (0x01 : Byte)).extractLsb' 12 2 = (3 : BitVec 2)) ∧
    (2 ≤ (inFrame v1).len.toNat ∧ (inFrame v1).mem.readBuf .fbuf 0 2 = some [0x41, 0x88]) := by decide +kernel

/-- Ten defined bytes; ends that just fit and just do not. -/
theorem witness_AddressDecodeReadsTheWire :
    (¬(Role.dst = .src ∧ true = true ∧ (none : Option Address).isSome)) ∧
    (1 < 0 + 2 ∧ 3 < 0 + 4 ∧ 9 < 0 + 10 ∧ 7 < 0 + 8) ∧
    ((0 + 4 ≤ 4) ∧ (inFrame v1).mem.readBuf .fbuf 0 2 = some [0x41, 0x88] ∧
      (inFrame v1).mem.readBuf .fbuf (0 + 2) 2 = some [0x91, 0x8f]) ∧
    ((0 + 10 ≤ 10) ∧
      (inFrame v1).mem.readBuf .fbuf (0 + 2) 8 = some [0x91, 0x8f, 0x20, 0xff, 0xff, 0x33, 0x44, 0x00]) ∧
    (Role.src = .src ∧ true = true ∧ some (Address.short 0x208f 0xffff) = some (.short 0x208f 0xffff)) ∧
    ((0 + 8 ≤ 8) ∧ (inFrame v1).mem.readBuf .fbuf 0 8 = some [0x41, 0x88, 0x91, 0x8f, 0x20, 0xff, 0xff, 0x33]) := by
  decide +kernel

/-- A control byte of 0x0d with a counter (version 1) and of 0x2d without (version 2); ends that just fit and just do
not. -/
theorem witness_AuxDecodeReadsTheWire :
    (15 < 15 + 1) ∧
    (15 + 1 ≤ 21 ∧ (inFrame (wireS 0x0d)).mem.readBuf .fbuf 15 1 = some [0x0d] ∧ fcPresent 1 0x0d = true ∧
      19 < 15 + 5 ∧ 15 + 5 ≤ 21 ∧ (inFrame (wireS 0x0d)).mem.readBuf .fbuf (15 + 1) 4 = some [5, 0, 0, 0] ∧
      20 < 15 + 5 + kidLen (scKeyIdMode 0x0d) ∧ 15 + 5 + kidLen (scKeyIdMode 0x0d) ≤ 21 ∧
      (inFrame (wireS 0x0d)).mem.readBuf .fbuf (15 + 5) (kidLen (scKeyIdMode 0x0d)) = some [1]) ∧
    ((inFrame (wireS 0x2d)).mem.readBuf .fbuf 15 1 = some [0x2d] ∧ fcPresent 2 0x2d = false ∧
      16 < 15 + 1 + kidLen (scKeyIdMode 0x2d) ∧ 15 + 1 + kidLen (scKeyIdMode 0x2d) ≤ 17 ∧
      (inFrame (wireS 0x2d)).mem.readBuf .fbuf (15 + 1) (kidLen (scKeyIdMode 0x2d)) = some [5]) := by decide +kernel

/-- V1's header; T-AUX-6; T-FRM-2, whose footer lacks one byte. -/
theorem witness_HeaderDecodeNeedsItsOwnBytes :
    (headerDecode (inFrame v1).mem 11 = .ok (v1Hdr, 9) ∧ 9 ≤ 9 ∧ 8 < 9 ∧
      ∀ i, i < 9 → ((inFrame v1).mem.write 0x109 7).read (0x100 + i) = (inFrame v1).mem.read (0x100 + i)) ∧
    headerDecode (inFrame [0x09, 0x10, 0x2d, 0x0d, 0x05, 0x00]).mem
      (inFrame [0x09, 0x10, 0x2d, 0x0d, 0x05, 0x00]).len.toNat = .error (.raise .notEnoughBytes 4) ∧
    (headerDecode (inFrame [1, 0, 0x2a, 0xbb]).mem (inFrame [1, 0, 0x2a, 0xbb]).len.toNat =
        .ok ({ fc := 0x0001, seq := 0x2a, dst := none, src := none, aux := none }, 3) ∧
      (explicit (inFrame [1, 0, 0x2a, 0xbb])).len.toNat <
        3 + footerLen (explicit (inFrame [1, 0, 0x2a, 0xbb])).footerMode) := by decide +kernel

theorem witness_HeaderLengthIsHdrLen :
    headerDecode (inFrame v1).mem 11 = .ok (v1Hdr, 9) ∧ fcDstMode v3.fc ≠ 1 ∧ fcSrcMode v3.fc ≠ 1 ∧
    hdrLenOf v3.fc 0x1d = 15 := by
  decide +kernel

theorem witness_DecodeCommitsTheHeader :
    headerDecode (inFrame v1).mem (inFrame v1).len.toNat = .ok (v1Hdr, 9) ∧
    (∃ t, exec .decode (inFrame v1) = .next t ∧ (t.status.code == .ok) = true) ∧
    ∃ t, exec .decode State.reset = .next t ∧ (t.status.code != .ok) = true :=
  ⟨by decide +kernel, nextIs_elim (by decide +kernel), nextIs_elim (by decide +kernel)⟩

/-- The footer just fits: nine header bytes and two more. -/
theorem witness_DecodeOfEmptyContentCompletes :
    headerDecode (inFrame v1).mem (inFrame v1).len.toNat = .ok (v1Hdr, 9) ∧ fcType v1Hdr.fc = 1 ∧
    9 + footerLen (explicit (inFrame v1)).footerMode ≤ (explicit (inFrame v1)).len.toNat ∧
    footerDecode (explicit (inFrame v1)) = some 0 := by decide +kernel

theorem witness_DecodeOfExternalContentCompletes :
    (headerDecode (inFrame beaconFrame).mem (inFrame beaconFrame).len.toNat = .ok (beaconHdr, 7) ∧
      fcType beaconHdr.fc = 0 ∧ 7 + footerLen .noFooter ≤ (inFrame beaconFrame).len.toNat ∧
      (inFrame beaconFrame).mem.readBuf .fbuf 7 (13 - 0 - 7) = some [0xff, 0xcf, 0, 0, 0xde, 0xad] ∧
      footerDecode (inFrame beaconFrame) = some 0 ∧
      (bodyTape [.ok 6] []).decodeAnswers .beacon = [.ok 6] ∧ 6 ≤ 6) ∧
    (headerDecode (inFrame commandFrame).mem (inFrame commandFrame).len.toNat = .ok (commandHdr, 3) ∧
      fcType commandHdr.fc = 3 ∧ (inFrame commandFrame).mem.readBuf .fbuf 3 (4 - 0 - 3) = some [4] ∧
      (bodyTape [.ok 1] []).decodeAnswers .command = [.ok 1]) := by decide +kernel

theorem witness_BodyErrorsNameTheContentOffset :
    (headerDecode (inFrame beaconFrame).mem (inFrame beaconFrame).len.toNat = .ok (beaconHdr, 7) ∧
      fcType beaconHdr.fc = 0 ∧ 7 + footerLen .noFooter ≤ (inFrame beaconFrame).len.toNat ∧
      (inFrame beaconFrame).mem.readBuf .fbuf 7 (13 - 0 - 7) = some [0xff, 0xcf, 0, 0, 0xde, 0xad] ∧
      (bodyTape [.err .notEnoughBytes] []).decodeAnswers .beacon = [.err .notEnoughBytes]) ∧
    (headerValidate (bare 0x0003) = .ok () ∧ fcType (bare 0x0003).fc = 3 ∧
      (bodyTape [] [.err (.other 3)]).encodeAnswers .command = [.err (.other 3)]) := by decide +kernel

theorem witness_FooterIsCopiedVerbatim :
    ((explicit (inFrame v1)).footerMode = .explicit ∧
      ∃ t, exec .decode (explicit (inFrame v1)) = .next t ∧ (t.status.code == .ok) = true) ∧
    ((inFrame v1).footerMode = .noFooter ∧ ∃ t, exec .decode (inFrame v1) = .next t ∧ (t.status.code == .ok) = true) ∧
    (∃ t, exec .encode (explicit (inRegs v3 [])) = .next t ∧ (t.status.code == .ok) = true) ∧
    (∃ t, exec .encode (inRegs v3 []) = .next t ∧ (t.status.code == .ok) = true) :=
  ⟨⟨rfl, nextIs_elim (by decide +kernel)⟩, ⟨rfl, nextIs_elim (by decide +kernel)⟩, nextIs_elim (by decide +kernel),
    nextIs_elim (by decide +kernel)⟩

/-- Each clause of the chain. -/
theorem witness_EncodeValidatesInOrder :
    (fcSecurity (bare 1).fc = false ∧ { bare 1 with auxPresent := true }.auxPresent = true) ∧
    (fcSecurity (bare 9).fc = true ∧ (bare 9).auxPresent = false) ∧ fcDstMode (bare 0x0401).fc = 1 ∧
    3 < (fcType (bare 4).fc).toNat ∧ fcVersion (bare 0x3001).fc = 3 ∧ headerValidate v3 = .ok () := by decide +kernel

/-- A frame that fits and one of 128 bytes. -/
theorem witness_EncodeOfEmptyContentCompletes :
    headerValidate (inRegs v2 [0xde, 0xf0]).hdr = .ok () ∧ fcType v2.fc = 1 ∧ fcType v3.fc = 2 ∧
    (inRegs v2 [0xde, 0xf0]).mem.readBuf .pbuf 0 (inRegs v2 [0xde, 0xf0]).plen.toNat = some [0xde, 0xf0] ∧
    (headerEncode v2 ++ [0xde, 0xf0] ++ footerEncode (inRegs v2 [0xde, 0xf0])).length ≤ 127 ∧
    (inRegs (bare 1) (List.replicate 125 0x55)).mem.readBuf .pbuf 0 125 = some (List.replicate 125 0x55) ∧
    127 < (headerEncode (bare 1) ++ List.replicate 125 0x55 ++ footerEncode State.reset).length := by decide +kernel

/-- A body that just fits, and no space left behind a payload of 125 bytes. -/
theorem witness_EncodeOfExternalContentCompletes :
    (headerValidate (bare 0x0000) = .ok () ∧ fcType (bare 0x0000).fc = 0 ∧ fcType (bare 0x0003).fc = 3) ∧
    ((inRegs (bare 0x0000) []).mem.readBuf .pbuf 0 (inRegs (bare 0x0000) []).plen.toNat = some [] ∧
      (bodyTape [] [.ok [0xb0, 0xb1]]).encodeAnswers .beacon = [.ok [0xb0, 0xb1]] ∧
      (List.replicate 124 (0xb0 : Byte)).length ≤ 127 - (headerEncode (bare 0x0000)).length - 0 - 0 ∧
      (headerEncode (bare 0x0000) ++ List.replicate 124 0xb0 ++ [] ++ footerEncode State.reset).length ≤ 127) ∧
    ((inRegs (bare 0x0003) (List.replicate 125 7)).mem.readBuf .pbuf 0 125 = some (List.replicate 125 7) ∧
      ([] : Bytes).length ≤ 127 - (headerEncode (bare 0x0003)).length - 125 - 0 ∧
      127 < (headerEncode (bare 0x0003) ++ [] ++ List.replicate 125 7 ++ footerEncode State.reset).length) := by
  decide +kernel

theorem witness_HeaderEncodeWritesTheWire : fcDstMode v3.fc ≠ 1 ∧ fcSrcMode v3.fc ≠ 1 := by decide

theorem witness_PanCompressionSavesTwoBytes :
    (fcDstMode v3.fc ≠ 1 ∧ fcSrcMode v3.fc ≠ 1 ∧ fcDstMode v3.fc ≠ 0 ∧ fcSrcMode v3.fc ≠ 0) ∧
    (fcDstMode (bare 1).fc ≠ 1 ∧ fcSrcMode (bare 1).fc ≠ 1) := by decide

theorem witness_EncodeThenDecodeRoundTrips :
    (v3.canonical = true ∧ (inRegs v3 []).bodyRoundTrips ∧
      ∃ t, exec .encode (inRegs v3 []) = .next t ∧ (t.status.code == .ok) = true) ∧
    ((bare 0).canonical = true ∧
      (ports (bodyTape [.ok 2] [.ok [0xb0, 0xb1]]) (inRegs (bare 0) [7])).bodyRoundTrips ∧
      ∃ t, exec .encode (ports (bodyTape [.ok 2] [.ok [0xb0, 0xb1]]) (inRegs (bare 0) [7])) = .next t ∧
        (t.status.code == .ok) = true) :=
  ⟨⟨by decide +kernel, trivial, nextIs_elim (by decide +kernel)⟩,
    ⟨by decide +kernel, ⟨[0xb0, 0xb1], [], [], rfl, rfl⟩, nextIs_elim (by decide +kernel)⟩⟩

/-- Each clause of the chain. -/
theorem witness_SecureChecksInOrder :
    { Status.reset with secured := true }.secured = true ∧
    (fcSecurity (bare 1).fc = false ∧ { bare 1 with auxPresent := true }.auxPresent = true) ∧
    (fcSecurity (bare 9).fc = true ∧ (bare 9).auxPresent = false) ∧
    (fcSecurity (bare 1).fc = false ∧ (bare 1).auxPresent = false) ∧ fcDstMode { fixS 0x0d with fc := 0xD449 }.fc = 1 ∧
    127 < 112 + tagLen (fixS 0x0f).level ∧ { State.reset with frameCounter := 0xFFFFFFFF }.frameCounter = 0xFFFFFFFF ∧
    secureChecks (toSecure 0x0f (List.replicate 111 0) Ports.none) = .ok () := by decide +kernel

/-- Each clause of the chain. -/
theorem witness_VerifyChecksInOrder :
    State.reset.status.frameValid = false ∧
    { Status.reset with frameValid := true, verified := true }.verified = true ∧
    (fcSecurity (bare 1).fc = false ∧ (bare 1).auxPresent = false) ∧ fcDstMode { fixS 0x0d with fc := 0xD449 }.fc = 1 ∧
    { fixS 0x0d with auxFc := 0xFFFFFFFF }.auxFc = 0xFFFFFFFF ∧ fcPresent (fcVersion (fixS 0x0d).fc) 0x0d = true ∧
    fcPresent 2 0x2d = false ∧ verifyChecks (toVerify 0x0d [1] Ports.none) = .ok () := by decide +kernel

/-- KEY_LOOKUP answers Miss; it hits and AEAD.init answers Err; AEAD.seal answers Err. -/
theorem witness_KeyAndInitFailures :
    (secureGuard (toSecure 0x0d [1] Ports.none) = .ok () ∧ secureChecks (toSecure 0x0d [1] Ports.none) = .ok () ∧
      verifyGuard (toVerify 0x0d [1] Ports.none) = .ok () ∧ verifyChecks (toVerify 0x0d [1] Ports.none) = .ok () ∧
      fcSecurity (fixS 0x0d).fc = true) ∧
    { Ports.none with keyLookup := [none] }.keyLookup = [none] ∧
    ({ Ports.none with keyLookup := [some key], aeadInit := [none] }.keyLookup = [some key] ∧
      { Ports.none with keyLookup := [some key], aeadInit := [none] }.aeadInit = [none]) ∧
    ((fixS 0x0d).level ≠ 0 ∧ (sealTape none).keyLookup = [some key] ∧ (sealTape none).aeadInit = [some key] ∧
      (sealTape none).aeadSeal = [none] ∧ extAddrOf Platform.default (fixS 0x0d).srcAddr = some 0x0102030405060708 ∧
      (toSecure 0x0d [1] (sealTape none)).mem.readBuf .pbuf 0 1 = some [1]) := by decide +kernel

/-- T-SEC-12: a Short source has no extended address. -/
theorem witness_NonceLayoutAndItsAddress :
    secureGuard { toSecure 0x0d [1] (sealTape none) with hdr := { fixS 0x0d with fc := 0x9849 } } = .ok () ∧
    secureChecks { toSecure 0x0d [1] (sealTape none) with hdr := { fixS 0x0d with fc := 0x9849 } } = .ok () ∧
    verifyGuard { toVerify 0x0d [1] (sealTape none) with hdr := { fixS 0x0d with fc := 0x9849 } } = .ok () ∧
    verifyChecks { toVerify 0x0d [1] (sealTape none) with hdr := { fixS 0x0d with fc := 0x9849 } } = .ok () ∧
    fcSecurity (0x9849 : Half) = true ∧ (sealTape none).keyLookup = [some key] ∧ (sealTape none).aeadInit = [some key] ∧
    extAddrOf Platform.default { fixS 0x0d with fc := 0x9849 }.srcAddr = none := by decide +kernel

/-- T-SEC-1 (an encrypting level) and T-SEC-13 (a MIC level). -/
theorem witness_SecureCompletes :
    (secureGuard (toSecure 0x0d [1, 2, 3] Ports.none) = .ok () ∧
      secureChecks (toSecure 0x0d [1, 2, 3] Ports.none) = .ok () ∧ fcSecurity (fixS 0x0d).fc = true ∧
      (fixS 0x0d).level ≠ 0 ∧
      (sealTape (some ([1, 3, 1], [1, 2, 3, 4]))).aeadSeal = [some ([1, 3, 1], [1, 2, 3, 4])] ∧
      extAddrOf Platform.default (fixS 0x0d).srcAddr = some 0x0102030405060708 ∧
      (toSecure 0x0d [1, 2, 3] Ports.none).mem.readBuf .pbuf 0 (toSecure 0x0d [1, 2, 3] Ports.none).plen.toNat =
        some [1, 2, 3] ∧
      ([1, 3, 1] : Bytes).length = (if (fixS 0x0d).level.toNat ≤ 3 then 0 else ([1, 2, 3] : Bytes).length) ∧
      ([1, 2, 3, 4] : Bytes).length = tagLen (fixS 0x0d).level) ∧
    (secureChecks (toSecure 0x09 [1, 2, 3] Ports.none) = .ok () ∧ (fixS 0x09).level ≠ 0 ∧
      ([] : Bytes).length = (if (fixS 0x09).level.toNat ≤ 3 then 0 else ([1, 2, 3] : Bytes).length) ∧
      ([1, 2, 3, 4] : Bytes).length = tagLen (fixS 0x09).level) := by decide +kernel

/-- T-VER-1 (an encrypting level), T-VER-2 (a MIC level), and a body that is empty. -/
theorem witness_VerifyCompletes :
    (verifyGuard (toVerify 0x0d [1, 3, 1, 5, 6, 7, 8] Ports.none) = .ok () ∧
      verifyChecks (toVerify 0x0d [1, 3, 1, 5, 6, 7, 8] Ports.none) = .ok () ∧ fcSecurity (fixS 0x0d).fc = true ∧
      (fixS 0x0d).level ≠ 0 ∧ (openTape (some [1, 2, 3])).aeadOpen = [some [1, 2, 3]] ∧
      extAddrOf Platform.default (fixS 0x0d).srcAddr = some 0x0102030405060708 ∧
      (toVerify 0x0d [1, 3, 1, 5, 6, 7, 8] Ports.none).mem.readBuf .fbuf 21 7 =
        some ([1, 3, 1] ++ [5, 6, 7, 8]) ∧ ([5, 6, 7, 8] : Bytes).length = tagLen (fixS 0x0d).level ∧
      ([1, 2, 3] : Bytes).length = (if (fixS 0x0d).level.toNat ≤ 3 then 0 else ([1, 3, 1] : Bytes).length)) ∧
    ((toVerify 0x09 [5, 6, 7, 8] Ports.none).mem.readBuf .fbuf 21 4 = some ([] ++ [5, 6, 7, 8]) ∧
      ([] : Bytes).length = (if (fixS 0x09).level.toNat ≤ 3 then 0 else ([] : Bytes).length)) := by decide +kernel

theorem witness_LevelNoneRunsEveryStep :
    fcSecurity (fixS 0x08).fc = true ∧ (fixS 0x08).level = 0 ∧ (sealTape none).keyLookup = [some key] ∧
    (sealTape none).aeadInit = [some key] ∧
    extAddrOf Platform.default (fixS 0x08).srcAddr = some 0x0102030405060708 ∧
    (secureGuard (toSecure 0x08 [1, 2] Ports.none) = .ok () ∧ secureChecks (toSecure 0x08 [1, 2] Ports.none) = .ok () ∧
      (toSecure 0x08 [1, 2] Ports.none).mem.readBuf .pbuf 0 2 = some [1, 2]) ∧
    (verifyGuard (toVerify 0x08 [1, 2] Ports.none) = .ok () ∧ verifyChecks (toVerify 0x08 [1, 2] Ports.none) = .ok () ∧
      (toVerify 0x08 [1, 2] Ports.none).mem.readBuf .fbuf 21 2 = some [1, 2]) := by decide +kernel

/-- T-VER-7 (three bytes under a 4-byte tag) and T-VER-5 (the AEAD answers Err), the tag alone. -/
theorem witness_VerificationFailureDiscardsTheFrame :
    (verifyGuard (toVerify 0x0d [1, 3, 1] (openTape none)) = .ok () ∧
      verifyChecks (toVerify 0x0d [1, 3, 1] (openTape none)) = .ok () ∧ fcSecurity (fixS 0x0d).fc = true ∧
      (openTape none).keyLookup = [some key] ∧ (openTape none).aeadInit = [some key] ∧
      extAddrOf Platform.default (fixS 0x0d).srcAddr = some 0x0102030405060708 ∧
      (toVerify 0x0d [1, 3, 1] (openTape none)).payload.len.toNat < tagLen (fixS 0x0d).level) ∧
    ((fixS 0x0d).level ≠ 0 ∧
      tagLen (fixS 0x0d).level ≤ (toVerify 0x0d [1, 2, 3, 4] (openTape none)).payload.len.toNat ∧
      (toVerify 0x0d [1, 2, 3, 4] (openTape none)).mem.readBuf .fbuf 21 4 = some [1, 2, 3, 4] ∧
      (openTape none).aeadOpen = [none]) := by decide +kernel

theorem witness_EmptyContentRowsComplete :
    (pending (.decoding 0x0001 3 3) Ports.none).engine = .decoding 0x0001 3 3 ∧
    (pending (.encoding 0x0002 3 0) Ports.none).engine = .encoding 0x0002 3 0 := by decide +kernel

theorem witness_ExternalContentRowsComplete :
    ((inFrame beaconFrame).mem.readBuf .fbuf 7 (13 - 7) = some [0xff, 0xcf, 0, 0, 0xde, 0xad] ∧
      (bodyTape [.ok 6] []).decodeAnswers .command = [.ok 6] ∧ 6 ≤ 6) ∧
    ((bodyTape [] [.ok [9, 9]]).encodeAnswers .beacon = [.ok [9, 9]] ∧ ([9, 9] : Bytes).length ≤ 2) := by
  decide +kernel

theorem witness_InvalidContentRowRaises :
    4 ≤ (4 : BitVec 3).toNat ∧ 4 ≤ (7 : BitVec 3).toNat ∧
    (pending (.decoding 0x0004 0 0) Ports.none).engine = .decoding 0x0004 0 0 := by decide +kernel

/-- A row without and a row with encryption; answers within and outside the contract, and Err. -/
theorem witness_SealRowsFollowTheirLevel :
    (pending (.sealing 0x0d key key [1]) Ports.none).engine = .sealing 0x0d key key [1] ∧
    (Instr.secMic32 noSc, 4, false) ∈ [(Instr.secMic32 noSc, 4, false), (.secEnc noSc, 0, true)] ∧
    (sealTape (some ([], [1, 2, 3, 4]))).aeadSeal = [some ([], [1, 2, 3, 4])] ∧ (sealTape none).aeadSeal = [none] := by
  decide +kernel

theorem witness_OpenRowsFollowTheirLevel :
    (pending (.opening 0x0d key key [1] [1, 2, 3, 4]) Ports.none).engine = .opening 0x0d key key [1] [1, 2, 3, 4] ∧
    ([1, 2, 3, 4] : Bytes).length = 4 ∧ key.length = 16 ∧
    (Instr.secEncMic32 noSc, 4, true) ∈ [(Instr.secEncMic32 noSc, 4, true)] ∧
    (openTape (some [9])).aeadOpen = [some [9]] ∧ (openTape none).aeadOpen = [none] := by decide +kernel

theorem witness_RowsStopOutsideACommand :
    (Instr.secNone noSc).format ≠ .cmd32 ∧ (Instr.contentAck noFc).format ≠ .cmd32 ∧ State.reset.engine = .idle := by
  decide

theorem witness_RowsLeaveTheBlockAlone :
    (Instr.contentData noFc).format ≠ .cmd32 ∧
    ∃ t, exec (.contentData noFc) (pending (.decoding 0x0001 3 5) Ports.none) = .next t ∧
      (t.engine == .consumed 0) = true := ⟨by decide, nextIs_elim (by decide +kernel)⟩

/-- Seven of six bytes consumed; 125 bytes where 124 fit; a short tag; a plaintext of two bytes for three. -/
theorem witness_PortBreachesFault :
    (headerDecode (inFrame beaconFrame).mem (inFrame beaconFrame).len.toNat = .ok (beaconHdr, 7) ∧
      fcType beaconHdr.fc = 0 ∧
      (inFrame beaconFrame).mem.readBuf .fbuf 7 (13 - 0 - 7) = some [0xff, 0xcf, 0, 0, 0xde, 0xad] ∧
      ((bodyTape [.ok 7] []).decodeAnswers .beacon).headD (Config.bodyDecode .beacon 0 []) = .ok 7 ∧
      ([0xff, 0xcf, 0, 0, 0xde, 0xad] : Bytes).length < 7) ∧
    (headerValidate (bare 3) = .ok () ∧ fcType (bare 3).fc = 3 ∧
      ((bodyTape [] [.ok (List.replicate 125 0)]).encodeAnswers .command).headD (Config.bodyEncode .command 0 124) =
        .ok (List.replicate 125 0) ∧
      127 - (headerEncode (bare 3)).length - 0 - 0 < (List.replicate 125 (0 : Byte)).length) ∧
    (secureGuard (toSecure 0x0d [1, 2, 3] Ports.none) = .ok () ∧
      secureChecks (toSecure 0x0d [1, 2, 3] Ports.none) = .ok () ∧ (fixS 0x0d).level ≠ 0 ∧
      (sealTape (some ([1, 3, 1], [1, 2, 3]))).aeadSeal.headD (Config.aeadSeal key (nonce 5) [] [1, 2, 3] 4) =
        some ([1, 3, 1], [1, 2, 3]) ∧
      ([1, 2, 3] : Bytes).length ≠ tagLen (fixS 0x0d).level) ∧
    (verifyGuard (toVerify 0x0d [1, 3, 1, 5, 6, 7, 8] Ports.none) = .ok () ∧
      verifyChecks (toVerify 0x0d [1, 3, 1, 5, 6, 7, 8] Ports.none) = .ok () ∧
      (openTape (some [1, 2])).aeadOpen.headD (Config.aeadOpen key (nonce 5) [] [1, 3, 1] [5, 6, 7, 8] 4) =
        some [1, 2] ∧
      ([1, 2] : Bytes).length ≠ (if (fixS 0x0d).level.toNat ≤ 3 then 0 else ([1, 3, 1] : Bytes).length)) := by
  decide +kernel

/-- The bytes a memory keeps when others become undefined. -/
theorem undefine_kept {m : Memory} {lo n a : Nat} {b : Byte} (h : (m.undefine lo n).read a = some b) :
    m.read a = some b := by
  rw [Memory.read_undefine] at h
  split at h
  · cases h
  · exact h

/-- A frame in FBUF with byte `i` undefined. -/
def gapAt (i : Nat) (s : State) : State := { s with mem := s.mem.undefine (0x100 + i) 1 }

/-- The clauses of R55: buffer bytes at the ends of both buffers, a failed ENCODE, undefined bytes that are read. -/
theorem witness_UndefinedBytes :
    (isBufferOffset 0x100 = true ∧ isBufferOffset 0x17E = true ∧ isBufferOffset 0x180 = true ∧
      isBufferOffset 0x1FE = true ∧ 126 + ([1] : Bytes).length ≤ 127) ∧
    (∃ t, exec .encode (inRegs (bare 4) []) = .next t ∧ (t.status.code != .ok) = true) ∧
    (State.reset.mem.read 0x100 = none ∧ State.reset.status.busy = false) ∧
    (2 ≤ { State.reset with len := 2 }.len.toNat ∧ State.reset.mem.readBuf .fbuf 0 2 = none) ∧
    ((∀ a b, (gapAt 8 (inFrame v1)).mem.read a = some b → (inFrame v1).mem.read a = some b) ∧
      headerDecode (inFrame v1).mem (gapAt 8 (inFrame v1)).len.toNat = .ok (v1Hdr, 9) ∧ 8 < 9 ∧
      (gapAt 8 (inFrame v1)).mem.read (0x100 + 8) = none) ∧
    (headerDecode (inFrame [0x09, 0x10, 0x2d, 0x0d, 0x05, 0x00]).mem 6 = .error (.raise .notEnoughBytes 4) ∧
      3 < (4 : Byte).toNat ∧
      (gapAt 3 (inFrame [0x09, 0x10, 0x2d, 0x0d, 0x05, 0x00])).mem.read (0x100 + 3) = none) ∧
    (headerDecode (gapAt 12 (inFrame beaconFrame)).mem 13 = .ok (beaconHdr, 7) ∧ fcType beaconHdr.fc = 0 ∧
      7 + footerLen .noFooter ≤ 13 ∧ (gapAt 12 (inFrame beaconFrame)).mem.readBuf .fbuf 7 (13 - 0 - 7) = none) ∧
    (headerDecode (gapAt 10 (inFrame v1)).mem 11 = .ok (v1Hdr, 9) ∧ fcType v1Hdr.fc = 1 ∧
      9 + footerLen .explicit ≤ 11 ∧ (gapAt 10 (inFrame v1)).mem.readBuf .fbuf (11 - 2) 2 = none) ∧
    (7 + footerLen .explicit ≤ 13 ∧ (gapAt 12 (inFrame beaconFrame)).mem.readBuf .fbuf (13 - 2) 2 = none ∧
      (gapAt 12 (inFrame beaconFrame)).mem.readBuf .fbuf 7 (13 - 2 - 7) = some [0xff, 0xcf, 0, 0] ∧
      (bodyTape [.ok 4] []).decodeAnswers .beacon = [.ok 4] ∧ 4 ≤ ([0xff, 0xcf, 0, 0] : Bytes).length) ∧
    (headerValidate (bare 1) = .ok () ∧ fcType (bare 1).fc = 1 ∧ State.reset.mem.readBuf .pbuf 0 1 = none) ∧
    (headerValidate (bare 3) = .ok () ∧ fcType (bare 3).fc = 3 ∧
      (bodyTape [] [.ok [9, 9]]).encodeAnswers .command = [.ok [9, 9]] ∧
      ([9, 9] : Bytes).length ≤ 127 - (headerEncode (bare 3)).length - 1 - footerLen .noFooter) ∧
    (fcSecurity (fixS 0x0d).fc = true ∧ (sealTape none).keyLookup = [some key] ∧ (sealTape none).aeadInit = [some key] ∧
      extAddrOf Platform.default (fixS 0x0d).srcAddr = some 0x0102030405060708 ∧
      secureGuard { toSecure 0x0d [1] Ports.none with mem := [] } = .ok () ∧
      secureChecks { toSecure 0x0d [1] Ports.none with mem := [] } = .ok () ∧
      verifyGuard { toVerify 0x0d [1, 2, 3, 4] Ports.none with mem := [] } = .ok () ∧
      verifyChecks { toVerify 0x0d [1, 2, 3, 4] Ports.none with mem := [] } = .ok () ∧
      tagLen (fixS 0x0d).level ≤ (toVerify 0x0d [1, 2, 3, 4] Ports.none).payload.len.toNat) :=
  ⟨by decide, nextIs_elim (by decide +kernel), by decide, by decide, ⟨fun _ _ => undefine_kept, by decide +kernel⟩,
    by decide +kernel, by decide +kernel, by decide +kernel, by decide +kernel, by decide +kernel, by decide +kernel,
    by decide +kernel⟩

theorem witness_RegisterReadsBackWhatWasWritten :
    Reg.frameCounter ≠ .cmd ∧ State.reset.engine.pendingRow = none ∧ State.reset.status.busy = false ∧
    { State.reset with host := [.write (0 + 0x054) 32 7, .read (0 + 0x054) 32] }.host =
      [.write (State.reset.platform.base + Reg.frameCounter.offset) 32 7,
        .read (State.reset.platform.base + Reg.frameCounter.offset) 32] := by decide

/-- A write to LEN, to PLEN, to the last byte of FBUF and to the first of PBUF; a register beside one that is written;
the bytes beside one that is written; a read. -/
theorem witness_HostAccessSideEffects :
    (∃ t, hostWrite 0x00C 32 5 State.reset = .over (.next t) ∧ (t.len == 5) = true) ∧
    (∃ t, hostWrite 0x010 32 5 { State.reset with status := { Status.reset with secured := true } } = .over (.next t) ∧
      (t.plen == 5 && !t.status.secured) = true) ∧
    (Reg.plen ≠ .status ∧ Reg.plen.offset ≠ 0x00C ∧ 0x00C < 0x100 ∧ (0x17D < 0x17E ∨ 0x17E + 8 / 8 ≤ 0x17D) ∧
      (0x17F < 0x17E ∨ 0x17E + 8 / 8 ≤ 0x17F)) ∧
    (∃ t, hostWrite 0x17E 8 5 State.reset = .over (.next t) ∧ (t.mem.read 0x17E == some 5) = true) ∧
    (∃ t, hostWrite 0x180 8 5 State.reset = .over (.next t) ∧ (t.mem.read 0x180 == some 5) = true) ∧
    (∃ t, hostRead 0x054 32 State.reset = .next t ∧ (t.readData == 0xFFFFFFFF) = true) ∧
    State.reset.status.busy = false :=
  ⟨overIs_elim (by decide +kernel), overIs_elim (by decide +kernel), by decide, overIs_elim (by decide +kernel),
    overIs_elim (by decide +kernel), nextIs_elim (by decide +kernel), rfl⟩

/-- A byte access to STATUS; a 32-bit access at 0x0FE. -/
theorem witness_WrongRegisterAccessIsRefused :
    (0x004 < 0x100 ∧ 8 ≠ 32) ∧ (0x0FE < 0x100 ∧ 0x0FE % 4 ≠ 0) ∧ State.reset.engine.pendingRow = none ∧
    State.reset.status.busy = false := by decide

theorem witness_OnlyStatusIsReadWhileBusy :
    0x004 < 0x200 ∧ 0x1FF < 0x200 ∧
    { State.reset with status := { Status.reset with busy := true } }.status.busy = true ∧
    State.reset.engine.pendingRow = none := by decide

/-- The last aligned word of FBUF's window, whose top byte is reserved; a byte; a misaligned half; a defined byte. -/
theorem witness_BufferAccessesMoveBytes :
    (4 ∈ [1, 2, 4] ∧ 0x17C % 4 = 0 ∧ isBufferOffset (0x17C + 2) = true ∧ isBufferOffset (0x17C + 3) = false) ∧
    (1 ∈ [1, 2, 4] ∧ 0x1FF % 1 = 0 ∧ 0x1FF < 0x200) ∧ (2 ∈ [1, 2, 4] ∧ 0x101 % 2 ≠ 0 ∧ 0x100 ≤ 0x101) ∧
    (inFrame v1).mem.read (0x100 + 1) = some 0x88 ∧ (inFrame v1).status.busy = false := by decide +kernel

theorem witness_ReservedOffsetsHoldNoState :
    State.reset.status.busy = false ∧ (0x058 ≤ 0x058 ∧ 0x058 < 0x100 ∧ 0x058 % 4 = 0) ∧
    (0x058 ≤ 0x0FC ∧ 0x0FC < 0x100 ∧ 0x0FC % 4 = 0) ∧ (0x17F = 0x17F ∨ 0x17F = 0x1FF) := by decide

theorem witness_ResetValues :
    State.reset.engine.pendingRow = none ∧ { State.reset with host := [.reset] }.host = [.reset] := by decide

theorem witness_DecodeFrame :
    (∃ t, exec .decode (inFrame v1) = .next t ∧ (t.status.code == .ok) = true) ∧
    (∃ t, exec .nop State.reset = .next t ∧ (t.status.code == .ok) = true) ∧
    (∃ t, exec (.illegal 5) State.reset = .next t ∧ (t.status.code == .illegalCommand) = true) :=
  ⟨nextIs_elim (by decide +kernel), nextIs_elim (by decide +kernel), nextIs_elim (by decide +kernel)⟩

/-- A success, and a failure in each command. -/
theorem witness_EncodeFrame :
    (∃ t, exec .encode (inRegs v2 [1]) = .next t ∧ (t.status.code == .ok) = true) ∧
    (∃ t, exec .encode (inRegs (bare 4) []) = .next t ∧ (t.status.code != .ok) = true) :=
  ⟨nextIs_elim (by decide +kernel), nextIs_elim (by decide +kernel)⟩

theorem witness_SecureFrame :
    ∃ t, exec .secure (toSecure 0x0d [1] (sealTape (some ([7], [1, 2, 3, 4])))) = .next t ∧
      (t.status.code == .ok) = true := nextIs_elim (by decide +kernel)

theorem witness_VerifyFrame :
    (∃ t, exec .verify (toVerify 0x0d [7, 1, 2, 3, 4] (openTape (some [8]))) = .next t ∧
      (t.status.code == .ok) = true) ∧
    (∃ t, exec .verify (toVerify 0x0d [7, 1, 2, 3, 4] (openTape none)) = .next t ∧
      (t.status.code == .verificationFailure) = true) :=
  ⟨nextIs_elim (by decide +kernel), nextIs_elim (by decide +kernel)⟩

theorem witness_FailedCommandsCommitOnlyTheirRow :
    (∃ t, exec .decode State.reset = .next t ∧ (t.status.code != .ok) = true) ∧
    (∃ t, exec .encode (inRegs (bare 4) []) = .next t ∧ (t.status.code != .ok) = true) ∧
    (∃ t, exec .secure (inRegs (bare 9) []) = .next t ∧ (t.status.code != .ok) = true) ∧
    (∃ t, exec .verify (toVerify 0x0d [1, 2, 3, 4] (openTape none)) = .next t ∧
      (t.status.code == .verificationFailure) = true) ∧
    (∃ t, exec .verify State.reset = .next t ∧ (t.status.code == .sequenceError) = true) :=
  ⟨nextIs_elim (by decide +kernel), nextIs_elim (by decide +kernel), nextIs_elim (by decide +kernel),
    nextIs_elim (by decide +kernel), nextIs_elim (by decide +kernel)⟩

theorem witness_FailuresExposeNothing :
    (∃ t, exec .secure (inRegs (bare 9) []) = .next t ∧ (t.status.code != .ok) = true) ∧
    (∃ t, exec .verify (toVerify 0x0d [1, 2, 3, 4] (openTape none)) = .next t ∧
      (t.status.code == .verificationFailure) = true) :=
  ⟨nextIs_elim (by decide +kernel), nextIs_elim (by decide +kernel)⟩

/-- The last counter that can be used: 0xFFFFFFFE (T-SEC-9). -/
theorem witness_OnlySecureAdvancesTheCounter :
    (∃ t, exec .secure { toSecure 0x0d [1] (sealTape (some ([7], [1, 2, 3, 4]))) with frameCounter := 0xFFFFFFFE } =
      .next t ∧ (t.status.code == .ok) = true) ∧
    (∃ t, exec .nop State.reset = .next t ∧ (t.status.code == .ok) = true) :=
  ⟨nextIs_elim (by decide +kernel), nextIs_elim (by decide +kernel)⟩

theorem witness_CountersAreUsedOnceInARun :
    ((∀ op ∈ (writes 3 (toSecure 0x0d [1] (sealTape (some ([7], [1, 2, 3, 4]))))).host,
        op.keepsCounter (writes 3 (toSecure 0x0d [1] (sealTape (some ([7], [1, 2, 3, 4]))))).platform = true) ∧
      usedCounters 1 (writes 3 (toSecure 0x0d [1] (sealTape (some ([7], [1, 2, 3, 4]))))) = [5] ∧
      ∃ t, Sys2Proof.core.run 1 (writes 3 (toSecure 0x0d [1] (sealTape (some ([7], [1, 2, 3, 4]))))) = .next t ∧
        (State.frameCounter t == 6) = true) ∧
    (fcSecurity (fixS 0x0d).fc = true ∧
      ∃ t, exec .secure { toSecure 0x0d [1] Ports.none with frameCounter := 0xFFFFFFFF } = .next t ∧
        (t.status.code == .counterError) = true) :=
  ⟨⟨by decide +kernel, by decide +kernel, nextIs_elim (by decide +kernel)⟩, by decide, nextIs_elim (by decide +kernel)⟩

theorem witness_OneCommandDoesNotShowTheKey :
    { sealTape none with aeadOpen := [none] }.keyLookup = [some key] ∧
    { sealTape none with aeadOpen := [none] }.aeadInit ≠ [] ∧ { sealTape none with aeadOpen := [none] }.aeadSeal ≠ [] ∧
    { sealTape none with aeadOpen := [none] }.aeadOpen ≠ [] := by decide

/-- A frame in FBUF and a DECODE about to run. -/
theorem witness_EveryStepKeepsTheInvariant :
    (writes 1 (inFrame v1)).Inv ∧ ∃ t, step (writes 1 (inFrame v1)) = .next t ∧ t.status.frameValid = true :=
  ⟨by decide +kernel, nextIs_elim (by decide +kernel)⟩

end Sys2Proof.Tests
end

section
/-! Host accesses of the register window and of the buffers (spec/20_memory.md R62, R63): which widths and offsets the
host contract allows, what an allowed buffer access moves, and the obligations O47 and O45. -/

namespace Sys2Proof.Machine

/-! ## The accesses the host contract allows -/

/-- Below 0x100 the contract asks for 32 bits at a word-aligned offset (R62). -/
theorem accessOk_reg_iff {off width : Nat} (ho : off < 0x100) :
    accessOk off width = true ↔ width = 32 ∧ off % 4 = 0 := by
  simp [accessOk, ho]

/-- From 0x100 on the contract asks for natural alignment of 1, 2 or 4 bytes (R63). -/
theorem accessOk_buffer_iff {off n : Nat} (hn : n ∈ [1, 2, 4]) (ho : 0x100 ≤ off) :
    accessOk off (8 * n) = true ↔ off % n = 0 := by
  have hsize : n = 1 ∨ n = 2 ∨ n = 4 := by simpa using hn
  rcases hsize with rfl | rfl | rfl <;> simp [accessOk, Nat.not_lt.2 ho]

/-- A read against the host contract is refused. -/
theorem hostRead_of_not_accessOk {off width : Nat} {s : State} (hb : s.status.busy = false)
    (h : ¬accessOk off width = true) : hostRead off width s = .refused .busContract := by
  simp [hostRead, hb, h]

/-- A write against the host contract is refused. -/
theorem hostWrite_of_not_accessOk {off width : Nat} {s : State} (w : Word) (hb : s.status.busy = false)
    (h : ¬accessOk off width = true) : hostWrite off width w s = .over (.refused .busContract) := by
  simp [hostWrite, hb, h]

/-- An allowed read from 0x100 on is a buffer read. -/
theorem hostRead_buffer {off n : Nat} {s : State} (hb : s.status.busy = false) (ho : 0x100 ≤ off)
    (h : accessOk off (8 * n) = true) : hostRead off (8 * n) s = .next (bufRead off n s) := by
  simp [hostRead, hb, h, Nat.not_lt.2 ho]

/-- An allowed write from 0x100 on is a buffer write. -/
theorem hostWrite_buffer {off n : Nat} {s : State} (w : Word) (hb : s.status.busy = false) (ho : 0x100 ≤ off)
    (h : accessOk off (8 * n) = true) : hostWrite off (8 * n) w s = .over (.next (bufWrite off n w s)) := by
  simp [hostWrite, hb, h, Nat.not_lt.2 ho]

/-! ## The lanes of a buffer access -/

/-- A buffer write stores each lane that is no reserved byte (R63). -/
theorem bufWrite_read_lane {off n i : Nat} (w : Word) (s : State) (hi : i < n)
    (hbuf : isBufferOffset (off + i) = true) :
    (bufWrite off n w s).mem.read (off + i) = some (w.extractLsb' (8 * i) 8) := by
  rw [bufWrite_mem, read_lanesWrite, if_pos ⟨by omega, by rw [toLE_length]; omega, hbuf⟩, Nat.add_sub_cancel_left,
    toLE_lane n i w hi]

/-- A buffer write stores nothing outside the buffers' bytes (R63, R64). -/
theorem bufWrite_read_reserved {a : Nat} (off n : Nat) (w : Word) (s : State) (ha : isBufferOffset a = false) :
    (bufWrite off n w s).mem.read a = s.mem.read a := by
  rw [bufWrite_mem, read_lanesWrite, if_neg (by simp [ha])]

/-- Lane `i` of the data of a buffer read, up to the draws of the lanes before it (R63). -/
theorem bufRead_lane (s : State) (off : Nat) {n i : Nat} (hi : i < n) (hn : n ≤ 4) :
    ∃ k, (bufRead off n s).readData.extractLsb' (8 * i) 8 = (laneRead (off + i) { s with draws := k }).1 := by
  obtain ⟨k, hk⟩ := lanesRead_lane s off n i hi
  have hlen := lanesRead_length s off n
  rw [List.getElem?_eq_getElem (by omega), Option.some.injEq] at hk
  exact ⟨k, (ofLE_lane _ i (by omega) (by omega)).trans hk⟩

/-- A defined byte is read in its lane. -/
theorem bufRead_lane_defined {s : State} {off n i : Nat} {b : Byte} (hi : i < n) (hn : n ≤ 4)
    (hbuf : isBufferOffset (off + i) = true) (hb : s.mem.read (off + i) = some b) :
    (bufRead off n s).readData.extractLsb' (8 * i) 8 = b := by
  obtain ⟨k, hk⟩ := bufRead_lane s off hi hn
  rw [hk, (laneRead_defined { s with draws := k } (off + i)).1 hbuf b hb]

/-- A reserved byte reads 0. -/
theorem bufRead_lane_reserved {s : State} {off n i : Nat} (hi : i < n) (hn : n ≤ 4)
    (hbuf : isBufferOffset (off + i) = false) : (bufRead off n s).readData.extractLsb' (8 * i) 8 = 0 := by
  obtain ⟨k, hk⟩ := bufRead_lane s off hi hn
  rw [hk, (laneRead_defined { s with draws := k } (off + i)).2 hbuf]

/-! ## The obligations -/

/-- Settles O47: a misaligned access fails `accessOk`; an aligned one is `bufWrite` or `bufRead`, whose lanes are said
above. -/
theorem bufferAccessesMoveBytes : Obligations.BufferAccessesMoveBytes := by
  intro s off n w hn ho _ hb
  have hok := accessOk_buffer_iff hn ho
  have hn4 : n ≤ 4 := by simp at hn; omega
  refine ⟨fun hmis => ?_, fun hal => ⟨?_, ?_⟩⟩
  · have hbad := mt hok.1 hmis
    exact ⟨hostRead_of_not_accessOk hb hbad, hostWrite_of_not_accessOk w hb hbad⟩
  · refine ⟨bufWrite off n w s, hostWrite_buffer w hb ho (hok.2 hal), fun i => bufWrite_read_lane w s, ?_⟩
    rintro a (hlo | hhi | hres)
    · exact bufWrite_read w s (.inl hlo)
    · exact bufWrite_read w s (.inr hhi)
    · exact bufWrite_read_reserved off n w s hres
  · exact ⟨bufRead off n s, hostRead_buffer hb ho (hok.2 hal), fun i b hi => bufRead_lane_defined hi hn4,
      fun i hi => bufRead_lane_reserved hi hn4⟩

/-- Settles O45: the step of either access is the host's access at the offset, which fails `accessOk`. -/
theorem wrongRegisterAccessIsRefused : Obligations.WrongRegisterAccessIsRefused := by
  intro s off width w rest op ho hbad he hb hh hop
  have hno : ¬accessOk off width = true := by rw [accessOk_reg_iff ho]; omega
  have hwin : off < 0x200 := by omega
  rcases hop with rfl | rfl
  · rw [step_read he hh hwin]
    exact hostRead_of_not_accessOk hb hno
  · rw [step_write he hh hwin, hostWrite_of_not_accessOk (s := { s with host := rest }) w hb hno]

end Sys2Proof.Machine
end

section
/-! The command words beside the five commands (spec/30_encoding.md R92, R93; spec/44_frame_codec.md R223): what the
decoder makes of them, and what STATUS reads after a command that changes only its outcome. Obligation O7. -/

namespace Sys2Proof.Machine

/-- Every word from 5 on is ILLEGAL (R92, R93). -/
theorem decodeCmd_of_five_le {w : Word} (h : 5 ≤ w.toNat) : decodeCmd w = .illegal w := by
  unfold decodeCmd
  split
  case h_6 => rfl
  all_goals omega

/-- The bits of the STATUS word that a command's end sets: CODE, ERR and ERR_VAL (R25, R29, R30). -/
def outcomeBits (c : Code) (v : Byte) : Word := 0#8 ++ v ++ c.value ++ 0#6 ++ BitVec.ofBool (c.value != 0) ++ 0#1

theorem getLsbD_outcomeBits (c : Code) (v : Byte) {k : Nat} (h : k < 32) :
    (outcomeBits c v).getLsbD k =
      if k = 1 then c.value != 0 else if k < 8 then false else if k < 16 then c.value.getLsbD (k - 8)
      else if k < 24 then v.getLsbD (k - 16) else false := by
  unfold outcomeBits
  change BitVec.getLsbD (w := 8 + 8 + 8 + 6 + 1 + 1) _ _ = _
  simp only [BitVec.getLsbD_append, BitVec.getLsbD_ofBool]
  interval_cases k <;> simp

/-- A command's end replaces CODE, ERR and ERR_VAL of the STATUS word and keeps BUSY, the three flags and SEC_PHASE. -/
theorem Status.word_ended (st : Status) (c : Code) (v : Byte) :
    (st.ended c v).word = (st.word &&& 0x0700001D) ||| outcomeBits c v := by
  refine BitVec.eq_of_getLsbD_eq fun k hk => ?_
  rw [BitVec.getLsbD_or, BitVec.getLsbD_and, Status.getLsbD_word _ hk, Status.getLsbD_word _ hk,
    getLsbD_outcomeBits _ _ hk]
  interval_cases k <;> simp [Status.err]

/-- The outcome of an illegal word: CODE 0x30, ERR, and the word's low byte in ERR_VAL (R223). -/
theorem outcomeBits_illegalCommand (w : Word) :
    outcomeBits .illegalCommand (w.extractLsb' 0 8) = (0x00003002 : Word) ||| ((w &&& 0x000000FF) <<< 16) := by
  refine BitVec.eq_of_getLsbD_eq fun k hk => ?_
  rw [getLsbD_outcomeBits _ _ hk, BitVec.getLsbD_or, BitVec.getLsbD_shiftLeft, BitVec.getLsbD_and]
  interval_cases k <;> simp [Code.value]

/-- ILLEGAL ends with IllegalCommand and `w[7:0]`, in STATUS alone (R223). -/
theorem exec_illegal_eq (w : Word) (s : State) :
    exec (.illegal w) s = .next { s with status := s.status.ended .illegalCommand (w.extractLsb' 0 8) } := rfl

/-- Settles O7: decoding is the default arm of the opcode map, and the STATUS word is `Status.word_ended` at
IllegalCommand. -/
theorem illegalWordsReportThemselves : Obligations.IllegalWordsReportThemselves := by
  intro s w hw
  refine ⟨by rw [decodeBytes_le32, decodeCmd_of_five_le hw], _, exec_illegal_eq w s, ?_, rfl⟩
  -- `Nat.cast_ofNat`: two literals of the statement elaborate as casts from `Nat`
  simp only [Status.word_ended, outcomeBits_illegalCommand, BitVec.or_assoc, Nat.cast_ofNat]

end Sys2Proof.Machine
end

section
/-! The address fields (spec/40_address_codec.md): what AddressDecode reads from the frame, obligation O9, and what a
DECODE leaves in the header registers, obligation O13. -/

namespace Sys2Proof.Machine

/-! ## The PAN identifier and the address after it -/

/-- Where the PAN identifier is implied, it is the other address's, and no byte is read (R130, R132). -/
theorem panDecode_of_implied {m : Memory} {mode : BitVec 2} {role : Role} {pic : Bool} {o : Address} (fin cur : Nat)
    (hi : panImplied role pic (some o) mode = true) :
    panDecode m mode role pic (some o) fin cur = .ok (addrPan o, cur) := by
  simp [panDecode, hi]

/-- Where it is not, it is a field of two bytes. -/
theorem panDecode_of_not_implied {m : Memory} {mode : BitVec 2} {role : Role} {pic : Bool} {other : Option Address}
    (fin cur : Nat) (hi : panImplied role pic other mode = false) :
    panDecode m mode role pic other fin cur = readField m fin cur 2 >>= fun bs => .ok (ofLE 16 bs, cur + 2) := by
  simp only [panDecode, hi]; rfl

section
variable {m : Memory} {pan : Half} {fin cur : Nat}

theorem plainDecode_short_of_end (hf : fin < cur + 2) :
    plainDecode m 2 pan fin cur = .error (.raise .notEnoughBytes (BitVec.ofNat 8 cur)) := by
  rw [plainDecode, if_pos rfl, readField_of_short hf, Except.error_bind]

theorem plainDecode_extended_of_end (hf : fin < cur + 8) :
    plainDecode m 3 pan fin cur = .error (.raise .notEnoughBytes (BitVec.ofNat 8 cur)) := by
  rw [plainDecode, if_neg (by decide), readField_of_short hf, Except.error_bind]

theorem plainDecode_short_eq_ok {a0 a1 : Byte} (hf : cur + 2 ≤ fin) (hr : m.readBuf .fbuf cur 2 = some [a0, a1]) :
    plainDecode m 2 pan fin cur = .ok (some (.short pan (a1 ++ a0)), cur + 2) := by
  rw [plainDecode, if_pos rfl, readField_eq_ok.2 ⟨hf, hr⟩, Except.ok_bind, ofLE_two]; rfl

theorem plainDecode_extended_eq_ok {a0 a1 a2 a3 a4 a5 a6 a7 : Byte} (hf : cur + 8 ≤ fin)
    (hr : m.readBuf .fbuf cur 8 = some [a0, a1, a2, a3, a4, a5, a6, a7]) :
    plainDecode m 3 pan fin cur =
      .ok (some (.extended pan (a7 ++ a6 ++ a5 ++ a4 ++ a3 ++ a2 ++ a1 ++ a0)), cur + 8) := by
  rw [plainDecode, if_neg (by decide), readField_eq_ok.2 ⟨hf, hr⟩, Except.ok_bind, ofLE_eight]; rfl

end

/-- In the two modes of an address, AddressDecode is the PAN identifier and then the address. -/
theorem addressDecode_of_mode {m : Memory} {mode : BitVec 2} (role : Role) (pic : Bool) (other : Option Address)
    (fin cur : Nat) (hmode : mode = 2 ∨ mode = 3) :
    addressDecode m mode role pic other fin cur =
      panDecode m mode role pic other fin cur >>= fun r => plainDecode m mode r.1 fin r.2 := by
  rcases hmode with rfl | rfl <;> rfl

/-- Settles O9: the PAN identifier is implied or the field at the cursor, and the address is the field after it. -/
theorem addressDecodeReadsTheWire : Obligations.AddressDecodeReadsTheWire := by
  intro m role pic other fin cur
  have two := addressDecode_of_mode (m := m) (mode := 2) role pic other fin cur (.inl rfl)
  have three := addressDecode_of_mode (m := m) (mode := 3) role pic other fin cur (.inr rfl)
  refine ⟨rfl, rfl, fun hread => ?_, fun o hrole hpic hother => ?_⟩
  · have hfield (mode : BitVec 2) :
        panDecode m mode role pic other fin cur = readField m fin cur 2 >>= fun bs => .ok (ofLE 16 bs, cur + 2) := by
      refine panDecode_of_not_implied fin cur (Bool.eq_false_iff.2 fun himp => ?_)
      obtain ⟨hrole, hpic, hother, -⟩ := panImplied_iff.1 himp
      exact hread ⟨hrole, hpic, hother⟩
    refine ⟨fun hf mode hmode => ?_, fun p0 p1 hf hp => ?_⟩
    · rw [addressDecode_of_mode role pic other fin cur hmode, hfield, readField_of_short hf]; rfl
    · have hpan (mode : BitVec 2) : panDecode m mode role pic other fin cur = .ok (p1 ++ p0, cur + 2) := by
        rw [hfield, readField_eq_ok.2 ⟨hf, hp⟩, Except.ok_bind, ofLE_two]
      simp only [two, three, hpan, Except.ok_bind]
      exact ⟨plainDecode_short_of_end, plainDecode_extended_of_end, fun _ _ => plainDecode_short_eq_ok,
        fun _ _ _ _ _ _ _ _ => plainDecode_extended_eq_ok⟩
  · subst hother
    have hpan (mode : BitVec 2) (h0 : mode ≠ 0) :
        panDecode m mode role pic (some o) fin cur = .ok (addrPan o, cur) :=
      panDecode_of_implied fin cur (panImplied_iff.2 ⟨hrole, hpic, rfl, h0⟩)
    simp only [two, three, hpan 2 (by decide), hpan 3 (by decide), Except.ok_bind]
    exact ⟨plainDecode_short_of_end, plainDecode_extended_of_end, fun _ _ => plainDecode_short_eq_ok,
      fun _ _ _ _ _ _ _ _ => plainDecode_extended_eq_ok⟩

/-! ## The registers after DECODE -/

/-- A register triple `(PAN, LO, HI)` reads as an address, or as none (R133). -/
def tripleReads (pan : Half) (lo hi : Word) : Option Address → Prop
  | none => pan = 0 ∧ lo = 0 ∧ hi = 0
  | some (.short p a) => pan = p ∧ lo = a.setWidth 32 ∧ hi = 0
  | some (.extended p a) => pan = p ∧ hi ++ lo = a

/-- The triple committed for an address reads as that address. -/
theorem tripleReads_addrRegs (a : Option Address) : tripleReads (addrRegs a).1 (addrRegs a).2.1 (addrRegs a).2.2 a :=
  match a with
  | none => ⟨rfl, rfl, rfl⟩
  | some (.short _ _) => ⟨rfl, rfl, rfl⟩
  | some (.extended _ x) => ⟨rfl, extended_halves x⟩

/-- The key identifier of a decoded header fits the registers. -/
theorem headerDecode_kid_le {m : Memory} {fin hl : Nat} {h : Hdr} {a : Aux} (hd : headerDecode m fin = .ok (h, hl))
    (ha : h.aux = some a) : a.kid.length ≤ 9 := by
  obtain ⟨c1, c2, -, -, -, haux⟩ := headerDecode_parts hd
  rcases auxPart_cases haux with ⟨-, x, hx, hdec⟩ | ⟨-, hnone, -⟩
  · obtain rfl : x = a := Option.some.inj (hx.symm.trans ha)
    rw [(auxDecode_cases hdec).2.1]
    exact kidLen_le _
  · cases hnone.symm.trans ha

/-- The auxiliary registers committed where the header has no auxiliary part (R148). -/
theorem headerCommit_aux_none {h : Hdr} (ha : h.aux = none) :
    (headerCommit h).auxCtrl = 0 ∧ (headerCommit h).auxFc = 0 ∧ (headerCommit h).kid = List.replicate 9 0 := by
  rw [headerCommit_kid]
  simp [headerCommit, Hdr.auxRegs, ha, padKid]

/-- The auxiliary registers committed where it has one (R148). -/
theorem headerCommit_aux_some {h : Hdr} {a : Aux} (ha : h.aux = some a) (hk : a.kid.length ≤ 9) :
    (headerCommit h).auxCtrl = a.sc ∧ (headerCommit h).auxFc = a.fcv.getD 0 ∧
      (headerCommit h).kid = a.kid ++ List.replicate (9 - a.kid.length) 0 := by
  rw [headerCommit_kid, ← padKid_eq _ hk]
  simp [headerCommit, Hdr.auxRegs, ha]

/-- Header and length in the registers after a DECODE that succeeds (R220). -/
theorem exec_decode_ok {s t : State} {h : Hdr} {hl : Nat} (hd : headerDecode s.mem s.len.toNat = .ok (h, hl))
    (ht : exec .decode s = .next t) (hok : t.status.code = .ok) : t.hdr = headerCommit h ∧ t.hdrLen.toNat = hl := by
  rcases execDecode_cases ht with hr | ⟨p, h', hl', cn, ft, hd', -, -, -, rfl⟩
  · exact absurd hok hr.code.1
  · cases hd.symm.trans hd'
    refine ⟨rfl, ?_⟩
    have hlen := (headerDecode_le hd).2
    simp only [decodeCommit_hdrLen, BitVec.toNat_ofNat]
    omega

/-- Settles O13: a DECODE that succeeds commits `headerCommit` of its header, and one that raises keeps the registers
(R246). -/
theorem decodeCommitsTheHeader : Obligations.DecodeCommitsTheHeader := by
  refine ⟨fun s t h hl hd ht hok => ?_, fun s t ht hbad => ?_⟩
  · obtain ⟨hhdr, hlen⟩ := exec_decode_ok hd ht hok
    rw [hhdr]
    refine ⟨rfl, rfl, rfl, hlen, tripleReads_addrRegs h.dst, tripleReads_addrRegs h.src, ?_⟩
    split
    · next ha => exact headerCommit_aux_none ha
    · next a ha => exact headerCommit_aux_some ha (headerDecode_kid_le hd ha)
  · rcases execDecode_cases ht with ⟨p, c, v, rfl, -⟩ | ⟨p, h, hl, cn, ft, -, -, -, -, rfl⟩
    · exact ⟨raiseIn_hdr .., raiseIn_hdrLen ..⟩
    · exact absurd rfl hbad

end Sys2Proof.Machine
end

section
/-! The checks of the frame control word and of the header registers (spec/41_header_codec.md R140, R149): each check
function as one chain, what the command that runs it does with a check that fails, and the obligations O8 and O18. -/

namespace Sys2Proof.Machine

/-! ## A command whose checks raise -/

/-- What the header or its room raises, DECODE raises (R220). -/
theorem exec_decode_of_raise {s : State} {c : Code} {v : Byte} (h : decodeFront s = .error (.raise c v)) :
    exec .decode s = .next (raiseIn .decode c v s) := by
  change execDecode s = _
  rw [execDecode, h]

/-- What FcDecode raises, DECODE raises: it comes before every other step (R142, R220). -/
theorem exec_decode_of_fcDecode_raise {s : State} {c : Code} {v : Byte}
    (h : fcDecode s.mem s.len.toNat = .error (.raise c v)) : exec .decode s = .next (raiseIn .decode c v s) :=
  exec_decode_of_raise (by rw [decodeFront, headerDecode, h]; rfl)

/-- What HeaderValidate raises, ENCODE raises (R221). -/
theorem exec_encode_of_raise {s : State} {c : Code} {v : Byte} (h : headerValidate s.hdr = .error (.raise c v)) :
    exec .encode s = .next (raiseIn .encode c v s) := by
  change execEncode s = _
  rw [execEncode, h]

/-! ## The checks as chains -/

/-- Under two bytes there is no frame control word (R140). -/
theorem fcDecode_of_end {m : Memory} {fin : Nat} (hf : fin < 2) :
    fcDecode m fin = .error (.raise .notEnoughBytes 0) := by
  rw [fcDecode, readField_of_short (by omega), Except.error_bind]; rfl

/-- With two bytes FcDecode is the checks on their word (R140). -/
theorem fcDecode_eq_fcCheck {m : Memory} {fin : Nat} {b0 b1 : Byte} (hf : 2 ≤ fin)
    (hr : m.readBuf .fbuf 0 2 = some [b0, b1]) :
    fcDecode m fin = fcCheck (b1 ++ b0) >>= fun _ => .ok (b1 ++ b0) := by
  rw [fcDecode, readField_eq_ok.2 ⟨by omega, hr⟩, Except.ok_bind, ofLE_two]; rfl

/-- The contract check as one chain (spec/43_security_transform.md R183). -/
theorem contractCheck_eq (h : HeaderRegs) :
    contractCheck h =
      if fcSecurity h.fc = false ∧ h.auxPresent = true then .error (.raise .securityNotEnabled 0)
      else if fcSecurity h.fc = true ∧ h.auxPresent = false then .error (.raise .auxSecHeaderAbsent 0)
      else .ok () := by
  rw [contractCheck, demand_bind, demand_eq]
  cases fcSecurity h.fc <;> cases h.auxPresent <;> rfl

/-- The checks of HeaderValidate as one chain: the contract, then those on the frame control word (R149). -/
theorem headerValidate_eq (h : HeaderRegs) :
    headerValidate h =
      if fcSecurity h.fc = false ∧ h.auxPresent = true then .error (.raise .securityNotEnabled 0)
      else if fcSecurity h.fc = true ∧ h.auxPresent = false then .error (.raise .auxSecHeaderAbsent 0)
      else fcCheck h.fc := by
  rw [headerValidate, contractCheck_eq]
  split_ifs <;> rfl

/-! ## The obligations -/

/-- Settles O8: FcDecode is the checks on the word of its two bytes, and what it raises DECODE raises. -/
theorem frameControlChecksInOrder : Obligations.FrameControlChecksInOrder := by
  intro s
  refine ⟨fun hf => exec_decode_of_fcDecode_raise (fcDecode_of_end hf), fun b0 b1 hf hr => ?_⟩
  have hfc := fcDecode_eq_fcCheck hf hr
  rw [fcCheck_eq] at hfc
  unfold fcDstMode fcSrcMode fcType fcVersion at hfc
  split_ifs at hfc ⊢ with hmode htype hversion
  · exact exec_decode_of_fcDecode_raise hfc
  · exact exec_decode_of_fcDecode_raise hfc
  · exact exec_decode_of_fcDecode_raise hfc
  · exact hfc

/-- Settles O18: HeaderValidate is the statement's chain, and what it raises ENCODE raises. -/
theorem encodeValidatesInOrder : Obligations.EncodeValidatesInOrder := by
  intro s
  have hv := headerValidate_eq s.hdr
  -- the statement writes a type above 3 as `3 < _`, the chain as `4 ≤ _`
  simp only [fcCheck_eq, Nat.succ_le_iff (m := 3)] at hv
  split_ifs at hv ⊢ with hoff hon hmode htype hversion
  · exact exec_encode_of_raise hv
  · exact exec_encode_of_raise hv
  · exact exec_encode_of_raise hv
  · exact exec_encode_of_raise hv
  · exact exec_encode_of_raise hv
  · exact hv

end Sys2Proof.Machine
end

section
/-! The auxiliary security header in the frame (spec/41_header_codec.md R144): what AuxDecode reads, obligation O10. -/

namespace Sys2Proof.Machine

/-! ## The frame counter -/

section
variable {m : Memory} {ver : BitVec 2} {sc : Byte} {fin cur : Nat}

theorem counterDecode_of_absent (hp : fcPresent ver sc = false) : counterDecode m ver sc fin cur = .ok (none, cur) := by
  simp [counterDecode, hp]

theorem counterDecode_of_end (hp : fcPresent ver sc = true) (hf : fin < cur + 4) :
    counterDecode m ver sc fin cur = .error (.raise .notEnoughBytes (BitVec.ofNat 8 cur)) := by
  rw [counterDecode, if_pos hp, readField_of_short hf, Except.error_bind]

theorem counterDecode_eq_ok {c0 c1 c2 c3 : Byte} (hp : fcPresent ver sc = true) (hf : cur + 4 ≤ fin)
    (hr : m.readBuf .fbuf cur 4 = some [c0, c1, c2, c3]) :
    counterDecode m ver sc fin cur = .ok (some (c3 ++ c2 ++ c1 ++ c0), cur + 4) := by
  rw [counterDecode, if_pos hp, readField_eq_ok.2 ⟨hf, hr⟩, Except.ok_bind, ofLE_four]; rfl

/-! ## The fields in a row -/

theorem auxDecode_of_end (hf : fin < cur + 1) :
    auxDecode m ver fin cur = .error (.raise .notEnoughBytes (BitVec.ofNat 8 cur)) := by
  rw [auxDecode, readField_of_short hf, Except.error_bind]

/-- After the control byte come the counter and the key identifier of the control byte's width. -/
theorem auxDecode_of_control (hf : cur + 1 ≤ fin) (hr : m.readBuf .fbuf cur 1 = some [sc]) :
    auxDecode m ver fin cur = counterDecode m ver sc fin (cur + 1) >>= fun r =>
      readField m fin r.2 (kidLen (scKeyIdMode sc)) >>= fun kid =>
        .ok ({ sc := sc, fcv := r.1, kid := kid }, r.2 + kidLen (scKeyIdMode sc)) := by
  rw [auxDecode, readField_eq_ok.2 ⟨hf, hr⟩, Except.ok_bind, ofLE_singleton]; rfl

variable (hf : cur + 1 ≤ fin) (hr : m.readBuf .fbuf cur 1 = some [sc])
include hf hr

theorem auxDecode_of_counter_error {e : Stop} (hc : counterDecode m ver sc fin (cur + 1) = .error e) :
    auxDecode m ver fin cur = .error e := by
  rw [auxDecode_of_control hf hr, hc, Except.error_bind]

theorem auxDecode_of_kid_end {fcv : Option Word} {k : Nat} (hc : counterDecode m ver sc fin (cur + 1) = .ok (fcv, k))
    (hk : fin < k + kidLen (scKeyIdMode sc)) :
    auxDecode m ver fin cur = .error (.raise .notEnoughBytes (BitVec.ofNat 8 k)) := by
  rw [auxDecode_of_control hf hr, hc, Except.ok_bind, readField_of_short hk, Except.error_bind]

theorem auxDecode_eq_ok {fcv : Option Word} {k : Nat} {kid : Bytes}
    (hc : counterDecode m ver sc fin (cur + 1) = .ok (fcv, k)) (hk : k + kidLen (scKeyIdMode sc) ≤ fin)
    (hkid : m.readBuf .fbuf k (kidLen (scKeyIdMode sc)) = some kid) :
    auxDecode m ver fin cur = .ok ({ sc := sc, fcv := fcv, kid := kid }, k + kidLen (scKeyIdMode sc)) := by
  rw [auxDecode_of_control hf hr, hc, Except.ok_bind, readField_eq_ok.2 ⟨hk, hkid⟩, Except.ok_bind]

end

/-- Settles O10: the counter is a field of its own or none, and the key identifier is the field after it. -/
theorem auxDecodeReadsTheWire : Obligations.AuxDecodeReadsTheWire := by
  intro m ver fin cur
  refine ⟨auxDecode_of_end, fun sc hf hr => ⟨fun hp => ⟨fun hend => ?_, fun c0 c1 c2 c3 hfit hread => ?_⟩, fun hp => ?_⟩⟩
  · exact auxDecode_of_counter_error hf hr (counterDecode_of_end hp hend)
  · have hc := counterDecode_eq_ok hp hfit hread
    exact ⟨auxDecode_of_kid_end hf hr hc, fun _ => auxDecode_eq_ok hf hr hc⟩
  · have hc := counterDecode_of_absent (m := m) (fin := fin) (cur := cur + 1) hp
    exact ⟨auxDecode_of_kid_end hf hr hc, fun _ => auxDecode_eq_ok hf hr hc⟩

end Sys2Proof.Machine
end

section
/-! The bytes of the header that ENCODE builds (spec/41_header_codec.md R141, R143, R145; spec/40_address_codec.md R131),
part by part, and obligation O21. -/

namespace Sys2Proof.Machine

/-- The frame control word, low byte first, its bits 9:7 written 0 (R141). -/
theorem fcEncode_eq (fc : Half) : fcEncode fc = [fc.extractLsb' 0 8 &&& 0x7F, fc.extractLsb' 8 8 &&& 0xFC] := by
  rw [fcEncode, le16_eq]
  congr 2 <;>
  · refine BitVec.eq_of_getLsbD_eq fun k hk => ?_
    rw [BitVec.getLsbD_and, BitVec.getLsbD_extractLsb', BitVec.getLsbD_extractLsb', getLsbD_fcWithRsvd _ _ (by omega)]
    interval_cases k <;> simp

/-- The bytes AddressEncode appends for the address registers: none in mode 0, else the PAN identifier unless it is
implied, and the 2 or 8 address bytes (spec/40_address_codec.md R131). -/
theorem addressEncode_addrOf {mode : BitVec 2} (pan : Half) (lo hi : Word) (role : Role) (pic : Bool)
    (other : Option Address) (hm : mode ≠ 1) :
    addressEncode (addrOf mode pan lo hi) role pic other =
      (if mode = 0 ∨ panImplied role pic other 1 = true then [] else [pan.extractLsb' 0 8, pan.extractLsb' 8 8]) ++
      (if mode = 0 then []
        else if mode = 2 then [lo.extractLsb' 0 8, lo.extractLsb' 8 8]
        else [lo.extractLsb' 0 8, lo.extractLsb' 8 8, lo.extractLsb' 16 8, lo.extractLsb' 24 8,
          hi.extractLsb' 0 8, hi.extractLsb' 8 8, hi.extractLsb' 16 8, hi.extractLsb' 24 8]) := by
  rcases mode_cases hm with rfl | rfl | rfl
  · rfl
  · simp [addrOf, addressEncode, addrPan, le16_eq]
  · simp [addrOf, addressEncode, addrPan, le16_eq, le64_append, le32_eq]

/-- The destination is present in every mode but 0 (spec/10_state.md R40). -/
theorem dstAddr_isSome {h : HeaderRegs} (hm : fcDstMode h.fc ≠ 1) : h.dstAddr.isSome = true ↔ fcDstMode h.fc ≠ 0 := by
  rw [HeaderRegs.dstAddr]
  rcases mode_cases hm with h0 | h0 | h0 <;> simp [h0, addrOf]

/-- The destination never leaves its PAN identifier out (spec/40_address_codec.md R132). -/
theorem panImplied_dst (pic : Bool) (other : Option Address) (mode : BitVec 2) :
    panImplied .dst pic other mode = false := rfl

/-- The source leaves its PAN identifier out under compression after a present destination
(spec/40_address_codec.md R132). -/
theorem panImplied_src_dstAddr {h : HeaderRegs} (hm : fcDstMode h.fc ≠ 1) :
    panImplied .src (fcCompress h.fc) h.dstAddr 1 = true ↔ fcCompress h.fc = true ∧ fcDstMode h.fc ≠ 0 := by
  simp [panImplied_iff, dstAddr_isSome hm]

/-- The counter field is present outside version 2, and in version 2 unless suppressed (spec/30_encoding.md R104). -/
theorem fcPresent_iff {ver : BitVec 2} {sc : Byte} :
    fcPresent ver sc = true ↔ ver ≠ 2 ∨ sc.getLsbD 5 = false := by
  simp [fcPresent, scFcSuppress]

/-- The nine key identifier bytes, in wire order (spec/10_state.md R43). -/
theorem HeaderRegs.kid_eq (h : HeaderRegs) :
    h.kid =
      [h.kid0.extractLsb' 0 8, h.kid0.extractLsb' 8 8, h.kid0.extractLsb' 16 8, h.kid0.extractLsb' 24 8,
        h.kid1.extractLsb' 0 8, h.kid1.extractLsb' 8 8, h.kid1.extractLsb' 16 8, h.kid1.extractLsb' 24 8, h.kid2] := by
  rw [HeaderRegs.kid, le32_eq, le32_eq]; rfl

/-- The control byte, the counter where it is present, and the key identifier of its mode's width (R145). -/
theorem auxEncode_eq (h : HeaderRegs) :
    auxEncode h =
      [h.auxCtrl] ++
      (if fcVersion h.fc ≠ 2 ∨ h.auxCtrl.getLsbD 5 = false then
        [h.auxFc.extractLsb' 0 8, h.auxFc.extractLsb' 8 8, h.auxFc.extractLsb' 16 8, h.auxFc.extractLsb' 24 8]
       else []) ++ h.kidUsed := by
  simp only [auxEncode, fcPresent_iff, le32_eq]

/-- Settles O21: HeaderEncode is its parts' bytes in a row. -/
theorem headerEncodeWritesTheWire : Obligations.HeaderEncodeWritesTheWire := by
  intro h hd hs
  have hdst : addressEncode h.dstAddr .dst (fcCompress h.fc) none = _ := addressEncode_addrOf _ _ _ _ _ _ hd
  have hsrc : addressEncode h.srcAddr .src (fcCompress h.fc) h.dstAddr = _ := addressEncode_addrOf _ _ _ _ _ _ hs
  simp only [panImplied_dst, Bool.false_eq_true, or_false] at hdst
  simp only [panImplied_src_dstAddr hd] at hsrc
  rw [headerEncode, fcEncode_eq, hdst, hsrc, auxEncode_eq, HeaderRegs.kidUsed, HeaderRegs.kid_eq, kidLen_eq,
    scKeyIdMode]
  simp only [List.append_assoc, List.cons_append, List.nil_append]

end Sys2Proof.Machine
end

section
/-! The content dispatch of DECODE and ENCODE on a body that an external codec handles (spec/42_content_codec.md R170,
R171, R172): what the row leaves for a listed answer, what a row that raised makes of its command, obligation O16. -/

namespace Sys2Proof.Machine

/-! ## The rows that ask a body codec -/

/-- Frame types 0 and 3 are the rows that ask a body codec (R170, R171). -/
theorem contentDispatch_external {fc : Half} {port : BodyPort}
    (h : fcType fc = 0 ∧ port = .beacon ∨ fcType fc = 3 ∧ port = .command) (s : State) :
    contentDispatch fc s = externalContent port s := by
  rcases h with ⟨ht, rfl⟩ | ⟨ht, rfl⟩ <;> rw [contentDispatch, ht] <;> rfl

/-- ContentDecode with a listed answer within the contract leaves that answer's result and uses the answer (R170). -/
theorem externalContent_decoding {s : State} {port : BodyPort} {fc : Half} {cur fin : Nat} {bytes : Bytes}
    {r : CodecReply Nat} {rest : List (CodecReply Nat)} (hr : s.mem.readBuf .fbuf cur (fin - cur) = some bytes)
    (ha : s.ports.decodeAnswers port = r :: rest) (hb : bodyDecodeBreach bytes r = false) :
    externalContent port (s.withEngine (.decoding fc cur fin)) =
      .next ((s.withPorts ((s.ports.record (.bodyDecode port bytes)).nextDecode port)).withEngine
        (decodeResult cur r)) := by
  have hans : (askBodyDecode port bytes (s.withEngine (.decoding fc cur fin))).1 = r := by simp [askBodyDecode, ha]
  simp only [externalContent, State.withEngine_engine, State.withEngine_mem, hr, hans, hb, Bool.false_eq_true, if_false]
  rfl

/-- ContentEncode with a listed answer within the contract leaves that answer's result and uses the answer (R171). -/
theorem externalContent_encoding {s : State} {port : BodyPort} {fc : Half} {outLen cap : Nat}
    {r : CodecReply Bytes} {rest : List (CodecReply Bytes)} (ha : s.ports.encodeAnswers port = r :: rest)
    (hb : bodyEncodeBreach cap r = false) :
    externalContent port (s.withEngine (.encoding fc outLen cap)) =
      .next ((s.withPorts ((s.ports.record (.bodyEncode port cap)).nextEncode port)).withEngine
        (encodeResult outLen r)) := by
  have hans : (askBodyEncode port cap (s.withEngine (.encoding fc outLen cap))).1 = r := by simp [askBodyEncode, ha]
  simp only [externalContent, State.withEngine_engine, hans, hb, Bool.false_eq_true, if_false]
  rfl

/-- Only a shortage of bytes keeps its code; any other error of a body codec is InvalidValue (R172). -/
theorem bodyError_eq (e : CodecErr) (off : Nat) :
    bodyError e off =
      .raised (if e = .notEnoughBytes then .notEnoughBytes else .invalidValue) (BitVec.ofNat 8 off) := by
  cases e <;> rfl

/-! ## A command whose content row raised -/

/-- DECODE raises what its content row raised, even where the footer cannot be read (R220). -/
theorem exec_decode_of_content_raised {s : State} {h : Hdr} {hl : Nat} {p : Ports} {c : Code} {v : Byte}
    (hf : decodeFront s = .ok (h, hl))
    (hc : contentDispatch h.fc (decodeOperands h hl s) = .next ((s.withPorts p).withEngine (.raised c v))) :
    exec .decode s = .next (raiseIn .decode c v (s.withPorts p)) := by
  change execDecode s = _
  simp only [execDecode, hf, hc, decodeBack]
  split <;> rfl

/-- ENCODE raises what its content row raised, even where the payload cannot be read (R221). -/
theorem exec_encode_of_content_raised {s : State} {p : Ports} {c : Code} {v : Byte}
    (hv : headerValidate s.hdr = .ok ())
    (hc : contentDispatch s.hdr.fc (encodeOperands s) = .next ((s.withPorts p).withEngine (.raised c v))) :
    exec .encode s = .next (raiseIn .encode c v (s.withPorts p)) := by
  change execEncode s = _
  simp only [execEncode, hv, hc, encodeBack]
  split <;> rfl

/-- Settles O16: the row leaves the codec's error as a raise at the operand where the content begins, and the command
raises it. -/
theorem bodyErrorsNameTheContentOffset : Obligations.BodyErrorsNameTheContentOffset := by
  refine ⟨fun s h hl port bytes e rest hd ht hfit hr ha => ?_, fun s port e rest hv ht ha => ?_⟩
  · have hrow : contentDispatch h.fc (decodeOperands h hl s) = _ :=
      (contentDispatch_external ht _).trans (externalContent_decoding hr ha (bodyDecodeBreach_err bytes e))
    rw [decodeResult, bodyError_eq] at hrow
    exact ⟨_, exec_decode_of_content_raised (decodeFront_eq_ok.2 ⟨hd, hfit⟩) hrow⟩
  · have hrow : contentDispatch s.hdr.fc (encodeOperands s) = _ :=
      (contentDispatch_external ht _).trans (externalContent_encoding ha (bodyEncodeBreach_err _ e))
    rw [encodeResult, bodyError_eq] at hrow
    exact ⟨_, exec_encode_of_content_raised hv hrow⟩

end Sys2Proof.Machine
end

section
/-! The security procedure up to the nonce (spec/43_security_transform.md R181, R184 to R187): the length bound, what
SECURE and VERIFY raise where the key, its AEAD instance, the source address or the seal is missing. Obligations O27,
O28 and O29. -/

namespace Sys2Proof.Machine

/-! ## LengthCheck -/

/-- The left-hand side of LengthCheck is at most 16 + 14 + 2 = 32 (R184). -/
theorem HeaderRegs.lengthCheck_left_le (h : HeaderRegs) : tagLen h.level + h.auxSize + 2 ≤ 32 := by
  have htag := tagLen_le h.level
  have haux : h.auxSize ≤ 14 := (auxLen_le _ _).2
  omega

/-- Settles O27: the left-hand side is at most 32, well under the 127 that LengthCheck allows. -/
theorem lengthCheckNeverFails : Obligations.LengthCheckNeverFails := by
  intro h
  have hle := h.lengthCheck_left_le
  exact ⟨hle, demand_eq_ok.2 (decide_eq_true (by omega))⟩

/-! ## A command whose steps 5 to 7 fail -/

/-- `i` is SECURE or VERIFY, which raises as `cmd`, and its checks before KeyStep pass in `s` (R188, R189). -/
def PastChecks (cmd : Command) (i : Instr) (s : State) : Prop :=
  (cmd = .secure ∧ i = .secure ∧ secureGuard s = .ok () ∧ secureChecks s = .ok ()) ∨
    (cmd = .verify ∧ i = .verify ∧ verifyGuard s = .ok () ∧ verifyChecks s = .ok ())

/-- With security on, the code in which steps 5 to 7 fail, whatever the counter, is the code the command raises. -/
theorem exec_of_prepare_failed {cmd : Command} {i : Instr} {s s' : State} {k : Code} (hp : PastChecks cmd i s)
    (hs : fcSecurity s.hdr.fc = true) (hf : ∀ c, prepare c s = (.failed k, s')) :
    exec i s = .next (raiseIn cmd k 0 s') := by
  rcases hp with ⟨rfl, rfl, hg, hc⟩ | ⟨rfl, rfl, hg, hc⟩
  · change execSecure s = _
    rw [execSecure_on hg hc hs, hf]
  · change execVerify s = _
    rw [execVerify_on hg hc hs, hf]

/-! ## A seal that the AEAD refuses -/

/-- An Err listed next for AEAD.seal makes its call raise KeyFailure(0) (R181). -/
theorem sealCall_refused {keep : Option Bytes} {inst nonce ad pt : Bytes} {t : Nat} {s : State}
    {ss : List (Option (Bytes × Bytes))} (ha : s.ports.aeadSeal = none :: ss) :
    ∃ q, sealCall keep inst nonce ad pt t s = .next ((s.withPorts q).withEngine (.raised .keyFailure 0)) := by
  have hans : (askSeal inst nonce ad pt t s).1 = none := by rw [askSeal, ha]; rfl
  refine ⟨(askSeal inst nonce ad pt t s).2.ports, ?_⟩
  simp only [sealCall, hans, sealBreach_none, Bool.false_eq_true, if_false]
  rfl

/-- At every level but None SealBody calls AEAD.seal, so that Err makes it raise too (R181). -/
theorem sealBody_refused {lvl : BitVec 3} {inst nonce p : Bytes} {s : State} {ss : List (Option (Bytes × Bytes))}
    (hl : lvl ≠ 0) (ha : s.ports.aeadSeal = none :: ss) :
    ∃ q, sealBody lvl inst nonce p s = .next ((s.withPorts q).withEngine (.raised .keyFailure 0)) := by
  rcases Nat.lt_or_ge 3 lvl.toNat with henc | hmic
  · rw [sealBody_enc henc]; exact sealCall_refused ha
  · rw [sealBody_mic hl hmic]; exact sealCall_refused ha

/-- Step 8 of SECURE raises KeyFailure(0) where the AEAD refuses to seal (R181, R188). -/
theorem secureSeal_refused {inst nonce p : Bytes} {s : State} {ss : List (Option (Bytes × Bytes))}
    (hl : s.hdr.level ≠ 0) (ha : s.ports.aeadSeal = none :: ss) (hr : s.mem.readBuf .pbuf 0 s.plen.toNat = some p) :
    ∃ q, secureSeal inst nonce s = .next (raiseIn .secure .keyFailure 0 (s.withPorts q)) := by
  obtain ⟨q, hq⟩ :=
    sealBody_refused (inst := inst) (nonce := nonce) (p := p)
      (s := s.withEngine (.sealing s.hdr.auxCtrl inst nonce p)) hl ha
  have hrow : transformDispatch s.hdr.auxCtrl (s.withEngine (.sealing s.hdr.auxCtrl inst nonce p)) = _ :=
    (transformDispatch_transform _ _).trans hq
  refine ⟨q, ?_⟩
  simp only [secureSeal, hr, hrow]
  rfl

/-- Settles O28: a Miss and a refused key are failures of steps 5 and 6, which both commands raise; a refused seal is
one of step 8. -/
theorem keyAndInitFailures : Obligations.KeyAndInitFailures := by
  refine ⟨fun cmd i s hp hs => ⟨fun ks hk => ?_, fun key ks is hk hi => ?_⟩,
    fun s key inst p ea ks is ss hg hc hs hl hk hi ha hx hr => ?_⟩
  · rw [exec_of_prepare_failed hp hs fun _ => prepare_miss hk, State.keyAsked, hk]
    rfl
  · rw [exec_of_prepare_failed hp hs fun _ => prepare_badKey hk hi, State.initAsked, hk, hi]
    rfl
  · obtain ⟨q, hq⟩ := secureSeal_refused (s := s.withPorts (s.initAsked key)) hl ha hr
    refine ⟨q, ?_⟩
    change execSecure s = _
    rw [execSecure_on hg hc hs, prepare_ready hk hi hx]
    exact hq

/-- The nonce byte by byte (R185). -/
theorem nonceOf_eq (ea : BitVec 64) (c : Word) (lvl : BitVec 3) :
    nonceOf ea c lvl =
      [ea.extractLsb' 56 8, ea.extractLsb' 48 8, ea.extractLsb' 40 8, ea.extractLsb' 32 8, ea.extractLsb' 24 8,
       ea.extractLsb' 16 8, ea.extractLsb' 8 8, ea.extractLsb' 0 8, c.extractLsb' 24 8, c.extractLsb' 16 8,
       c.extractLsb' 8 8, c.extractLsb' 0 8, lvl.setWidth 8] := by
  rw [nonceOf, be64, be32, le64_eq, le32_eq]
  rfl

/-- Settles O29: the nonce is the reversed little-endian bytes and the level; a source without an extended address is
the failure of step 7, which both commands raise. -/
theorem nonceLayoutAndItsAddress : Obligations.NonceLayoutAndItsAddress :=
  ⟨nonceOf_eq, fun _ _ _ _ _ _ _ hp hs hk hi hx =>
    ⟨_, exec_of_prepare_failed hp hs fun _ => prepare_noAddress hk hi hx⟩⟩

end Sys2Proof.Machine
end

section
/-! What a command leaves of FRAME_COUNTER and of the payload where it does not succeed
(spec/43_security_transform.md R190, R193). Obligations O56 and O55. -/

namespace Sys2Proof.Machine

/-! ## FRAME_COUNTER -/

/-- No raise moves the counter (R246). -/
theorem Raised.frameCounter_eq {cmd : Command} {s t : State} (h : Raised cmd s t) :
    t.frameCounter = s.frameCounter := by
  obtain ⟨p, c, v, rfl, -⟩ := h
  simp

/-- Only SECURE has an outcome that moves the counter (R190). -/
theorem exec_frameCounter_of_ne_secure {i : Instr} {s t : State} (hi : i ≠ .secure) (h : exec i s = .next t) :
    t.frameCounter = s.frameCounter := by
  rcases row_or_command i with hrow | rfl | rfl | rfl | rfl | rfl | ⟨w, rfl⟩
  · obtain ⟨p, e, rfl⟩ := exec_row hrow h
    rfl
  · cases h
    rfl
  · rcases execDecode_cases h with hr | ⟨p, hd, hl, cn, ft, -, -, -, -, rfl⟩
    · exact hr.frameCounter_eq
    · rfl
  · rcases execEncode_cases h with hr | ⟨p, body, pl, -, -, -, rfl⟩
    · exact hr.frameCounter_eq
    · rfl
  · exact absurd rfl hi
  · rcases execVerify_cases h with hr | ⟨p, -, rfl⟩ | ⟨-, -, rfl⟩ | ⟨p, bs, pt, -, -, -, -, -, -, rfl⟩
    · exact hr.frameCounter_eq
    · rfl
    · rfl
    · rfl
  · cases h
    rfl

/-- A SECURE that succeeded with security on has advanced the counter by 1, from a value at which that does not wrap:
step 4 has ruled 0xFFFFFFFF out (R188, R190). -/
theorem Sealed.frameCounter_advanced {s t : State} (h : Sealed s t) :
    (fcSecurity s.hdr.fc = true ∧ t.status.code = .ok) ∧
      t.frameCounter = s.frameCounter + 1 ∧ t.frameCounter.toNat = s.frameCounter.toNat + 1 := by
  obtain ⟨p, pl, q, tag, -, hs, hc, -, -, -, rfl⟩ := h
  obtain ⟨-, -, -, hmax⟩ := secureChecks_eq_ok.1 hc
  have hnowrap : (s.frameCounter + 1).toNat = s.frameCounter.toNat + 1 := by bv_omega
  exact ⟨⟨hs, rfl⟩, rfl, hnowrap⟩

/-- Settles O56: of SECURE's outcomes the raise and the no-op keep the counter and the commit advances it; no other
instruction moves it. -/
theorem onlySecureAdvancesTheCounter : Obligations.OnlySecureAdvancesTheCounter := by
  intro i s t h
  by_cases hi : i = .secure
  · subst hi
    rcases execSecure_cases h with hr | ⟨hoff, rfl⟩ | hsealed
    · rw [if_neg fun ⟨_, _, hok⟩ => hr.code.1 hok]
      exact hr.frameCounter_eq
    · rw [if_neg fun ⟨_, hon, _⟩ => Bool.false_ne_true (hoff.symm.trans hon)]
      rfl
    · obtain ⟨hok, hadvanced⟩ := hsealed.frameCounter_advanced
      rw [if_pos ⟨rfl, hok⟩]
      exact hadvanced
  · rw [if_neg fun hc => hi hc.1]
    exact exec_frameCounter_of_ne_secure hi h

/-! ## A SECURE or VERIFY that raises -/

/-- A SECURE or VERIFY that ends without success has raised, after some port calls; VerificationFailure is VERIFY's
alone (R193, R246). -/
theorem exec_failed_cases {i : Instr} {s t : State} (hi : i = .secure ∨ i = .verify) (h : exec i s = .next t)
    (hbad : t.status.code ≠ .ok) :
    ∃ cmd c v p, (cmd = .secure ∨ cmd = .verify) ∧ (c = .verificationFailure → cmd = .verify) ∧
      t = raiseIn cmd c v (s.withPorts p) := by
  rcases hi with rfl | rfl
  · rcases execSecure_cases h with ⟨p, c, v, rfl, -, hc, -⟩ | ⟨-, rfl⟩ | hsealed
    · exact ⟨.secure, c, v, p, .inl rfl, fun hv => absurd hv hc, rfl⟩
    · exact absurd rfl hbad
    · exact absurd hsealed.frameCounter_advanced.1.2 hbad
  · rcases execVerify_cases h with ⟨p, c, v, rfl, -⟩ | ⟨p, -, rfl⟩ | ⟨-, -, rfl⟩ | ⟨p, bs, pt, -, -, -, -, -, -, rfl⟩
    · exact ⟨.verify, c, v, p, .inr rfl, fun _ => rfl, rfl⟩
    · exact ⟨.verify, _, 0, p, .inr rfl, fun _ => rfl, rfl⟩
    · exact absurd rfl hbad
    · exact absurd rfl hbad

/-- A raise in SECURE or VERIFY writes no buffer byte (R193, R246). -/
theorem raiseIn_security_mem {cmd : Command} (hcmd : cmd = .secure ∨ cmd = .verify) (c : Code) (v : Byte)
    (s : State) : (raiseIn cmd c v s).mem = s.mem := by
  rcases hcmd with rfl | rfl <;> simp

/-- Settles O55: a failed SECURE or VERIFY is a raise after port calls, and that keeps the memory and the registers;
VerificationFailure is VERIFY's, which empties the payload view. -/
theorem failuresExposeNothing : Obligations.FailuresExposeNothing := by
  intro i s t hi h hbad
  obtain ⟨cmd, c, v, p, hcmd, hverify, rfl⟩ := exec_failed_cases hi h hbad
  refine ⟨fun a => by rw [raiseIn_security_mem hcmd]; rfl, by simp, by simp, by simp, fun hc => ?_⟩
  rw [raiseIn_code] at hc
  obtain rfl := hverify hc
  rw [hc, raiseIn_verify_failure]

end Sys2Proof.Machine
end

section
/-! NOP (spec/44_frame_codec.md R222): it ends with the outcome that sets no bit of STATUS. Obligation O6. -/

namespace Sys2Proof.Machine

/-- NOP ends with OK and 0, in STATUS alone (R222). -/
theorem exec_nop_eq (s : State) : exec .nop s = .next { s with status := s.status.ended .ok 0 } := rfl

/-- Settles O6: the STATUS word is `Status.word_ended` at OK, which sets no bit. -/
theorem nopClearsTheCode : Obligations.NopClearsTheCode := by
  intro s
  have hclear : outcomeBits .ok 0 = 0 := by decide
  refine ⟨_, exec_nop_eq s, ?_, rfl⟩
  simp only [Status.word_ended, hclear]
  exact BitVec.or_zero

end Sys2Proof.Machine
end

section
/-! The frame that ENCODE leaves in FBUF, part by part, and the footer at its end (spec/44_frame_codec.md R220, R221,
R224). Obligation O17. -/

namespace Sys2Proof.Machine

/-- Under Explicit ENCODE writes FOOTER verbatim (R224). -/
theorem footerEncode_of_explicit {s : State} (hm : s.footerMode = .explicit) : footerEncode s = le16 s.footer := by
  rw [footerEncode, hm]

section
variable {out body p : Bytes} {s : State} (hlen : (out ++ body ++ p ++ footerEncode s).length ≤ bufferSize)
include hlen

/-- LEN does not wrap: the frame has at most 127 bytes (R221). -/
theorem encodeCommit_len_toNat :
    (encodeCommit out body p s).len.toNat = out.length + body.length + p.length + footerLen s.footerMode := by
  simp only [bufferSize, List.length_append, footerEncode_length] at hlen
  simp only [encodeCommit_len, BitVec.toNat_ofNat, List.length_append, footerEncode_length]
  omega

/-- The payload view does not wrap either: it starts after the header and the content (R221). -/
theorem encodeCommit_payload_off_toNat :
    (encodeCommit out body p s).payload.off.toNat = out.length + body.length := by
  simp only [bufferSize, List.length_append] at hlen
  simp only [encodeCommit_payload, BitVec.toNat_ofNat, List.length_append]
  omega

/-- The payload view ends where the footer begins (R221). -/
theorem encodeCommit_payload_end (hp : p.length = s.plen.toNat) :
    (encodeCommit out body p s).payload.off.toNat + (encodeCommit out body p s).payload.len.toNat +
      footerLen s.footerMode = (encodeCommit out body p s).len.toNat := by
  rw [encodeCommit_payload_off_toNat hlen, encodeCommit_len_toNat hlen, encodeCommit_payload, hp]

/-- FBUF holds the header, the content, the payload and the footer in a row (R221). -/
theorem encodeCommit_holds :
    (encodeCommit out body p s).mem.holds .fbuf 0 out ∧
      (encodeCommit out body p s).mem.holds .fbuf out.length (body ++ p) ∧
      (encodeCommit out body p s).mem.holds .fbuf (out.length + body.length) p ∧
      (encodeCommit out body p s).mem.holds .fbuf (out.length + body.length + p.length) (footerEncode s) := by
  have hframe : (encodeCommit out body p s).mem.holds .fbuf 0 (out ++ body ++ p ++ footerEncode s) :=
    Memory.readBuf_writeBuf _ _ _ _ (by omega)
  simp only [Memory.holds_append, List.length_append, Nat.zero_add] at hframe ⊢
  obtain ⟨⟨⟨hout, hbody⟩, hp⟩, hft⟩ := hframe
  exact ⟨hout, ⟨hbody, hp⟩, hp, hft⟩

/-- DECODE of the frame finds a footer, under Explicit the one that ENCODE was given (R224). -/
theorem footerDecode_encodeCommit :
    ∃ ft, footerDecode (encodeCommit out body p s) = some ft ∧ (s.footerMode = .explicit → ft = s.footer) := by
  obtain ⟨-, -, -, hft⟩ := encodeCommit_holds hlen
  rw [footerDecode, encodeCommit_len_toNat hlen, encodeCommit_footerMode]
  cases hm : s.footerMode with
  | noFooter => exact ⟨0, rfl, nofun⟩
  | explicit =>
    simp only [Memory.holds, footerEncode_of_explicit hm, le16_length] at hft
    simp only [footerLen, Nat.add_sub_cancel, hft, Option.map_some, ofLE_le16]
    exact ⟨_, rfl, fun _ => rfl⟩

end

/-- The payload view that DECODE commits ends where the footer begins (R220). -/
theorem decodeCommit_payload_end {s : State} (h : Hdr) {hl cn : Nat} (ft : Half)
    (hfit : hl + cn ≤ s.len.toNat - footerLen s.footerMode) :
    (decodeCommit h hl cn ft s).payload.off.toNat + (decodeCommit h hl cn ft s).payload.len.toNat =
      s.len.toNat - footerLen s.footerMode := by
  have hlen := s.len.isLt
  simp only [decodeCommit_payload, BitVec.toNat_ofNat]
  omega

/-- Under Explicit DECODE's footer is the last two bytes of the frame, low byte first (R224). -/
theorem footerDecode_explicit {s : State} {ft : Half} (hm : s.footerMode = .explicit) (h : footerDecode s = some ft) :
    ∃ b0 b1 : Byte, s.mem.readBuf .fbuf (s.len.toNat - 2) 2 = some [b0, b1] ∧ ft = b1 ++ b0 := by
  simp only [footerDecode, hm, Option.map_eq_some_iff] at h
  obtain ⟨bs, hbs, rfl⟩ := h
  obtain ⟨b0, b1, rfl⟩ := List.length_eq_two.1 (Memory.readBuf_length hbs)
  exact ⟨b0, b1, hbs, ofLE_two b0 b1⟩

/-- Under None DECODE's footer is 0 (R224). -/
theorem footerDecode_noFooter {s : State} {ft : Half} (hm : s.footerMode = .noFooter) (h : footerDecode s = some ft) :
    ft = 0 := by
  simp only [footerDecode, hm, Option.some.injEq] at h
  exact h.symm

/-- Settles O17: the footer DECODE commits is `footerDecode`, the two bytes after the payload view; the frame ENCODE
writes ends with `footerEncode`. -/
theorem footerIsCopiedVerbatim : Obligations.FooterIsCopiedVerbatim := by
  refine ⟨fun s t ht hok => ?_, fun s t ht hok => ?_⟩
  · rcases execDecode_cases ht with hr | ⟨p, h, hl, cn, ft, -, hfit, hcn, hft, rfl⟩
    · exact absurd hok hr.code.1
    have hend := decodeCommit_payload_end (s := s.withPorts p) h (hl := hl) (cn := cn) ft
      (by simp only [State.withPorts_len, State.withPorts_footerMode]; omega)
    simp only [State.withPorts_len, State.withPorts_footerMode] at hend
    refine ⟨fun hm => ?_, fun hm => ?_⟩
    · rw [hm] at hend hfit
      simp only [footerLen] at hend hfit
      exact ⟨by omega, footerDecode_explicit hm hft, hend⟩
    · rw [hm] at hend
      exact ⟨footerDecode_noFooter hm hft, hend⟩
  · rcases execEncode_cases ht with hr | ⟨p, body, pl, -, hpl, hlen, rfl⟩
    · exact absurd hok hr.code.1
    have hlen' : (headerEncode s.hdr ++ body ++ pl ++ footerEncode (s.withPorts p)).length ≤ bufferSize := hlen
    have hend := encodeCommit_payload_end hlen' (Memory.readBuf_length hpl)
    rw [State.withPorts_footerMode] at hend
    obtain ⟨-, -, -, hft⟩ := encodeCommit_holds hlen'
    refine ⟨rfl, fun hm => ?_, fun hm => ?_⟩
    · simp only [Memory.holds, footerEncode_withPorts, footerEncode_of_explicit hm, le16_eq] at hft
      rw [hm] at hend
      refine ⟨?_, hend⟩
      rw [encodeCommit_len_toNat hlen', State.withPorts_footerMode, hm]
      exact hft
    · rw [hm] at hend
      exact hend

end Sys2Proof.Machine
end

section
/-! ENCODE followed by DECODE (spec/44_frame_codec.md R225): the content row's answer on both sides, what each command
commits of it, and that DECODE of the committed frame gives back its parts. Obligation O24. -/

namespace Sys2Proof.Machine

/-! ## The content row's answer on both sides -/

/-- Frame types 1 and 2 are the rows without a body (R170, R171). -/
theorem contentDispatch_empty {fc : Half} (h : fcType fc = 1 ∨ fcType fc = 2) (s : State) :
    contentDispatch fc s = emptyContent s := by
  rcases h with ht | ht <;> rw [contentDispatch, ht] <;> rfl

/-- ContentDecode of the frame control word will find `n` bytes of content: none for a type without a body, else as
the answer listed next for the type's codec says (R170). -/
def Ports.decodesNext (p : Ports) (fc : Half) (n : Nat) : Prop :=
  ((fcType fc = 1 ∨ fcType fc = 2) ∧ n = 0) ∨
    ∃ port rest, (fcType fc = 0 ∧ port = .beacon ∨ fcType fc = 3 ∧ port = .command) ∧
      p.decodeAnswers port = .ok n :: rest

/-- ContentDecode finds the announced content where the bytes up to the footer are defined and hold it (R170). -/
theorem contentDispatch_of_decodesNext {s : State} {fc : Half} {cur fin n : Nat} {bytes : Bytes}
    (hn : s.ports.decodesNext fc n) (hr : s.mem.readBuf .fbuf cur (fin - cur) = some bytes) (hle : n ≤ bytes.length) :
    ∃ q, contentDispatch fc (s.withEngine (.decoding fc cur fin)) =
      .next ((s.withPorts q).withEngine (.consumed n)) := by
  rcases hn with ⟨ht, rfl⟩ | ⟨port, rest, ht, ha⟩
  · exact ⟨s.ports, contentDispatch_empty ht _⟩
  · exact ⟨_, (contentDispatch_external ht _).trans (externalContent_decoding hr ha (bodyDecodeBreach_ok.2 hle))⟩

/-- The two ways a body can round-trip: the type has none, or its codec lists what it will encode and that it will
decode just that (R225). -/
theorem State.bodyRoundTrips_cases {s : State} (h : s.bodyRoundTrips) :
    (fcType s.hdr.fc = 1 ∨ fcType s.hdr.fc = 2) ∨
      ∃ port b es ds, (fcType s.hdr.fc = 0 ∧ port = .beacon ∨ fcType s.hdr.fc = 3 ∧ port = .command) ∧
        s.ports.encodeAnswers port = .ok b :: es ∧ s.ports.decodeAnswers port = .ok b.length :: ds := by
  have htype : ∀ {k : BitVec 3}, (fcType s.hdr.fc).toNat = k.toNat → fcType s.hdr.fc = k := BitVec.eq_of_toNat_eq
  unfold State.bodyRoundTrips at h
  split at h
  · next h0 =>
    obtain ⟨b, es, ds, he, hd⟩ := h
    exact .inr ⟨.beacon, b, es, ds, .inl ⟨htype (k := 0) h0, rfl⟩, he, hd⟩
  · next h1 => exact .inl (.inl (htype (k := 1) h1))
  · next h2 => exact .inl (.inr (htype (k := 2) h2))
  · next h3 =>
    obtain ⟨b, es, ds, he, hd⟩ := h
    exact .inr ⟨.command, b, es, ds, .inr ⟨htype (k := 3) h3, rfl⟩, he, hd⟩
  · exact h.elim

/-- A codec's encode leaves the answers of its decode as they are. -/
theorem Ports.decodeAnswers_nextEncode (p : Ports) (c : PortCall) (port : BodyPort) :
    ((p.record c).nextEncode port).decodeAnswers port = p.decodeAnswers port := by
  cases port <;> rfl

/-- An answer of a codec's encode that breaks the contract ends ENCODE in a fault (R257). -/
theorem externalContent_encoding_breach {s : State} {port : BodyPort} {fc : Half} {outLen cap : Nat}
    {r : CodecReply Bytes} {rest : List (CodecReply Bytes)} (ha : s.ports.encodeAnswers port = r :: rest)
    (hb : bodyEncodeBreach cap r = true) :
    externalContent port (s.withEngine (.encoding fc outLen cap)) = .fault .portContract := by
  have hans : (askBodyEncode port cap (s.withEngine (.encoding fc outLen cap))).1 = r := by simp [askBodyEncode, ha]
  simp only [externalContent, State.withEngine_engine, hans, hb, if_true]

/-- What ContentEncode wrote, ContentDecode will find, where the body codec decodes what it encodes (R225). -/
theorem decodesNext_of_produced {s : State} {q : Ports} {body : Bytes} {outLen cap : Nat} (hb : s.bodyRoundTrips)
    (hc : contentDispatch s.hdr.fc (s.withEngine (.encoding s.hdr.fc outLen cap)) =
      .next ((s.withPorts q).withEngine (.produced body))) :
    q.decodesNext s.hdr.fc body.length := by
  rcases s.bodyRoundTrips_cases hb with ht | ⟨port, b, es, ds, ht, he, hd⟩
  · have hrow := (contentDispatch_empty ht _).symm.trans hc
    cases congrArg State.engine (Host.Outcome.next.inj hrow)
    exact .inl ⟨ht, rfl⟩
  · have hrow := (contentDispatch_external ht _).symm.trans hc
    cases hbreach : bodyEncodeBreach cap (.ok b) with
    | true => cases (externalContent_encoding_breach he hbreach).symm.trans hrow
    | false =>
      have hst := Host.Outcome.next.inj ((externalContent_encoding he hbreach).symm.trans hrow)
      have hq : ((s.ports.record (.bodyEncode port cap)).nextEncode port) = q := congrArg State.ports hst
      cases congrArg State.engine hst
      exact .inr ⟨port, ds, ht, by rw [← hq, Ports.decodeAnswers_nextEncode, hd]⟩

/-! ## The round trip -/

/-- An ENCODE that succeeds commits the content that its row produced (R221). -/
theorem exec_encode_ok {s t : State} (ht : exec .encode s = .next t) (hok : t.status.code = .ok) :
    ∃ q body pl, headerValidate s.hdr = .ok () ∧
      contentDispatch s.hdr.fc (encodeOperands s) = .next ((s.withPorts q).withEngine (.produced body)) ∧
      s.mem.readBuf .pbuf 0 s.plen.toNat = some pl ∧
      (headerEncode s.hdr ++ body ++ pl ++ footerEncode s).length ≤ bufferSize ∧
      t = encodeCommit (headerEncode s.hdr) body pl (s.withPorts q) := by
  rcases execEncode_cases ht with hr | ⟨-, -, pl, hv, hpl, -⟩
  · exact absurd hok hr.code.1
  change execEncode s = _ at ht
  simp only [execEncode, hv] at ht
  cases hc : contentDispatch s.hdr.fc (encodeOperands s) with
  | fault r => simp only [hc, reduceCtorEq] at ht
  | refused r => simp only [hc, reduceCtorEq] at ht
  | next s' =>
    obtain ⟨q, e, rfl, hrow⟩ := contentDispatch_keeps _ _ _ hc
    have hc : contentDispatch s.hdr.fc (encodeOperands s) = .next ((s.withPorts q).withEngine e) := hc
    simp only [hc, encodeBack, State.withEngine_mem, State.withPorts_mem, State.withEngine_plen, State.withPorts_plen,
      hpl, Host.Outcome.next.injEq] at ht
    subst ht
    rcases hrow with ⟨body, rfl, -⟩ | ⟨c, v, rfl, hcode, -⟩
    · simp only [encodeEnd, State.withEngine_engine] at hok ⊢
      split at hok
      · next hlen => exact ⟨q, body, pl, hv, rfl, hpl, hlen, if_pos hlen⟩
      · simp at hok
    · exact absurd hok (by simpa [encodeEnd] using hcode)

/-- DECODE commits the content that its row consumed (R220). -/
theorem exec_decode_of_consumed {s : State} {h : Hdr} {hl n : Nat} {q : Ports} {ft : Half}
    (hf : decodeFront s = .ok (h, hl)) (hft : footerDecode s = some ft)
    (hc : contentDispatch h.fc (decodeOperands h hl s) = .next ((s.withPorts q).withEngine (.consumed n))) :
    exec .decode s = .next (decodeCommit h hl n ft (s.withPorts q)) := by
  change execDecode s = _
  simp only [execDecode, hf, hc, decodeBack, footerDecode_withEngine, footerDecode_withPorts, hft]
  rfl

/-- Under compression a well-formed header's source has the destination's PAN identifier (R225). -/
theorem HeaderRegs.canonical_srcPan {h : HeaderRegs} (hc : h.canonical = true)
    (hp : srcPanCompressed (fcCompress h.fc) (fcDstMode h.fc) (fcSrcMode h.fc) = true) : h.srcPan = h.dstPan := by
  simp only [HeaderRegs.canonical, Bool.and_eq_true, hp, Bool.not_true, Bool.false_or, beq_iff_eq] at hc
  obtain ⟨⟨⟨⟨hpan, -⟩, -⟩, -⟩, -⟩ := hc
  exact hpan

/-- A well-formed header's reserved bits are 0 (R225). -/
theorem HeaderRegs.canonical_rsvd {h : HeaderRegs} (hc : h.canonical = true) : fcRsvd h.fc = 0 := by
  simp only [HeaderRegs.canonical, Bool.and_eq_true, beq_iff_eq] at hc
  obtain ⟨-, hrsvd⟩ := hc
  exact hrsvd

/-- DECODE reads a frame that ENCODE has committed back into its parts, where the header is well-formed and the ports
will decode the content (R225). -/
theorem exec_decode_encodeCommit {s : State} {body pl : Bytes} (hc : s.hdr.canonical = true)
    (hv : headerValidate s.hdr = .ok ())
    (hlen : (headerEncode s.hdr ++ body ++ pl ++ footerEncode s).length ≤ bufferSize)
    (hn : s.ports.decodesNext s.hdr.fc body.length) :
    ∃ q ft, (s.footerMode = .explicit → ft = s.footer) ∧
      exec .decode (encodeCommit (headerEncode s.hdr) body pl s) =
        .next (decodeCommit (hdrOf s.hdr) (headerEncode s.hdr).length body.length ft
          ((encodeCommit (headerEncode s.hdr) body pl s).withPorts q)) := by
  obtain ⟨hout, hrest, -, -⟩ := encodeCommit_holds hlen
  have hl := encodeCommit_len_toNat hlen
  have hdecode := header_roundtrip s.hdr (headerValidate_eq_ok.1 hv).2 (HeaderRegs.canonical_rsvd hc)
    (HeaderRegs.canonical_srcPan hc) hout
    (fin := (encodeCommit (headerEncode s.hdr) body pl s).len.toNat) (by omega)
  have hfront := decodeFront_eq_ok.2 ⟨hdecode, by rw [hl, encodeCommit_footerMode]; omega⟩
  have hroom : (headerEncode s.hdr).length + body.length + pl.length + footerLen s.footerMode -
      footerLen s.footerMode - (headerEncode s.hdr).length = (body ++ pl).length := by
    rw [List.length_append]; omega
  obtain ⟨q, hq⟩ := contentDispatch_of_decodesNext (s := encodeCommit (headerEncode s.hdr) body pl s)
    (cur := (headerEncode s.hdr).length) hn (by rw [hroom]; exact hrest) (by simp)
  obtain ⟨ft, hft, hexplicit⟩ := footerDecode_encodeCommit hlen
  exact ⟨q, ft, hexplicit, exec_decode_of_consumed hfront hft (by
    rw [decodeOperands, hl, encodeCommit_footerMode]; exact hq)⟩

/-- DECODE commits the payload view that ENCODE has committed (R225). -/
theorem decodeCommit_payload_encodeCommit {out body pl : Bytes} {s : State} (h : Hdr) (ft : Half) (q : Ports)
    (hlen : (out ++ body ++ pl ++ footerEncode s).length ≤ bufferSize) (hpl : pl.length = s.plen.toNat) :
    (decodeCommit h out.length body.length ft ((encodeCommit out body pl s).withPorts q)).payload =
      (encodeCommit out body pl s).payload := by
  have hrest : out.length + body.length + pl.length + footerLen s.footerMode - footerLen s.footerMode -
      (out.length + body.length) = s.plen.toNat := by omega
  simp only [decodeCommit_payload, State.withPorts_len, State.withPorts_footerMode, encodeCommit_footerMode,
    encodeCommit_len_toNat hlen, hrest, encodeCommit_payload, List.length_append, BitVec.ofNat_toNat,
    BitVec.setWidth_eq]

/-- Settles O24: an ENCODE that succeeds commits a frame whose parts DECODE reads back, and committing the header of
well-formed registers gives these registers. -/
theorem encodeThenDecodeRoundTrips : Obligations.EncodeThenDecodeRoundTrips := by
  intro s t hc hb ht hok
  obtain ⟨p, body, pl, hv, hrow, hpl, hlen, rfl⟩ := exec_encode_ok ht hok
  have hlen' : (headerEncode s.hdr ++ body ++ pl ++ footerEncode (s.withPorts p)).length ≤ bufferSize := hlen
  obtain ⟨q, ft, hft, hu⟩ := exec_decode_encodeCommit (s := s.withPorts p) hc hv hlen'
    (decodesNext_of_produced (s := s) hb hrow)
  obtain ⟨hsec, hcheck⟩ := headerValidate_eq_ok.1 hv
  obtain ⟨hd, hs, -, -⟩ := fcCheck_eq_ok.1 hcheck
  have hplen := Memory.readBuf_length hpl
  have hview := decodeCommit_payload_encodeCommit (hdrOf s.hdr) ft q hlen' hplen
  obtain ⟨-, -, hpayload, -⟩ := encodeCommit_holds hlen'
  refine ⟨_, hu, rfl, rfl, commit_back _ hc hd hs hsec, ?_, rfl, rfl, hview, congrArg View.len hview, ?_, hft⟩
  · rw [encodeCommit_hdr, State.withPorts_hdr, fcWithRsvd_zero (HeaderRegs.canonical_rsvd hc)]
  · rw [State.withPorts_hdr, hview, encodeCommit_payload_off_toNat hlen', hpl, ← hplen]
    exact hpayload

end Sys2Proof.Machine
end

section
/-! What a command commits where it raises (spec/60_exceptions.md R245, R246). Obligation O54. -/

namespace Sys2Proof.Machine

/-! ## A command that ends without success has raised -/

theorem exec_decode_failed {s t : State} (h : exec .decode s = .next t) (hbad : t.status.code ≠ .ok) :
    Raised .decode s t := by
  rcases execDecode_cases h with hr | ⟨p, hd, hl, cn, ft, -, -, -, -, rfl⟩
  · exact hr
  · exact absurd rfl hbad

theorem exec_encode_failed {s t : State} (h : exec .encode s = .next t) (hbad : t.status.code ≠ .ok) :
    Raised .encode s t := by
  rcases execEncode_cases h with hr | ⟨p, body, pl, -, -, -, rfl⟩
  · exact hr
  · exact absurd rfl hbad

theorem exec_secure_failed {s t : State} (h : exec .secure s = .next t) (hbad : t.status.code ≠ .ok) :
    Raised .secure s t := by
  rcases execSecure_cases h with hr | ⟨-, rfl⟩ | hsealed
  · exact hr
  · exact absurd rfl hbad
  · exact absurd hsealed.frameCounter_advanced.1.2 hbad

/-- VERIFY has a second raise, the VerificationFailure of step 8 (R189). -/
theorem exec_verify_failed {s t : State} (h : exec .verify s = .next t) (hbad : t.status.code ≠ .ok) :
    Raised .verify s t ∨ ∃ p, t = raiseIn .verify .verificationFailure 0 (s.withPorts p) := by
  rcases execVerify_cases h with hr | ⟨p, -, ht⟩ | ⟨-, -, rfl⟩ | ⟨p, bs, pt, -, -, -, -, -, -, rfl⟩
  · exact .inl hr
  · exact .inr ⟨p, ht⟩
  · exact absurd rfl hbad
  · exact absurd rfl hbad

/-- VERIFY ends in VerificationFailure by step 8 alone. -/
theorem exec_verify_failure {s t : State} (h : exec .verify s = .next t)
    (hc : t.status.code = .verificationFailure) :
    ∃ p, t = raiseIn .verify .verificationFailure 0 (s.withPorts p) := by
  rcases exec_verify_failed h (by simp [hc]) with hr | hfail
  · obtain ⟨-, hne, -⟩ := hr.code
    exact absurd hc hne
  · exact hfail

/-- Every other code of VERIFY is one that it raised on its way to step 8. -/
theorem exec_verify_failed_other {s t : State} (h : exec .verify s = .next t) (hbad : t.status.code ≠ .ok)
    (hc : t.status.code ≠ .verificationFailure) : Raised .verify s t := by
  rcases exec_verify_failed h hbad with hr | ⟨p, rfl⟩
  · exact hr
  · exact absurd (raiseIn_code ..) hc

/-! ## What a raise commits (R246) -/

/-- A raise sets ERR. -/
theorem Raised.err {cmd : Command} {s t : State} (h : Raised cmd s t) : t.status.err = true := by
  obtain ⟨-, -, -, herr⟩ := h.code
  exact herr

theorem Raised.decode_row {s t : State} (h : Raised .decode s t) :
    t = { s with
      status := { s.status with
        code := t.status.code, errVal := t.status.errVal, frameValid := false, verified := false },
      engine := .idle, ports := t.ports } := by
  obtain ⟨p, c, v, rfl, -⟩ := h
  rfl

theorem Raised.encode_row {s t : State} (h : Raised .encode s t) :
    t = { s with
      status := { s.status with
        code := t.status.code, errVal := t.status.errVal, frameValid := false, verified := false },
      len := 0, mem := s.mem.undefineBuf .fbuf, engine := .idle, ports := t.ports } := by
  obtain ⟨p, c, v, rfl, -⟩ := h
  rfl

/-- SECURE, and VERIFY but for VerificationFailure, reject and keep all else. -/
theorem Raised.security_row {cmd : Command} {s t : State} (hcmd : cmd = .secure ∨ cmd = .verify)
    (h : Raised cmd s t) :
    t = { s with
      status := { s.status with code := t.status.code, errVal := t.status.errVal, secPhase := .rejected },
      engine := .idle, ports := t.ports } := by
  obtain ⟨p, c, v, rfl, -, hc, -⟩ := h
  rcases hcmd with rfl | rfl
  · rfl
  · rw [raiseIn_verify_other _ c v hc]
    rfl

/-- Settles O54: a command that ends without success has raised, after port calls alone, and the raise writes the
command's row of R246; VERIFY has one row for VerificationFailure and one for its other codes. -/
theorem failedCommandsCommitOnlyTheirRow : Obligations.FailedCommandsCommitOnlyTheirRow := by
  intro s t
  refine ⟨fun h hbad => ?decode, fun h hbad => ?encode, fun h hbad => ?secure, fun h hc => ?failure,
    fun h hbad hc => ?verify, fun h => ?nop, fun w h => ?illegal⟩
  case decode =>
    have hr := exec_decode_failed h hbad
    exact ⟨hr.err, hr.decode_row⟩
  case encode =>
    have hr := exec_encode_failed h hbad
    exact ⟨hr.err, hr.encode_row⟩
  case secure =>
    have hr := exec_secure_failed h hbad
    exact ⟨hr.err, hr.security_row (.inl rfl)⟩
  case failure =>
    obtain ⟨p, rfl⟩ := exec_verify_failure h hc
    rw [raiseIn_verify_failure]
    exact ⟨rfl, rfl⟩
  case verify =>
    have hr := exec_verify_failed_other h hbad hc
    exact ⟨hr.err, hr.security_row (.inr rfl)⟩
  case nop =>
    rw [exec_nop_eq] at h
    cases h
    rfl
  case illegal =>
    rw [exec_illegal_eq] at h
    cases h
    exact ⟨rfl, rfl, rfl⟩

end Sys2Proof.Machine
end

section
/-! Reset (spec/70_reset_and_hazards.md R280, R281): the step of a reset transaction and what the registers read after
it. Obligation O49. -/

namespace Sys2Proof.Machine

/-- The step of a reset transaction, whatever the registers and BUSY hold (R280). -/
theorem step_reset {s : State} {rest : List BusOp} (he : s.engine.pendingRow = none)
    (hh : s.host = .reset :: rest) : step s = .next (resetBlock { s with host := rest }) := by
  rw [step, nextTurn_host he, hh]
  rfl

/-- What reset keeps from before is outside the register window. -/
@[simp] theorem regRead_resetBlock (r : Reg) (s : State) : regRead r (resetBlock s) = regRead r State.reset := by
  cases r <;> simp [regRead]

/-- The reset values of R281, register by register. -/
theorem regRead_stateReset (r : Reg) :
    regRead r State.reset = if r = .frameCounter then 0xFFFFFFFF else 0 := by
  cases r <;> decide

/-- Settles O49: the step is `resetBlock`, and every register then reads as in the machine's initial state. -/
theorem resetValues : Obligations.ResetValues := by
  intro s rest he hh
  refine ⟨_, step_reset he hh, rfl, rfl, rfl, fun r => ?_, regRead_stateReset⟩
  rw [regRead_resetBlock]
  exact regRead_stateReset r

end Sys2Proof.Machine
end

section
/-! The encodings (spec/30_encoding.md R90 to R102, R110): the row that each dispatch word selects, the decoder and the
encoder as inverses, the opcode table, and the instruction that a step runs. Obligations O1, O2, O3, O4 and O5. -/

namespace Sys2Proof

/-! ## The row of a dispatch word -/

/-- The row of the frame-type dispatch for a type (R96). -/
def contentRow (ft : BitVec 3) (f : FcFields) : Instr :=
  match ft.toNat with
  | 0 => .contentBeacon f
  | 1 => .contentData f
  | 2 => .contentAck f
  | 3 => .contentCommand f
  | _ => .contentInvalid ft f

/-- The row of the security-level dispatch for a level (R102). -/
def securityRow (lvl : BitVec 3) (f : ScFields) : Instr :=
  match lvl.toNat with
  | 0 => .secNone f
  | 1 => .secMic32 f
  | 2 => .secMic64 f
  | 3 => .secMic128 f
  | 4 => .secEnc f
  | 5 => .secEncMic32 f
  | 6 => .secEncMic64 f
  | _ => .secEncMic128 f

theorem decodeFc_eq (fc : Half) : decodeFc fc = contentRow (fcType fc) (fcFields fc) := rfl

theorem decodeSc_eq (sc : Byte) : decodeSc sc = securityRow (scLevel sc) (scFields sc) := rfl

/-- The decoder reads the row back from the word packed for it. -/
theorem decodeFc_packFc (ft : BitVec 3) (f : FcFields) : decodeFc (packFc ft f) = contentRow ft f := by
  rw [decodeFc_eq, fcType_packFc, fcFields_packFc]

theorem decodeSc_packSc (lvl : BitVec 3) (f : ScFields) : decodeSc (packSc lvl f) = securityRow lvl f := by
  rw [decodeSc_eq, scLevel_packSc, scFields_packSc]

theorem contentRow_of_four_le {ft : BitVec 3} (f : FcFields) (h : 4 ≤ ft.toNat) :
    contentRow ft f = .contentInvalid ft f := by
  unfold contentRow
  split
  case h_5 => rfl
  all_goals omega

theorem wellFormed_illegal_iff {w : Word} : (Instr.illegal w).WellFormed ↔ 5 ≤ w.toNat := decide_eq_true_iff

theorem wellFormed_contentInvalid_iff {ft : BitVec 3} {f : FcFields} :
    (Instr.contentInvalid ft f).WellFormed ↔ 4 ≤ ft.toNat := decide_eq_true_iff

/-- Settles O1: a command word is read back by the opcode map, a packed dispatch word by its dispatch. -/
theorem decodeOfEncodeIsTheInstruction : Obligations.DecodeOfEncodeIsTheInstruction := by
  have content (ft : BitVec 3) (f : FcFields) : decodeBytes .fc16 (le16 (packFc ft f)) = .ok (contentRow ft f) := by
    rw [decodeBytes_le16, decodeFc_packFc]
  have security (lvl : BitVec 3) (f : ScFields) : decodeBytes .sc8 [packSc lvl f] = .ok (securityRow lvl f) := by
    rw [decodeBytes_sc, decodeSc_packSc]
  intro i hi
  cases i with
  | nop | decode | encode | secure | verify => exact decodeBytes_le32 _
  | illegal w =>
    exact (decodeBytes_le32 w).trans (congrArg _ (Machine.decodeCmd_of_five_le (wellFormed_illegal_iff.1 hi)))
  | contentBeacon f | contentData f | contentAck f | contentCommand f => exact content _ f
  | contentInvalid ft f =>
    exact (content ft f).trans (congrArg _ (contentRow_of_four_le f (wellFormed_contentInvalid_iff.1 hi)))
  | secNone f | secMic32 f | secMic64 f | secMic128 f | secEnc f | secEncMic32 f | secEncMic64 f | secEncMic128 f =>
    exact security _ f

/-! ## Every word of a format -/

/-- `i` is a well-formed instruction of the format, and `bs` is its encoding. -/
def Encodes (f : Format) (bs : Bytes) (i : Instr) : Prop := i.WellFormed ∧ i.format = f ∧ encode i = bs

theorem encodes_decodeCmd (w : Word) : Encodes .cmd32 (le32 w) (decodeCmd w) := by
  rcases Nat.lt_or_ge w.toNat 5 with hlt | hge
  · obtain ⟨n, hn, rfl⟩ : ∃ n < 5, w = BitVec.ofNat 32 n := ⟨w.toNat, hlt, by simp⟩
    interval_cases n <;> exact ⟨rfl, rfl, rfl⟩
  · rw [Machine.decodeCmd_of_five_le hge]
    exact ⟨wellFormed_illegal_iff.2 hge, rfl, rfl⟩

theorem encodes_contentRow (ft : BitVec 3) (f : FcFields) :
    Encodes .fc16 (le16 (packFc ft f)) (contentRow ft f) := by
  rcases Nat.lt_or_ge ft.toNat 4 with hlt | hge
  · obtain ⟨n, hn, rfl⟩ : ∃ n < 4, ft = BitVec.ofNat 3 n := ⟨ft.toNat, hlt, by simp⟩
    interval_cases n <;> exact ⟨rfl, rfl, rfl⟩
  · rw [contentRow_of_four_le f hge]
    exact ⟨wellFormed_contentInvalid_iff.2 hge, rfl, rfl⟩

theorem encodes_securityRow (lvl : BitVec 3) (f : ScFields) :
    Encodes .sc8 [packSc lvl f] (securityRow lvl f) := by
  obtain ⟨n, hn, rfl⟩ : ∃ n < 8, lvl = BitVec.ofNat 3 n := ⟨lvl.toNat, lvl.isLt, by simp⟩
  interval_cases n <;> exact ⟨rfl, rfl, rfl⟩

/-- As many bytes as the format has are the bytes of a word, and decode to what the word encodes. -/
theorem decodeBytes_of_length {f : Format} {bs : Bytes} (h : bs.length = f.bytes) :
    ∃ i, decodeBytes f bs = .ok i ∧ Encodes f bs i := by
  cases f with
  | cmd32 =>
    have hbs : le32 (ofLE 32 bs) = bs := by have := toLE_ofLE bs; rwa [h] at this
    rw [← hbs]
    exact ⟨_, decodeBytes_le32 _, encodes_decodeCmd _⟩
  | fc16 =>
    have hbs : le16 (ofLE 16 bs) = bs := by have := toLE_ofLE bs; rwa [h] at this
    have henc := encodes_contentRow (fcType (ofLE 16 bs)) (fcFields (ofLE 16 bs))
    rw [packFc_fcFields] at henc
    rw [← hbs]
    exact ⟨_, decodeBytes_le16 _, henc⟩
  | sc8 =>
    obtain ⟨sc, rfl⟩ := List.length_eq_one_iff.1 h
    have henc := encodes_securityRow (scLevel sc) (scFields sc)
    rw [packSc_scFields] at henc
    exact ⟨_, decodeBytes_sc sc, henc⟩

/-- The decoder's last arm (R90): any other length. -/
theorem decodeBytes_of_length_ne {f : Format} {bs : Bytes} (h : bs.length ≠ f.bytes) :
    decodeBytes f bs = .error (.wrongLength f bs.length) := by
  unfold decodeBytes
  split
  case h_4 => rfl
  all_goals exact absurd rfl h

/-- Settles O2: a string of the format's length is a word's bytes, and any other meets the decoder's last arm. -/
theorem everyWordHasOneMeaning : Obligations.EveryWordHasOneMeaning :=
  fun _ _ => ⟨decodeBytes_of_length, decodeBytes_of_length_ne⟩

/-! ## The opcode table -/

/-- A row of the command table, whose mask is all ones, is met by its own word alone (R110). -/
theorem matchesWord_cmd {w : Nat} (h : w < 2 ^ 32) (name : String) (pat : Nat) :
    OpRow.matchesWord ⟨name, .cmd32, pat, 0xFFFFFFFF⟩ w = (w == pat) := by
  have hand : w &&& 0xFFFFFFFF = w % 2 ^ 32 := Nat.and_two_pow_sub_one_eq_mod w 32
  rw [OpRow.matchesWord, hand, Nat.mod_eq_of_lt h]

/-- The masks 7 and 4 of the dispatch tables look at the low three bits (R110). -/
theorem matchesWord_low (w : Nat) (name : String) (f : Format) (pat : Nat) :
    OpRow.matchesWord ⟨name, f, pat, 7⟩ w = (w % 8 == pat) ∧
      OpRow.matchesWord ⟨name, f, pat, 4⟩ w = (w % 8 &&& 4 == pat) := by
  have hseven : w &&& 7 = w % 8 := Nat.and_two_pow_sub_one_eq_mod w 3
  have hfour : w &&& 4 = w % 8 &&& 4 := by rw [← hseven, Nat.and_assoc]; rfl
  simp only [OpRow.matchesWord, hseven, hfour, and_self]

/-- The table names the command that the opcode map answers (R91 to R93). -/
theorem tableMnemonic_cmd {w : Nat} (h : w < 2 ^ 32) :
    tableMnemonic .cmd32 w = some (decodeCmd (BitVec.ofNat 32 w)).mnemonic := by
  have hw : (BitVec.ofNat 32 w).toNat = w := by rw [BitVec.toNat_ofNat, Nat.mod_eq_of_lt h]
  simp only [tableMnemonic, cmdRows, List.find?, matchesWord_cmd h, decodeCmd, hw]
  match w with
  | 0 | 1 | 2 | 3 | 4 | _ + 5 => rfl

/-- The table names the row of the frame type (R96). -/
theorem tableMnemonic_fc {w : Nat} {ft : BitVec 3} (f : FcFields) (h : ft.toNat = w % 8) :
    tableMnemonic .fc16 w = some (contentRow ft f).mnemonic := by
  have hlt : w % 8 < 8 := Nat.mod_lt _ (by decide)
  simp only [tableMnemonic, fcRows, List.find?, matchesWord_low, contentRow, h]
  generalize w % 8 = k at hlt
  interval_cases k <;> rfl

/-- The table names the row of the security level (R102). -/
theorem tableMnemonic_sc {w : Nat} {lvl : BitVec 3} (f : ScFields) (h : lvl.toNat = w % 8) :
    tableMnemonic .sc8 w = some (securityRow lvl f).mnemonic := by
  have hlt : w % 8 < 8 := Nat.mod_lt _ (by decide)
  simp only [tableMnemonic, scRows, List.find?, matchesWord_low, securityRow, h]
  generalize w % 8 = k at hlt
  interval_cases k <;> rfl

/-- Settles O3: the decoder and the table branch on the same bits of the word. -/
theorem decoderFollowsTheOpcodeTable : Obligations.DecoderFollowsTheOpcodeTable := by
  intro f w h
  cases f with
  | cmd32 =>
    have hw : (BitVec.ofNat 32 w).toNat = w := Nat.mod_eq_of_lt h
    have hdecode := decodeBytes_le32 (BitVec.ofNat 32 w)
    rw [le32, hw] at hdecode
    exact ⟨_, hdecode, tableMnemonic_cmd h⟩
  | fc16 =>
    have hw : (BitVec.ofNat 16 w).toNat = w := Nat.mod_eq_of_lt h
    have hdecode := decodeBytes_le16 (BitVec.ofNat 16 w)
    rw [le16, hw] at hdecode
    exact ⟨_, hdecode, tableMnemonic_fc _ (by rw [fcType, BitVec.extractLsb'_toNat, hw]; rfl)⟩
  | sc8 =>
    have hw : (BitVec.ofNat 8 w).toNat = w := Nat.mod_eq_of_lt h
    exact ⟨_, decodeBytes_sc _, tableMnemonic_sc _ (by rw [scLevel, BitVec.extractLsb'_toNat, hw]; rfl)⟩

/-- Settles O4: the words are closed terms that the decoder evaluates. -/
theorem wordsOfTheSpecDecode : Obligations.WordsOfTheSpecDecode := by
  unfold Obligations.WordsOfTheSpecDecode
  decide

namespace Machine

/-! ## The instruction that a step runs -/

/-- A pending dispatch is run before the host's next transaction. -/
theorem step_of_pendingRow {s : State} {i : Instr} (h : s.engine.pendingRow = some i) : step s = exec i s := by
  rw [step, nextTurn, h]

/-- A host write to CMD starts the command of its word (R23). -/
theorem hostWrite_cmd {s : State} (w : Word) (hb : s.status.busy = false) :
    hostWrite 0 32 w s = .run (decodeCmd w) s := by
  simp only [hostWrite, hb]
  rfl

/-- Settles O5: a write to CMD runs what its word decodes to, and a pending dispatch the row of its word. -/
theorem stepRunsTheDecodedInstruction : Obligations.StepRunsTheDecodedInstruction := by
  refine ⟨fun s w rest i he hb hh hi => ?_, fun s fc a b i he hi => ?_, fun s sc inst nonce p tag i he hi => ?_⟩
  · obtain rfl : decodeCmd w = i := Except.ok.inj ((decodeBytes_le32 w).symm.trans hi)
    rw [step_write (off := 0) he hh (by decide), hostWrite_cmd (s := { s with host := rest }) w hb]
  · obtain rfl : decodeFc fc = i := Except.ok.inj ((decodeBytes_le16 fc).symm.trans hi)
    exact step_of_pendingRow (by rcases he with he | he <;> rw [he] <;> rfl)
  · obtain rfl : decodeSc sc = i := Except.ok.inj ((decodeBytes_sc sc).symm.trans hi)
    exact step_of_pendingRow (by rcases he with he | he <;> rw [he] <;> rfl)

end Machine

end Sys2Proof
end

section
/-! The length of a header (spec/30_encoding.md R103 to R106): what DECODE consumes and ENCODE produces is HdrLen, and
PAN-ID compression shortens it (spec/40_address_codec.md R132). Obligations O12, O22 and O11. -/

namespace Sys2Proof.Machine

/-! ## HdrLen in numbers -/

theorem addrLen_eq {mode : BitVec 2} (h : mode ≠ 1) :
    addrLen mode = if mode = 0 then 0 else if mode = 2 then 4 else 10 := by
  rcases mode_cases h with rfl | rfl | rfl <;> rfl

theorem addrLen_le (mode : BitVec 2) : addrLen mode ≤ 10 := by
  unfold addrLen; split <;> omega

theorem srcPanCompressed_iff {pic : Bool} {dm sm : BitVec 2} :
    srcPanCompressed pic dm sm = true ↔ pic = true ∧ dm ≠ 0 ∧ sm ≠ 0 := by
  simp [srcPanCompressed, and_assoc]

/-- The bytes that compression saves are bytes of the source's address field (R105, R106). -/
theorem savedBytes_le {dm sm : BitVec 2} (pic : Bool) (hs : sm ≠ 1) :
    (if srcPanCompressed pic dm sm then 2 else 0) ≤ addrLen sm := by
  split
  · next hc =>
    obtain ⟨-, -, h0⟩ := srcPanCompressed_iff.1 hc
    rw [addrLen_eq hs, if_neg h0]
    split <;> omega
  · exact Nat.zero_le _

/-- A header has 3 to 3 + 10 + 10 + 14 bytes. -/
theorem hdrLenOf_bounds {fc : Half} (sc : Byte) (hs : fcSrcMode fc ≠ 1) : 3 ≤ hdrLenOf fc sc ∧ hdrLenOf fc sc ≤ 37 := by
  have hsaved := savedBytes_le (dm := fcDstMode fc) (fcCompress fc) hs
  have hdst := addrLen_le (fcDstMode fc)
  have hsrc := addrLen_le (fcSrcMode fc)
  have haux : (if fcSecurity fc then auxLen (fcVersion fc) sc else 0) ≤ 14 := by
    have := (auxLen_le (fcVersion fc) sc).2
    split <;> omega
  unfold hdrLenOf
  omega

/-- HdrLen with the modes, the compression and the counter's presence written out (R104, R106). -/
theorem hdrLenOf_eq {fc : Half} (sc : Byte) (hd : fcDstMode fc ≠ 1) (hs : fcSrcMode fc ≠ 1) :
    hdrLenOf fc sc =
      3 + (if fcDstMode fc = 0 then 0 else if fcDstMode fc = 2 then 4 else 10) +
        (if fcSrcMode fc = 0 then 0 else if fcSrcMode fc = 2 then 4 else 10) -
        (if fcCompress fc = true ∧ fcDstMode fc ≠ 0 ∧ fcSrcMode fc ≠ 0 then 2 else 0) +
        (if fcSecurity fc = true then
          1 + (if fcVersion fc ≠ 2 ∨ sc.getLsbD 5 = false then 4 else 0) + kidLen (sc.extractLsb' 3 2)
         else 0) := by
  simp only [hdrLenOf, addrLen_eq hd, addrLen_eq hs, srcPanCompressed_iff, auxLen, fcPresent_iff, scKeyIdMode]

/-! ## What DECODE consumes -/

/-- An address field has AddrLen bytes, but for an implied PAN identifier (R130). -/
theorem addressDecode_length {m : Memory} {mode : BitVec 2} {role : Role} {pic : Bool} {other : Option Address}
    {fin cur c : Nat} {a : Option Address} (h : addressDecode m mode role pic other fin cur = .ok (a, c)) :
    c + (if panImplied role pic other mode then 2 else 0) = cur + addrLen mode ∧ (a.isSome = true ↔ mode ≠ 0) := by
  rcases addressDecode_cases h with ⟨rfl, rfl, rfl⟩ | ⟨p, x, rfl, rfl, rfl⟩ | ⟨p, x, rfl, rfl, rfl⟩
  · have hno : panImplied role pic other 0 = false := by
      refine Bool.eq_false_iff.2 fun hi => ?_
      obtain ⟨-, -, -, h0⟩ := panImplied_iff.1 hi
      exact h0 rfl
    exact ⟨by rw [hno]; rfl, by simp⟩
  · refine ⟨?_, by simp⟩
    cases panImplied role pic other 2 <;> simp [addrLen]
  · refine ⟨?_, by simp⟩
    cases panImplied role pic other 3 <;> simp [addrLen]

/-- The auxiliary header has AuxLen bytes where there is one (R144). -/
theorem auxPart_length {m : Memory} {fc : Half} {fin cur c : Nat} {a : Option Aux}
    (h : auxPart m fc fin cur = .ok (a, c)) :
    c = cur + if fcSecurity fc then auxLen (fcVersion fc) ((a.map Aux.sc).getD 0) else 0 := by
  rcases auxPart_cases h with ⟨hs, x, rfl, hx⟩ | ⟨hs, rfl, rfl⟩
  · obtain ⟨hc, -, -⟩ := auxDecode_cases hx
    rw [if_pos hs]
    exact hc
  · simp [hs]

/-- The PAN identifier that DECODE takes as implied is the one that HdrLen leaves out (R105, R132). -/
theorem panImplied_src {pic : Bool} {dst : Option Address} {dm sm : BitVec 2} (h : dst.isSome = true ↔ dm ≠ 0) :
    panImplied .src pic dst sm = srcPanCompressed pic dm sm := by
  rw [Bool.eq_iff_iff, panImplied_iff, srcPanCompressed_iff, h]
  simp

/-- A decoded header has consumed HdrLen bytes (R106). -/
theorem headerDecode_length {m : Memory} {fin hl : Nat} {h : Hdr} (hd : headerDecode m fin = .ok (h, hl)) :
    hl = hdrLenOf h.fc ((h.aux.map Aux.sc).getD 0) := by
  obtain ⟨c1, c2, hfc, hdst, hsrc, haux⟩ := headerDecode_parts hd
  obtain ⟨-, hsm, -, -⟩ := fcCheck_eq_ok.1 hfc
  obtain ⟨hc1, hsome⟩ := addressDecode_length hdst
  obtain ⟨hc2, -⟩ := addressDecode_length hsrc
  rw [panImplied_dst] at hc1
  rw [panImplied_src hsome] at hc2
  have hc3 := auxPart_length haux
  have hsaved := savedBytes_le (dm := fcDstMode h.fc) (fcCompress h.fc) hsm
  simp only [Bool.false_eq_true, if_false] at hc1
  unfold hdrLenOf
  omega

/-! ## What ENCODE produces -/

/-- An address field of the registers has AddrLen bytes, but for an implied PAN identifier (R131). -/
theorem addressEncode_addrOf_length {mode : BitVec 2} (pan : Half) (lo hi : Word) (role : Role) (pic : Bool)
    (other : Option Address) (hm : mode ≠ 1) :
    (addressEncode (addrOf mode pan lo hi) role pic other).length +
      (if panImplied role pic other mode then 2 else 0) = addrLen mode := by
  have himp : panImplied role pic other mode = true ↔ panImplied role pic other 1 = true ∧ mode ≠ 0 := by
    simp [panImplied_iff, and_assoc]
  rw [addressEncode_addrOf pan lo hi role pic other hm, addrLen_eq hm]
  simp only [himp]
  rcases mode_cases hm with rfl | rfl | rfl <;> cases panImplied role pic other 1 <;> rfl

/-- The header that ENCODE builds has HdrLen bytes (R106). -/
theorem headerEncode_length {h : HeaderRegs} (hd : fcDstMode h.fc ≠ 1) (hs : fcSrcMode h.fc ≠ 1) :
    (headerEncode h).length = hdrLenOf h.fc h.auxCtrl := by
  have hdst := addressEncode_addrOf_length h.dstPan h.dstLo h.dstHi .dst (fcCompress h.fc) none hd
  have hsrc := addressEncode_addrOf_length h.srcPan h.srcLo h.srcHi .src (fcCompress h.fc) h.dstAddr hs
  have haux : (if fcSecurity h.fc then auxEncode h else []).length =
      if fcSecurity h.fc then auxLen (fcVersion h.fc) h.auxCtrl else 0 := by
    split
    · exact auxEncode_length h
    · rfl
  rw [panImplied_dst] at hdst
  rw [panImplied_src (dstAddr_isSome hd)] at hsrc
  simp only [Bool.false_eq_true, if_false, Nat.add_zero] at hdst
  simp only [headerEncode, List.length_append, fcEncode_length, List.length_singleton, haux, HeaderRegs.dstAddr,
    hdrLenOf] at hsrc ⊢
  rw [hdst]
  unfold HeaderRegs.srcAddr
  omega

/-- Settles O12: both codecs agree with HdrLen part by part, and the rest is HdrLen in numbers. -/
theorem headerLengthIsHdrLen : Obligations.HeaderLengthIsHdrLen := by
  refine ⟨fun m fin hl h hd => ?_, fun h hd hs => ?_, fun fc sc => hdrLenOf_eq sc, kidLen_eq,
    fun ver sc => fcPresent_iff⟩
  · have hlen := headerDecode_length hd
    obtain ⟨c1, c2, hfc, -⟩ := headerDecode_parts hd
    obtain ⟨-, hsm, -, -⟩ := fcCheck_eq_ok.1 hfc
    exact ⟨hlen, hlen ▸ hdrLenOf_bounds _ hsm⟩
  · have hlen := headerEncode_length hd hs
    exact ⟨hlen, hlen ▸ hdrLenOf_bounds _ hs⟩

/-! ## PAN-ID compression -/

/-- The fields that HdrLen reads beside PAN_ID_COMPRESS do not look at bit 6 (R95). -/
theorem fc_fields_of_bits {a b : Half} (h : ∀ k < 16, k ≠ 6 → a.getLsbD k = b.getLsbD k) :
    fcDstMode a = fcDstMode b ∧ fcSrcMode a = fcSrcMode b ∧ fcVersion a = fcVersion b ∧
      fcSecurity a = fcSecurity b := by
  refine ⟨?_, ?_, ?_, h 3 (by decide) (by decide)⟩ <;>
  · refine BitVec.eq_of_getLsbD_eq fun k hk => ?_
    simp only [fcDstMode, fcSrcMode, fcVersion, BitVec.getLsbD_extractLsb', hk, decide_true, Bool.true_and]
    exact h _ (by omega) (by omega)

/-- Settles O22: the two words differ in PAN_ID_COMPRESS alone, which HdrLen turns into 2 bytes. -/
theorem panCompressionSavesTwoBytes : Obligations.PanCompressionSavesTwoBytes := by
  intro h hd hs
  obtain ⟨hd0, hs0, hv0, hsec0⟩ := fc_fields_of_bits (a := h.fc &&& 0xFFBF) (b := h.fc) fun k hk hne => by
    rw [BitVec.getLsbD_and]; interval_cases k <;> simp at hne ⊢
  obtain ⟨hd1, hs1, hv1, hsec1⟩ := fc_fields_of_bits (a := h.fc ||| 0x0040) (b := h.fc) fun k hk hne => by
    rw [BitVec.getLsbD_or]; interval_cases k <;> simp at hne ⊢
  have hoff : fcCompress (h.fc &&& 0xFFBF) = false := by simp [fcCompress]
  have hon : fcCompress (h.fc ||| 0x0040) = true := by simp [fcCompress]
  have hsaved := savedBytes_le (dm := fcDstMode h.fc) true hs
  rw [headerEncode_length (h := { h with fc := h.fc &&& 0xFFBF }) (by rwa [hd0]) (by rwa [hs0]),
    headerEncode_length (h := { h with fc := h.fc ||| 0x0040 }) (by rwa [hd1]) (by rwa [hs1])]
  simp only [hdrLenOf, hd0, hs0, hv0, hsec0, hd1, hs1, hv1, hsec1, hoff, hon, srcPanCompressed_iff,
    Bool.false_eq_true, false_and, true_and, if_false] at hsaved ⊢
  omega

/-! ## The bytes a header needs -/

theorem ReadsAhead.headerDecode (m : Memory) : ReadsAhead 0 Prod.snd fun fin => headerDecode m fin :=
  .bind (.fcDecode m) fun _ => .bind (.field m 2 1) fun _ => .bind (.addressDecode ..) fun _ =>
    .bind (.addressDecode ..) fun _ => .bind (.auxPart ..) fun _ => .const fun a ha => by cases ha; rfl

/-- Without room for the footer after the header DECODE's first half raises at the header's length (R220). -/
theorem decodeFront_of_no_room {s : State} {h : Hdr} {hl : Nat} (hd : headerDecode s.mem s.len.toNat = .ok (h, hl))
    (hroom : s.len.toNat < hl + footerLen s.footerMode) :
    decodeFront s = .error (.raise .notEnoughBytes (BitVec.ofNat 8 hl)) := by
  rw [decodeFront, hd, Except.ok_bind]
  simp only [demand_bind, decide_eq_true_eq]
  rw [if_neg (by omega)]

/-- Settles O11: HeaderDecode reads ahead of its cursor and reads its own bytes alone; DECODE raises what its first
half raises. -/
theorem headerDecodeNeedsItsOwnBytes : Obligations.HeaderDecodeNeedsItsOwnBytes := by
  refine ⟨fun m fin hl h hd => ?_, fun s c v hd => ?_, fun s h hl hd hroom => ?_⟩
  · obtain ⟨-, -, hmore, hless⟩ := (ReadsAhead.headerDecode m).spec fin _ hd
    exact ⟨fun m' n hsame hn => ReadsBytes.headerDecode.same m m' n _ (hmore n hn) fun i _ hi => hsame i hi,
      fun n hn => hless n (Nat.zero_le n) hn⟩
  · exact exec_decode_of_raise (by rw [decodeFront, hd]; rfl)
  · exact exec_decode_of_raise (decodeFront_of_no_room hd hroom)

end Sys2Proof.Machine
end

section
/-! What each command leaves unchanged (spec/44_frame_codec.md; spec/43_security_transform.md section 2). Obligations
O50, O51, O52 and O53. -/

namespace Sys2Proof.Machine

/-! ## What no instruction changes -/

/-- CFG, the platform, the host's side, the draws and BUSY are the same in both states. -/
def SameOutside (s t : State) : Prop :=
  t.footerMode = s.footerMode ∧ t.platform = s.platform ∧ t.host = s.host ∧ t.readData = s.readData ∧
    t.draws = s.draws ∧ t.status.busy = s.status.busy

theorem Raised.sameOutside {cmd : Command} {s t : State} (h : Raised cmd s t) : SameOutside s t := by
  obtain ⟨p, c, v, rfl, -⟩ := h
  simp [SameOutside]

/-- No instruction reaches beyond the block (R12, R21). -/
theorem exec_sameOutside {i : Instr} {s t : State} (h : exec i s = .next t) : SameOutside s t := by
  rcases row_or_command i with hrow | rfl | rfl | rfl | rfl | rfl | ⟨w, rfl⟩
  · obtain ⟨p, e, rfl⟩ := exec_row hrow h
    exact ⟨rfl, rfl, rfl, rfl, rfl, rfl⟩
  · cases h
    exact ⟨rfl, rfl, rfl, rfl, rfl, rfl⟩
  · rcases execDecode_cases h with hr | ⟨p, hd, hl, cn, ft, -, -, -, -, rfl⟩
    · exact hr.sameOutside
    · exact ⟨rfl, rfl, rfl, rfl, rfl, rfl⟩
  · rcases execEncode_cases h with hr | ⟨p, body, pl, -, -, -, rfl⟩
    · exact hr.sameOutside
    · exact ⟨rfl, rfl, rfl, rfl, rfl, rfl⟩
  · rcases execSecure_cases h with hr | ⟨-, rfl⟩ | ⟨p, pl, q, tag, -, -, -, -, -, -, rfl⟩
    · exact hr.sameOutside
    · exact ⟨rfl, rfl, rfl, rfl, rfl, rfl⟩
    · exact ⟨rfl, rfl, rfl, rfl, rfl, rfl⟩
  · rcases execVerify_cases h with hr | ⟨p, -, rfl⟩ | ⟨-, -, rfl⟩ | ⟨p, bs, pt, -, -, -, -, -, -, rfl⟩
    · exact hr.sameOutside
    · exact ⟨rfl, rfl, rfl, rfl, rfl, rfl⟩
    · exact ⟨rfl, rfl, rfl, rfl, rfl, rfl⟩
    · exact ⟨rfl, rfl, rfl, rfl, rfl, rfl⟩
  · cases h
    exact ⟨rfl, rfl, rfl, rfl, rfl, rfl⟩

/-- Settles O50: DECODE ends in a raise or in `decodeCommit`, which both keep memory and the listed registers; NOP and
ILLEGAL end a command in STATUS alone. -/
theorem decodeFrame : Obligations.DecodeFrame := by
  refine ⟨fun i s t => exec_sameOutside, fun s t h => ?_, fun i s t w hi h => ?_⟩
  · rcases execDecode_cases h with ⟨p, c, v, rfl, -⟩ | ⟨p, hd, hl, cn, ft, -, -, -, -, rfl⟩
    · exact ⟨fun _ => rfl, rfl, rfl, rfl, rfl, rfl⟩
    · exact ⟨fun _ => rfl, rfl, rfl, rfl, rfl, rfl⟩
  · rcases hi with rfl | rfl <;> cases h <;> exact ⟨fun _ => rfl, rfl⟩

/-! ## ENCODE -/

/-- Clearing bits 9:7 twice is clearing them once (R99). -/
theorem fcWithRsvd_fcWithRsvd (fc : Half) (r r' : BitVec 3) : fcWithRsvd (fcWithRsvd fc r) r' = fcWithRsvd fc r' := by
  refine BitVec.eq_of_getLsbD_eq fun k hk => ?_
  rw [getLsbD_fcWithRsvd _ _ hk, getLsbD_fcWithRsvd _ _ hk, getLsbD_fcWithRsvd _ _ hk]
  split_ifs <;> rfl

/-- A buffer write leaves every byte outside its own (R11). -/
theorem Memory.read_writeBuf_outside (m : Memory) (b : Buffer) {i a : Nat} {bs : Bytes}
    (h : a < b.base + i ∨ b.base + i + bs.length ≤ a) : (m.writeBuf b i bs).read a = m.read a := by
  rw [m.read_writeBuf, if_neg (by omega)]

/-- Settles O51: on success ENCODE commits LEN bytes from the start of FBUF, on a raise it makes FBUF undefined. -/
theorem encodeFrame : Obligations.EncodeFrame := by
  intro s t h
  rcases execEncode_cases h with ⟨p, c, v, rfl, hc, -⟩ | ⟨p, body, pl, -, -, hlen, rfl⟩
  · refine ⟨rfl, rfl, rfl, rfl, rfl, rfl, rfl, fun hok => absurd hok hc, fun _ => ⟨rfl, rfl, rfl, rfl, ?_⟩⟩
    intro a ha
    rw [raiseIn_encode_mem, Memory.undefineBuf, Memory.read_undefine, State.withPorts_mem, if_neg]
    simp only [Buffer.base, bufferSize]
    omega
  · refine ⟨rfl, fcWithRsvd_fcWithRsvd _ _ _, rfl, rfl, rfl, rfl, rfl, fun _ a ha => ?_, fun hbad => absurd rfl hbad⟩
    rw [encodeCommit_len_toNat (s := s.withPorts p) hlen] at ha
    refine Memory.read_writeBuf_outside s.mem .fbuf ?_
    simp only [List.length_append, footerEncode_length, Buffer.base]
    omega

/-! ## SECURE and VERIFY -/

/-- Settles O52: SECURE writes the payload and its tag in a row from the start of PBUF. -/
theorem secureFrame : Obligations.SecureFrame := by
  intro s t h
  rcases execSecure_cases h with ⟨p, c, v, rfl, -⟩ | ⟨-, rfl⟩ | ⟨p, pl, q, tag, -, -, -, -, hq, htag, rfl⟩
  · exact ⟨rfl, rfl, rfl, rfl, rfl, rfl, rfl, rfl, fun _ _ => rfl⟩
  · exact ⟨rfl, rfl, rfl, rfl, rfl, rfl, rfl, rfl, fun _ _ => rfl⟩
  · refine ⟨rfl, rfl, rfl, rfl, rfl, rfl, rfl, rfl, fun a ha => ?_⟩
    rw [secureCommit_mem, State.withPorts_mem, State.withPorts_plen,
      Memory.read_writeBuf_outside _ .pbuf (by simp only [Buffer.base]; omega),
      Memory.read_writeBuf_outside _ .pbuf (by simp only [Buffer.base]; omega)]

/-- Settles O53: VERIFY writes only on success, the plaintext in place of the payload without its tag. -/
theorem verifyFrame : Obligations.VerifyFrame := by
  intro s t h
  rcases execVerify_cases h with ⟨p, c, v, rfl, -⟩ | ⟨p, -, rfl⟩ | ⟨-, -, rfl⟩ | ⟨p, bs, pt, -, -, -, -, -, hpt, rfl⟩
  · simp
  · simp
  · exact ⟨rfl, rfl, rfl, rfl, rfl, rfl, rfl, rfl, rfl, fun _ _ => rfl, fun _ _ => rfl⟩
  · refine ⟨rfl, rfl, rfl, rfl, rfl, rfl, rfl, rfl, rfl, fun a ha => ?_, fun hbad => absurd rfl hbad⟩
    exact Memory.read_writeBuf_outside s.mem .fbuf (by simp only [Buffer.base, State.withPorts_payload]; omega)

end Sys2Proof.Machine
end

section
/-! The counters of a run (spec/43_security_transform.md R190, R194): what one step does to FRAME_COUNTER and to the
transactions still to come, and the induction over the steps. Obligation O57. -/

namespace Sys2Proof.Machine

/-! ## One turn -/

/-- An instruction runs on the state with at most the host's next transaction taken from it. -/
theorem nextTurn_run {s u : State} {i : Instr} (h : nextTurn s = .run i u) :
    ∃ rest, rest <:+ s.host ∧ u = { s with host := rest } := by
  rw [nextTurn] at h
  split at h
  · cases h
    exact ⟨s.host, List.suffix_refl _, rfl⟩
  · split at h
    · cases h
    · next op rest hh =>
      refine ⟨rest, hh ▸ List.suffix_cons op rest, ?_⟩
      cases op with
      | reset | otherHost => cases h
      | read addr width =>
        rw [busTurn] at h
        dsimp only at h
        split at h <;> cases h
      | write addr width data =>
        rw [busTurn] at h
        dsimp only at h
        split at h
        · obtain ⟨-, hu, -⟩ := hostWrite_run h
          exact hu
        · cases h

/-- The host's pending transactions leave FRAME_COUNTER to the block. -/
def State.LeavesCounter (s : State) : Prop := ∀ op ∈ s.host, op.keepsCounter s.platform = true

/-- `t` has the platform of `s` and no transaction that `s` has not. -/
def HostShrinks (s t : State) : Prop := t.platform = s.platform ∧ t.host <:+ s.host

theorem HostShrinks.leavesCounter {s t : State} (h : HostShrinks s t) (hs : s.LeavesCounter) : t.LeavesCounter := by
  obtain ⟨hp, hh⟩ := h
  intro op hop
  rw [hp]
  exact hs op (hh.subset hop)

/-- A host write at another offset leaves FRAME_COUNTER (R61). -/
theorem hostWrite_frameCounter {off width : Nat} {data : Word} {s t : State}
    (h : hostWrite off width data s = .over (.next t)) (hoff : off ≠ Reg.frameCounter.offset) :
    t.frameCounter = s.frameCounter ∧ t.platform = s.platform ∧ t.host = s.host := by
  rcases hostWrite_over h with rfl | ⟨r, hr, -, rfl⟩ | ⟨-, rfl⟩
  · exact ⟨rfl, rfl, rfl⟩
  · obtain ⟨hp, hh, -⟩ := regWrite_keeps r data s
    refine ⟨regWrite_frameCounter data s fun hfc => hoff ?_, hp, hh⟩
    rw [← hfc, regAt_offset hr]
  · obtain ⟨hp, hh, -, hfc, -⟩ := bufWrite_keeps off (width / 8) data s
    exact ⟨hfc, hp, hh⟩

/-- A turn that is over has run no command: it leaves FRAME_COUNTER where the transaction does (R194). -/
theorem nextTurn_over {s t : State} (hs : s.LeavesCounter) (h : nextTurn s = .over (.next t)) :
    t.frameCounter = s.frameCounter ∧ HostShrinks s t := by
  have he : s.engine.pendingRow = none := by
    rw [nextTurn] at h
    split at h
    · cases h
    · assumption
  have hstep : step s = .next t := by rw [step, h]
  rcases step_cases he hstep with ⟨-, rfl⟩ | ⟨op, rest, hh, hop⟩
  · exact ⟨rfl, rfl, List.suffix_refl _⟩
  have hsuffix : rest <:+ s.host := hh ▸ List.suffix_cons op rest
  have hkeeps := hs op (hh ▸ List.mem_cons_self)
  rcases hop with ⟨rfl, -⟩ | ⟨addr, width, d, k, -, rfl⟩ | ⟨addr, width, data, off, rfl, hoff, hw⟩ |
    ⟨addr, width, data, -, -, hrun, -⟩
  · simp [BusOp.keepsCounter] at hkeeps
  · exact ⟨rfl, rfl, hsuffix⟩
  · have hne : off ≠ Reg.frameCounter.offset := by
      rintro rfl
      simp only [offsetOf, Option.ite_none_right_eq_some, Option.some.injEq] at hoff
      simp only [BusOp.keepsCounter, bne_iff_ne, ne_eq] at hkeeps
      omega
    obtain ⟨hfc, hp, hhost⟩ := hostWrite_frameCounter hw hne
    exact ⟨hfc, hp, hhost ▸ hsuffix⟩
  · cases hrun.symm.trans h

/-- One step uses the counter that FRAME_COUNTER holds and advances it, or uses none and leaves it (R190). -/
theorem step_counter {s t : State} (hs : s.LeavesCounter) (h : step s = .next t) :
    HostShrinks s t ∧
      ((usedCounter s = [] ∧ t.frameCounter.toNat = s.frameCounter.toNat) ∨
        (usedCounter s = [s.frameCounter.toNat] ∧ t.frameCounter.toNat = s.frameCounter.toNat + 1)) := by
  rcases hturn : nextTurn s with ⟨i, u⟩ | o
  · have hexec : exec i u = .next t := by rw [step, hturn] at h; exact h
    obtain ⟨rest, hsuffix, rfl⟩ := nextTurn_run hturn
    obtain ⟨-, hplatform, hhost, -⟩ := exec_sameOutside hexec
    refine ⟨⟨hplatform, hhost ▸ hsuffix⟩, ?_⟩
    have hadvance := onlySecureAdvancesTheCounter i _ t hexec
    by_cases hi : i = .secure
    · subst hi
      split at hadvance
      · next hcond =>
        obtain ⟨-, hsec, hok⟩ := hcond
        exact .inr ⟨by simp [usedCounter, hturn, hexec, hsec, hok], hadvance.2⟩
      · next hcond =>
        refine .inl ⟨?_, congrArg _ hadvance⟩
        simp only [usedCounter, hturn, hexec, Bool.and_eq_true, beq_iff_eq]
        exact if_neg fun hc => hcond ⟨rfl, hc⟩
    · rw [if_neg fun hc => hi hc.1] at hadvance
      refine .inl ⟨?_, congrArg _ hadvance⟩
      rw [usedCounter, hturn]
      split
      · next heq => cases heq; exact absurd rfl hi
      · rfl
  · obtain rfl : o = .next t := by rw [step, hturn] at h; exact h
    obtain ⟨hfc, hshrink⟩ := nextTurn_over hs hturn
    exact ⟨hshrink, .inl ⟨by rw [usedCounter, hturn], by rw [hfc]⟩⟩

/-! ## The run -/

/-- The counters of a run are consecutive from FRAME_COUNTER on, and the run leaves the next one (R194). -/
theorem run_counters {n : Nat} {s t : State} (hs : s.LeavesCounter) (h : core.run n s = .next t) :
    usedCounters n s = List.range' s.frameCounter.toNat (usedCounters n s).length ∧
      t.frameCounter.toNat = s.frameCounter.toNat + (usedCounters n s).length := by
  induction n generalizing s with
  | zero =>
    cases h
    exact ⟨rfl, rfl⟩
  | succ n ih =>
    obtain ⟨u, hu, hrun⟩ := core_run_succ h
    obtain ⟨hshrink, hstep⟩ := step_counter hs hu
    obtain ⟨hrange, hlast⟩ := ih (hshrink.leavesCounter hs) hrun
    have hused : usedCounters (n + 1) s = usedCounter s ++ usedCounters n u := by rw [usedCounters, hu]
    rcases hstep with ⟨hnone, hfc⟩ | ⟨hone, hfc⟩
    · rw [hused, hnone, List.nil_append, ← hfc]
      exact ⟨hrange, hlast⟩
    · rw [hfc] at hrange hlast
      rw [hused, hone, List.singleton_append, List.length_cons, List.range'_succ, ← hrange]
      exact ⟨rfl, by omega⟩

/-- Settles O57: the counters used lie below the counter that the run leaves, which is at most 0xFFFFFFFF; at
0xFFFFFFFF the counter check fails, so that SECURE raises (R188, step 4). -/
theorem countersAreUsedOnceInARun : Obligations.CountersAreUsedOnceInARun := by
  refine ⟨fun n s t hs h => ?_, fun s t hmax hsec h => ?_⟩
  · obtain ⟨hrange, hlast⟩ := run_counters hs h
    refine ⟨hrange, hlast, fun hmem => ?_⟩
    rw [hrange, List.mem_range'_1] at hmem
    have hlt := t.frameCounter.isLt
    omega
  · rcases execSecure_cases h with hr | ⟨hoff, -⟩ | ⟨p, pl, q, tag, -, -, hc, -⟩
    · obtain ⟨hbad, -⟩ := hr.code
      obtain ⟨p, c, v, rfl, -⟩ := hr
      exact ⟨hbad, rfl, rfl, fun _ => rfl⟩
    · rw [hsec] at hoff
      cases hoff
    · obtain ⟨-, -, -, hne⟩ := secureChecks_eq_ok.1 hc
      exact absurd hmax hne

end Sys2Proof.Machine
end

section
/-! The invariant of the block between commands (spec/10_state.md sections 2, 3 and 5): reset meets it, and every host
access and every command keeps it. Obligations O59 and O60. -/

namespace Sys2Proof.Machine

/-- Settles O59: every part of the invariant is a closed check of the state after reset. -/
theorem resetMeetsTheInvariant : Obligations.ResetMeetsTheInvariant := by
  unfold Obligations.ResetMeetsTheInvariant
  decide

/-! ## The parts of the invariant that a change can touch -/

/-- The views still agree where they are as before, or the frame is no longer valid (R26, R45). -/
theorem viewsAgree_of_same {s t : State} (hs : s.viewsAgree = true) (hc : t.content = s.content)
    (hl : t.hdrLen = s.hdrLen)
    (hf : t.status.frameValid = true → s.status.frameValid = true ∧ t.payload = s.payload ∧ t.len = s.len) :
    t.viewsAgree = true := by
  obtain ⟨hoff, hview⟩ := s.viewsAgree_iff.1 hs
  refine t.viewsAgree_iff.2 ⟨by rw [hc, hl, hoff], fun hfv => ?_⟩
  obtain ⟨hfv', hp, hlen⟩ := hf hfv
  rw [hp, hc, hlen]
  exact hview hfv'

/-- A secured payload is still defined where PLEN and the bytes of PBUF are as before, or it is no longer secured
(R28). -/
theorem payloadDefined_of_same {s t : State} (hs : s.payloadDefined = true)
    (hf : t.status.secured = true →
      s.status.secured = true ∧ t.plen = s.plen ∧ ∀ a, 0x180 ≤ a → a < 0x1FF → t.mem.read a = s.mem.read a) :
    t.payloadDefined = true := by
  refine t.payloadDefined_iff.2 fun hsec => ?_
  obtain ⟨hsec', hp, hmem⟩ := hf hsec
  obtain ⟨bs, hbs⟩ := s.payloadDefined_iff.1 hs hsec'
  exact ⟨bs, hp ▸ Memory.readBuf_pbuf_of hmem hbs⟩

/-- A write to FBUF leaves every byte of PBUF. -/
theorem Memory.read_writeBuf_fbuf (m : Memory) (i : Nat) (bs : Bytes) {a : Nat} (ha : 0x180 ≤ a) :
    (m.writeBuf .fbuf i bs).read a = m.read a := by
  rw [m.read_writeBuf, if_neg]
  simp only [Buffer.base, bufferSize]
  omega

/-- Making FBUF undefined leaves every byte of PBUF. -/
theorem Memory.read_undefineBuf_fbuf (m : Memory) {a : Nat} (ha : 0x180 ≤ a) :
    (m.undefineBuf .fbuf).read a = m.read a := by
  rw [Memory.undefineBuf, m.read_undefine, if_neg]
  simp only [Buffer.base, bufferSize]
  omega

/-! ## Host accesses -/

theorem inv_resetBlock (s : State) : (resetBlock s).Inv := resetMeetsTheInvariant

/-- A register write keeps the invariant: LEN and PLEN give up what they could break (R69). -/
theorem inv_regWrite {s : State} (r : Reg) (w : Word) (h : s.Inv) : (regWrite r w s).Inv := by
  obtain ⟨hwf, he, hst, hv, hp⟩ := h
  have hst' := s.status.consistent_iff.1 hst
  cases r with
  | len =>
    exact ⟨hwf, he, (Status.consistent_iff _).2 ⟨hst'.1, .inl rfl, hst'.2.2⟩,
      viewsAgree_of_same hv rfl rfl nofun, hp⟩
  | plen =>
    exact ⟨hwf, he, (Status.consistent_iff _).2 hst', hv, payloadDefined_of_same hp nofun⟩
  | _ => exact ⟨hwf, he, hst, hv, hp⟩

/-- A buffer write in one piece: the byte lanes, and the flags of the buffers it covers (R63, R69). -/
theorem bufWrite_eq (off n : Nat) (w : Word) (s : State) :
    bufWrite off n w s = { s with
      mem := lanesWrite s.mem off (toLE n w.toNat),
      status := { s.status with
        frameValid := s.status.frameValid && !covers .fbuf off n,
        verified := s.status.verified && !covers .fbuf off n,
        secured := s.status.secured && !covers .pbuf off n } } := by
  unfold bufWrite
  cases covers .fbuf off n <;> cases covers .pbuf off n <;> simp [State.frameTouched, State.payloadTouched]

/-- A buffer write that covers no byte of PBUF leaves them all. -/
theorem read_lanesWrite_of_not_covers {m : Memory} {off n a : Nat} (w : Word) (hc : covers .pbuf off n = false)
    (h1 : 0x180 ≤ a) (h2 : a < 0x1FF) : (lanesWrite m off (toLE n w.toNat)).read a = m.read a := by
  rw [read_lanesWrite, if_neg]
  rintro ⟨hlo, hhi, -⟩
  rw [toLE_length] at hhi
  have hout := covers_eq_false hc hlo hhi
  rw [(Buffer.holds_iff _ _).2 (by simp only [Buffer.base, bufferSize]; omega)] at hout
  cases hout

/-- A buffer write keeps the invariant: what it could break it gives up (R69). -/
theorem inv_bufWrite {s : State} (off n : Nat) (w : Word) (h : s.Inv) : (bufWrite off n w s).Inv := by
  obtain ⟨hwf, he, hst, hv, hp⟩ := h
  obtain ⟨hbusy, hver, hset, hcode⟩ := s.status.consistent_iff.1 hst
  rw [bufWrite_eq]
  refine ⟨Memory.wf_lanesWrite _ _ hwf, he, (Status.consistent_iff _).2 ⟨hbusy, ?_, hset, hcode⟩,
    viewsAgree_of_same hv rfl rfl fun hfv => ?_, payloadDefined_of_same hp fun hsec => ?_⟩
  · rcases hver with hver | hver <;> cases covers .fbuf off n <;> simp [hver]
  · simp only [Bool.and_eq_true] at hfv
    exact ⟨hfv.1, rfl, rfl⟩
  · simp only [Bool.and_eq_true, Bool.not_eq_true'] at hsec
    obtain ⟨hsec, hc⟩ := hsec
    exact ⟨hsec, rfl, fun a => read_lanesWrite_of_not_covers w hc⟩

/-- A host write that is over keeps the invariant. -/
theorem inv_hostWrite {off width : Nat} {data : Word} {s t : State} (hs : s.Inv)
    (h : hostWrite off width data s = .over (.next t)) : t.Inv := by
  rcases hostWrite_over h with rfl | ⟨r, -, -, rfl⟩ | ⟨-, rfl⟩
  · exact hs
  · exact inv_regWrite r data hs
  · exact inv_bufWrite off _ data hs

/-! ## Commands -/

/-- A raise keeps the invariant where its code can be raised: it leaves no frame valid that it changes, and no payload
view (R246). -/
theorem inv_raiseIn {cmd : Command} {c : Code} {v : Byte} {s : State} (hs : s.Inv) (hc : c.raisable = true)
    (hf : c = .verificationFailure → s.status.verified = false) : (raiseIn cmd c v s).Inv := by
  obtain ⟨hwf, -, hst, hv, hp⟩ := hs
  obtain ⟨hbusy, hver, hset, -⟩ := s.status.consistent_iff.1 hst
  cases cmd with
  | decode =>
    exact ⟨hwf, rfl, (Status.consistent_iff _).2 ⟨hbusy, .inl rfl, hset, hc⟩, viewsAgree_of_same hv rfl rfl nofun, hp⟩
  | encode =>
    exact ⟨Memory.wf_undefineBuf _ hwf, rfl, (Status.consistent_iff _).2 ⟨hbusy, .inl rfl, hset, hc⟩,
      viewsAgree_of_same hv rfl rfl nofun,
      payloadDefined_of_same hp fun hsec => ⟨hsec, rfl, fun a ha _ => Memory.read_undefineBuf_fbuf _ ha⟩⟩
  | secure => exact ⟨hwf, rfl, (Status.consistent_iff _).2 ⟨hbusy, hver, rfl, hc⟩, hv, hp⟩
  | verify =>
    by_cases hvf : c = .verificationFailure
    · subst hvf
      exact ⟨hwf, rfl, (Status.consistent_iff _).2 ⟨hbusy, .inl (hf rfl), rfl, rfl⟩,
        viewsAgree_of_same hv rfl rfl nofun, hp⟩
    · rw [raiseIn_verify_other s c v hvf]
      exact ⟨hwf, rfl, (Status.consistent_iff _).2 ⟨hbusy, hver, rfl, hc⟩, hv, hp⟩

/-- The invariant says nothing of the ports. -/
theorem inv_withPorts {s : State} (p : Ports) (hs : s.Inv) : (s.withPorts p).Inv := hs

theorem Raised.inv {cmd : Command} {s t : State} (h : Raised cmd s t) (hs : s.Inv) : t.Inv := by
  obtain ⟨p, c, v, rfl, -, hvf, hc⟩ := h
  exact inv_raiseIn (inv_withPorts p hs) hc fun he => absurd he hvf

/-- DECODE's commit: the payload follows the content and ends where the footer begins (R220). -/
theorem inv_decodeCommit {s : State} (h : Hdr) {hl cn : Nat} (ft : Half) (hs : s.Inv)
    (hfit : hl + cn ≤ s.len.toNat - footerLen s.footerMode) : (decodeCommit h hl cn ft s).Inv := by
  obtain ⟨hwf, -, hst, -, hp⟩ := hs
  obtain ⟨hbusy, -, hset, -⟩ := s.status.consistent_iff.1 hst
  have hend := decodeCommit_payload_end h ft hfit
  have hlen := s.len.isLt
  refine ⟨hwf, rfl, (Status.consistent_iff _).2 ⟨hbusy, .inl rfl, hset, rfl⟩,
    (State.viewsAgree_iff _).2 ⟨rfl, fun _ => ⟨?_, ?_⟩⟩, hp⟩
  · simp only [decodeCommit_payload, decodeCommit_content, BitVec.toNat_ofNat]
    omega
  · rw [hend, decodeCommit_len]
    omega

/-- ENCODE's commit leaves no frame valid, and PBUF as it was (R221). -/
theorem inv_encodeCommit {s : State} (out body p : Bytes) (hs : s.Inv) : (encodeCommit out body p s).Inv := by
  obtain ⟨hwf, -, hst, -, hp⟩ := hs
  obtain ⟨hbusy, -, hset, -⟩ := s.status.consistent_iff.1 hst
  exact ⟨Memory.wf_writeBuf _ _ _ hwf, rfl, (Status.consistent_iff _).2 ⟨hbusy, .inl rfl, hset, rfl⟩,
    (State.viewsAgree_iff _).2 ⟨rfl, nofun⟩,
    payloadDefined_of_same hp fun hsec => ⟨hsec, rfl, fun a ha _ => Memory.read_writeBuf_fbuf _ _ _ ha⟩⟩

/-- SECURE's commit defines the payload and its tag in a row from the start of PBUF, PLEN bytes in all (R188). -/
theorem secureCommit_holds {s : State} {q tag : Bytes} (hq : q.length = s.plen.toNat)
    (htag : tag.length = tagLen s.hdr.level) (hfit : s.plen.toNat + tagLen s.hdr.level ≤ bufferSize) :
    (secureCommit q tag s).mem.readBuf .pbuf 0 (secureCommit q tag s).plen.toNat = some (q ++ tag) := by
  have hplen : (secureCommit q tag s).plen.toNat = q.length + tag.length := by
    simp only [bufferSize] at hfit
    simp only [secureCommit_plen, BitVec.toNat_ofNat]
    omega
  have hpay : (secureCommit q tag s).mem.readBuf .pbuf 0 q.length = some q := by
    have hwritten := Memory.readBuf_writeBuf s.mem .pbuf 0 q (by omega)
    rw [← hwritten]
    refine Memory.readBuf_congr fun k hk => ?_
    rw [secureCommit_mem, Memory.read_writeBuf_outside]
    omega
  have htagged : (secureCommit q tag s).mem.readBuf .pbuf (0 + q.length) tag.length = some tag := by
    rw [secureCommit_mem, Nat.zero_add, hq]
    exact Memory.readBuf_writeBuf _ _ _ _ (by omega)
  rw [hplen]
  exact Memory.readBuf_append hpay htagged

theorem inv_secure {s t : State} (hs : s.Inv) (h : execSecure s = .next t) : t.Inv := by
  have ⟨hwf, _, hst, hv, hp⟩ := hs
  obtain ⟨hbusy, hver, -, -⟩ := s.status.consistent_iff.1 hst
  rcases execSecure_cases h with hr | ⟨-, rfl⟩ | ⟨p, pl, q, tag, -, -, hc, -, hq, htag, rfl⟩
  · exact hr.inv hs
  · exact ⟨hwf, rfl, (Status.consistent_iff _).2 ⟨hbusy, hver, rfl, rfl⟩, hv, hp⟩
  · obtain ⟨-, -, hfit, -⟩ := secureChecks_eq_ok.1 hc
    exact ⟨Memory.wf_writeBuf _ _ _ (Memory.wf_writeBuf _ _ _ hwf), rfl,
      (Status.consistent_iff _).2 ⟨hbusy, hver, rfl, rfl⟩, hv,
      (State.payloadDefined_iff _).2 fun _ => ⟨_, secureCommit_holds (s := s.withPorts p) hq htag hfit⟩⟩

/-- VERIFY runs on a valid frame that is not verified yet, which its commit shortens and its failure discards (R189). -/
theorem inv_verify {s t : State} (hs : s.Inv) (h : execVerify s = .next t) : t.Inv := by
  have ⟨hwf, _, hst, hv, hp⟩ := hs
  obtain ⟨hbusy, -, -, -⟩ := s.status.consistent_iff.1 hst
  rcases execVerify_cases h with hr | ⟨p, hg, rfl⟩ | ⟨hg, -, rfl⟩ | ⟨p, bs, pt, hg, -, -, -, -, -, rfl⟩
  · exact hr.inv hs
  · obtain ⟨⟨-, hnv⟩, -⟩ := verifyGuard_eq_ok.1 hg
    exact inv_raiseIn (inv_withPorts p hs) rfl fun _ => hnv
  · obtain ⟨⟨hfv, -⟩, -⟩ := verifyGuard_eq_ok.1 hg
    exact ⟨hwf, rfl, (Status.consistent_iff _).2 ⟨hbusy, .inr hfv, rfl, rfl⟩, hv, hp⟩
  · obtain ⟨⟨hfv, -⟩, -⟩ := verifyGuard_eq_ok.1 hg
    obtain ⟨hoff, hview⟩ := s.viewsAgree_iff.1 hv
    obtain ⟨hpo, hpl⟩ := hview hfv
    refine ⟨Memory.wf_writeBuf _ _ _ hwf, rfl, (Status.consistent_iff _).2 ⟨hbusy, .inr hfv, rfl, rfl⟩,
      (State.viewsAgree_iff _).2 ⟨hoff, fun _ => ⟨hpo, ?_⟩⟩,
      payloadDefined_of_same hp fun hsec => ⟨hsec, rfl, fun a ha _ => Memory.read_writeBuf_fbuf _ _ _ ha⟩⟩
    simp only [verifyCommit_payload, State.withPorts_payload, verifyCommit_len, State.withPorts_len,
      BitVec.toNat_ofNat]
    have hmod := Nat.mod_le (s.payload.len.toNat - tagLen (s.withPorts p).hdr.level) (2 ^ 7)
    omega

/-- Every command keeps the invariant. -/
theorem inv_exec_command {s t : State} (w : Word) (hs : s.Inv) (h : exec (decodeCmd w) s = .next t) : t.Inv := by
  have ⟨hwf, he, hst, hv, hp⟩ := hs
  obtain ⟨hbusy, hver, hset, -⟩ := s.status.consistent_iff.1 hst
  rcases decodeCmd_cases w with hi | hi | hi | hi | hi | hi <;> rw [hi] at h
  · cases h
    exact ⟨hwf, he, (Status.consistent_iff _).2 ⟨hbusy, hver, hset, rfl⟩, hv, hp⟩
  · rcases execDecode_cases h with hr | ⟨p, hd, hl, cn, ft, hdec, hfit, hcn, -, rfl⟩
    · exact hr.inv hs
    · exact inv_decodeCommit hd ft (inv_withPorts p hs)
        (by simp only [State.withPorts_len, State.withPorts_footerMode]; omega)
  · rcases execEncode_cases h with hr | ⟨p, body, pl, -, -, -, rfl⟩
    · exact hr.inv hs
    · exact inv_encodeCommit _ _ _ (inv_withPorts p hs)
  · exact inv_secure hs h
  · exact inv_verify hs h
  · cases h
    exact ⟨hwf, he, (Status.consistent_iff _).2 ⟨hbusy, hver, hset, rfl⟩, hv, hp⟩

/-- Settles O60: between commands no dispatch is pending, so a step is one of the host's turns, each of which keeps
the invariant. -/
theorem everyStepKeepsTheInvariant : Obligations.EveryStepKeepsTheInvariant := by
  intro s t hs h
  have he : s.engine.pendingRow = none := by
    obtain ⟨-, hidle, -⟩ := hs
    rw [hidle]; rfl
  rcases step_cases he h with ⟨-, rfl⟩ | ⟨op, rest, -, hop⟩
  · exact hs
  have hrest : ({ s with host := rest } : State).Inv := hs
  rcases hop with ⟨-, rfl⟩ | ⟨addr, width, d, k, -, rfl⟩ | ⟨addr, width, data, off, -, -, hw⟩ |
    ⟨addr, width, data, -, -, -, hx⟩
  · exact inv_resetBlock _
  · exact hrest
  · exact inv_hostWrite hrest hw
  · exact inv_exec_command data hrest hx

end Sys2Proof.Machine
end

section
/-! The rows of the two dispatches as instructions (spec/42_content_codec.md R170 to R172; spec/43_security_transform.md
R180 to R182). Obligations O34, O35, O36, O37, O38, O39 and O40. -/

namespace Sys2Proof.Machine

/-- A state has the command-internal state that it has. -/
theorem State.withEngine_self {s : State} {e : Engine} (h : s.engine = e) : s.withEngine e = s := by
  rw [← h]; rfl

/-! ## The content rows -/

/-- Settles O34: with operands at hand the row without a body leaves the empty result. -/
theorem emptyContentRowsComplete : Obligations.EmptyContentRowsComplete := by
  intro i f s fc a b hi
  have hrow : exec i s = emptyContent s := by rcases hi with rfl | rfl <;> rfl
  rw [hrow]
  exact ⟨fun he => by rw [emptyContent, he]; rfl, fun he => by rw [emptyContent, he]; rfl⟩

/-- Settles O35: with operands at hand the row asks its codec and leaves the answer. -/
theorem externalContentRowsComplete : Obligations.ExternalContentRowsComplete := by
  intro i f port s fc hi
  have hrow : exec i s = externalContent port s := by rcases hi with ⟨rfl, rfl⟩ | ⟨rfl, rfl⟩ <;> rfl
  rw [hrow]
  refine ⟨fun cur fin n bytes rest he hr ha hle => ?_, fun outLen cap body rest he ha hle => ?_⟩
  · rw [← State.withEngine_self he]
    exact externalContent_decoding hr ha (bodyDecodeBreach_ok.2 hle)
  · rw [← State.withEngine_self he]
    exact externalContent_encoding ha (bodyEncodeBreach_ok.2 hle)

/-- The checks on a packed word of type 4 to 7: an address mode of 1 first, then the type (R140, C3). -/
theorem fcCheck_packFc {ft : BitVec 3} (f : FcFields) (h : 4 ≤ ft.toNat) :
    fcCheck (packFc ft f) =
      if f.dstMode = 1 ∨ f.srcMode = 1 then .error (.raise .invalidAddressMode 1)
      else .error (.raise .invalidFrameType (ft.setWidth 8)) := by
  have hdst : fcDstMode (packFc ft f) = f.dstMode := congrArg FcFields.dstMode (fcFields_packFc ft f)
  have hsrc : fcSrcMode (packFc ft f) = f.srcMode := congrArg FcFields.srcMode (fcFields_packFc ft f)
  rw [fcCheck_eq, hdst, hsrc, fcType_packFc, if_pos h]

/-- The invalid row leaves as its result what the checks raise. -/
theorem invalidContent_of_raise {s : State} {fc fc' : Half} {a b : Nat} {c : Code} {v : Byte}
    (he : s.engine = .decoding fc' a b ∨ s.engine = .encoding fc' a b) (h : fcCheck fc = .error (.raise c v)) :
    invalidContent fc s = .next (s.withEngine (.raised c v)) := by
  rcases he with he | he <;> rw [invalidContent, he, h]

/-- Settles O36: the row runs the checks on the word packed from its operands, and leaves what they raise. -/
theorem invalidContentRowRaises : Obligations.InvalidContentRowRaises := by
  intro ft f s fc a b hft he
  have hcheck := fcCheck_packFc f hft
  change invalidContent (packFc ft f) s = _
  split_ifs at hcheck ⊢
  · exact invalidContent_of_raise he hcheck
  · exact invalidContent_of_raise he hcheck

/-! ## The AEAD's answer in a row -/

/-- The ports after AEAD.seal has been asked (R50). -/
def State.sealAsked (s : State) (inst nonce ad pt : Bytes) (t : Nat) : Ports :=
  { s.ports with
    aeadSeal := s.ports.aeadSeal.tail, log := s.ports.log ++ [.aeadSeal inst nonce ad pt t] }

/-- The result of an AEAD.seal answer (R181). -/
def sealResult (keep : Option Bytes) : Option (Bytes × Bytes) → Engine
  | some (ct, tag) => .sealed (keep.getD ct) tag
  | none => .raised .keyFailure 0

/-- AEAD.seal's answer, listed or free, is the result where it keeps the lengths of R50, and a fault where not. -/
theorem sealCall_of_answer {keep : Option Bytes} {inst nonce ad pt : Bytes} {t : Nat} {s : State}
    {a : Option (Bytes × Bytes)} (ha : s.ports.aeadSeal.headD (Config.aeadSeal inst nonce ad pt t) = a) :
    sealCall keep inst nonce ad pt t s =
      if sealBreach pt t a then .fault .portContract
      else .next ((s.withPorts (s.sealAsked inst nonce ad pt t)).withEngine (sealResult keep a)) := by
  have hans : (askSeal inst nonce ad pt t s).1 = a := ha
  rw [sealCall, hans]
  rcases a with - | ⟨ct, tag⟩ <;> rfl

theorem sealCall_of_listed {keep : Option Bytes} {inst nonce ad pt : Bytes} {t : Nat} {s : State}
    {a : Option (Bytes × Bytes)} {ss : List (Option (Bytes × Bytes))} (ha : s.ports.aeadSeal = a :: ss) :
    sealCall keep inst nonce ad pt t s =
      if sealBreach pt t a then .fault .portContract
      else .next ((s.withPorts (s.sealAsked inst nonce ad pt t)).withEngine (sealResult keep a)) :=
  sealCall_of_answer (by rw [ha]; rfl)

/-- The ports after AEAD.open has been asked (R50). -/
def State.openAsked (s : State) (inst nonce ad ct tag : Bytes) (t : Nat) : Ports :=
  { s.ports with
    aeadOpen := s.ports.aeadOpen.tail, log := s.ports.log ++ [.aeadOpen inst nonce ad ct tag t] }

/-- The result of an AEAD.open answer (R182). -/
def openResult (keep : Option Bytes) : Option Bytes → Engine
  | some pt => .opened (keep.getD pt)
  | none => .openFailed

/-- AEAD.open's answer, listed or free, is the result where it keeps the length of R50, and a fault where not. -/
theorem openCall_of_answer {keep : Option Bytes} {inst nonce ad ct tag : Bytes} {t : Nat} {s : State}
    {a : Option Bytes} (ha : s.ports.aeadOpen.headD (Config.aeadOpen inst nonce ad ct tag t) = a) :
    openCall keep inst nonce ad ct tag t s =
      if openBreach ct a then .fault .portContract
      else .next ((s.withPorts (s.openAsked inst nonce ad ct tag t)).withEngine (openResult keep a)) := by
  have hans : (askOpen inst nonce ad ct tag t s).1 = a := ha
  rw [openCall, hans]
  cases a <;> rfl

theorem openCall_of_listed {keep : Option Bytes} {inst nonce ad ct tag : Bytes} {t : Nat} {s : State}
    {a : Option Bytes} {os : List (Option Bytes)} (ha : s.ports.aeadOpen = a :: os) :
    openCall keep inst nonce ad ct tag t s =
      if openBreach ct a then .fault .portContract
      else .next ((s.withPorts (s.openAsked inst nonce ad ct tag t)).withEngine (openResult keep a)) :=
  openCall_of_answer (by rw [ha]; rfl)

/-! ## The security rows -/

/-- SealBody of a level other than None is one AEAD.seal call: the payload is associated data at the MIC levels, which
keep it, and plaintext at the others (R181). -/
theorem sealBody_eq {lvl : BitVec 3} (h0 : lvl ≠ 0) (inst nonce p : Bytes) (s : State) :
    sealBody lvl inst nonce p s =
      sealCall (if lvl.toNat ≤ 3 then some p else none) inst nonce (if lvl.toNat ≤ 3 then p else [])
        (if lvl.toNat ≤ 3 then [] else p) (tagLen lvl) s := by
  split_ifs with hmic
  · exact sealBody_mic h0 hmic inst nonce p s
  · exact sealBody_enc (by omega) inst nonce p s

/-- OpenBody of a level other than None is one AEAD.open call, likewise (R182). -/
theorem openBody_eq {lvl : BitVec 3} (h0 : lvl ≠ 0) (inst nonce body : Bytes) {tag : Bytes}
    (ht : tag.length = tagLen lvl) (s : State) :
    openBody lvl inst nonce body tag s =
      openCall (if lvl.toNat ≤ 3 then some body else none) inst nonce (if lvl.toNat ≤ 3 then body else [])
        (if lvl.toNat ≤ 3 then [] else body) tag (tagLen lvl) s := by
  split_ifs with hmic
  · exact openBody_mic h0 hmic inst nonce body tag s
  · exact openBody_enc (by omega) inst nonce body ht s

/-- The seven rows that ask the AEAD, with their tag lengths and whether they encrypt (R180). -/
def aeadRows (f : ScFields) : List (Instr × Nat × Bool) :=
  [(.secMic32 f, 4, false), (.secMic64 f, 8, false), (.secMic128 f, 16, false), (.secEnc f, 0, true),
    (.secEncMic32 f, 4, true), (.secEncMic64 f, 8, true), (.secEncMic128 f, 16, true)]

/-- Each of them is the transform of a level with that tag length, the encrypting ones of a level above 3. -/
theorem aeadRows_level {f : ScFields} {i : Instr} {t : Nat} {enc : Bool} (h : (i, t, enc) ∈ aeadRows f) :
    ∃ lvl : BitVec 3, lvl ≠ 0 ∧ exec i = transform lvl ∧ t = tagLen lvl ∧ enc = !decide (lvl.toNat ≤ 3) := by
  simp only [aeadRows, List.mem_cons, Prod.mk.injEq, List.not_mem_nil, or_false] at h
  rcases h with ⟨rfl, rfl, rfl⟩ | ⟨rfl, rfl, rfl⟩ | ⟨rfl, rfl, rfl⟩ | ⟨rfl, rfl, rfl⟩ | ⟨rfl, rfl, rfl⟩ |
    ⟨rfl, rfl, rfl⟩ | ⟨rfl, rfl, rfl⟩
  · exact ⟨1, by decide, rfl, rfl, rfl⟩
  · exact ⟨2, by decide, rfl, rfl, rfl⟩
  · exact ⟨3, by decide, rfl, rfl, rfl⟩
  · exact ⟨4, by decide, rfl, rfl, rfl⟩
  · exact ⟨5, by decide, rfl, rfl, rfl⟩
  · exact ⟨6, by decide, rfl, rfl, rfl⟩
  · exact ⟨7, by decide, rfl, rfl, rfl⟩

/-- A row that asks the AEAD in SECURE (R181). -/
theorem exec_sealRow {f : ScFields} {i : Instr} {t : Nat} {enc : Bool} {s : State} {sc : Byte} {inst nonce p : Bytes}
    (hi : (i, t, enc) ∈ aeadRows f) (he : s.engine = .sealing sc inst nonce p) :
    exec i s = sealCall (if enc then none else some p) inst nonce (if enc then [] else p) (if enc then p else []) t s := by
  obtain ⟨lvl, h0, hexec, rfl, rfl⟩ := aeadRows_level hi
  rw [hexec, transform, he]
  simp only [sealBody_eq h0]
  by_cases hmic : lvl.toNat ≤ 3 <;> simp [hmic]

/-- A row that asks the AEAD in VERIFY, with a tag of its length (R182). -/
theorem exec_openRow {f : ScFields} {i : Instr} {t : Nat} {enc : Bool} {s : State} {sc : Byte}
    {inst nonce body tag : Bytes} (hi : (i, t, enc) ∈ aeadRows f) (ht : tag.length = t)
    (he : s.engine = .opening sc inst nonce body tag) :
    exec i s =
      openCall (if enc then none else some body) inst nonce (if enc then [] else body) (if enc then body else []) tag t
        s := by
  obtain ⟨lvl, h0, hexec, rfl, rfl⟩ := aeadRows_level hi
  rw [hexec, transform, he]
  simp only [openBody_eq h0 inst nonce body ht]
  by_cases hmic : lvl.toNat ≤ 3 <;> simp [hmic]

/-- Settles O37: None keeps its operand, and every other row is AEAD.seal's listed answer. -/
theorem sealRowsFollowTheirLevel : Obligations.SealRowsFollowTheirLevel := by
  intro f s sc inst nonce p he
  have hnone : exec (.secNone f) s = .next (s.withEngine (.sealed p [])) := by
    change transform 0 s = _
    rw [transform, he]
    rfl
  refine ⟨hnone, fun i t enc hi => ⟨fun ct tag ss ha => ?_, fun ss ha => ?_⟩⟩
  · rw [exec_sealRow hi he, sealCall_of_listed ha, State.sealAsked, ha]
    simp only [← Bool.not_eq_false, sealBreach_some, ite_not]
    cases enc <;> rfl
  · rw [exec_sealRow hi he, sealCall_of_listed ha, State.sealAsked, ha]
    rfl

/-- Settles O38: None keeps its operand, and every other row is AEAD.open's listed answer. -/
theorem openRowsFollowTheirLevel : Obligations.OpenRowsFollowTheirLevel := by
  intro f s sc inst nonce body tag he
  have hnone : exec (.secNone f) s = .next (s.withEngine (.opened body)) := by
    change transform 0 s = _
    rw [transform, he]
    rfl
  refine ⟨hnone, fun i t enc ht hi => ⟨fun pt os ha => ?_, fun os ha => ?_⟩⟩
  · rw [exec_openRow hi ht he, openCall_of_listed ha, State.openAsked, ha]
    simp only [← Bool.not_eq_false, openBreach_some, ite_not]
    cases enc <;> rfl
  · rw [exec_openRow hi ht he, openCall_of_listed ha, State.openAsked, ha]
    rfl

/-! ## Every row -/

/-- Settles O39: every row finds its operands in the command-internal state, and idle is none of them. -/
theorem rowsStopOutsideACommand : Obligations.RowsStopOutsideACommand := by
  intro i s hi he
  have external (port : BodyPort) : externalContent port s = .refused .noDispatch := by rw [externalContent, he]
  have empty : emptyContent s = .refused .noDispatch := by rw [emptyContent, he]
  have invalid (fc : Half) : invalidContent fc s = .refused .noDispatch := by rw [invalidContent, he]
  have security (lvl : BitVec 3) : transform lvl s = .refused .noDispatch := by rw [transform, he]
  cases i with
  | nop | decode | encode | secure | verify | illegal w => exact absurd rfl hi
  | contentBeacon f | contentCommand f => exact external _
  | contentData f | contentAck f => exact empty
  | contentInvalid ft f => exact invalid _
  | secNone f | secMic32 f | secMic64 f | secMic128 f | secEnc f | secEncMic32 f | secEncMic64 f | secEncMic128 f =>
    exact security _

/-- Settles O40: a row changes only what `exec_row` names. -/
theorem rowsLeaveTheBlockAlone : Obligations.RowsLeaveTheBlockAlone := by
  intro i s t hi h
  obtain ⟨p, e, rfl⟩ := exec_row hi h
  rfl

end Sys2Proof.Machine
end

section
/-! DECODE and ENCODE that complete (spec/44_frame_codec.md R220, R221): the whole next states, and that ENCODE does not
look at STATUS.SECURED (spec/70_reset_and_hazards.md R288). Obligations O14, O15, O19, O20 and O23. -/

namespace Sys2Proof.Machine

/-! ## DECODE -/

/-- Settles O14: the row of a type without a body consumes nothing, and DECODE commits that. -/
theorem decodeOfEmptyContentCompletes : Obligations.DecodeOfEmptyContentCompletes := by
  intro s h hl ft hd ht hfit hft
  have hrow : contentDispatch h.fc (decodeOperands h hl s) = .next ((s.withPorts s.ports).withEngine (.consumed 0)) :=
    contentDispatch_empty ht _
  exact exec_decode_of_consumed (decodeFront_eq_ok.2 ⟨hd, hfit⟩) hft hrow

/-- Settles O15: the row consumes what its codec's listed answer says, and DECODE commits that. -/
theorem decodeOfExternalContentCompletes : Obligations.DecodeOfExternalContentCompletes := by
  intro s h hl n ft port bytes rest hd ht hfit hr hft ha hle
  have hrow : contentDispatch h.fc (decodeOperands h hl s) = _ :=
    (contentDispatch_external ht _).trans (externalContent_decoding hr ha (bodyDecodeBreach_ok.2 hle))
  exact exec_decode_of_consumed (decodeFront_eq_ok.2 ⟨hd, hfit⟩) hft hrow

/-! ## ENCODE -/

/-- ENCODE commits the content that its row produced, or raises where the frame exceeds 127 bytes (R221). -/
theorem exec_encode_of_produced {s : State} {q : Ports} {body p : Bytes} (hv : headerValidate s.hdr = .ok ())
    (hp : s.mem.readBuf .pbuf 0 s.plen.toNat = some p)
    (hc : contentDispatch s.hdr.fc (encodeOperands s) = .next ((s.withPorts q).withEngine (.produced body))) :
    exec .encode s = .next
      (if (headerEncode s.hdr ++ body ++ p ++ footerEncode s).length ≤ 127 then
        encodeCommit (headerEncode s.hdr) body p (s.withPorts q)
      else raiseIn .encode .notEnoughBytes 127 (s.withPorts q)) := by
  change execEncode s = _
  simp only [execEncode, hv, hc, encodeBack, State.withEngine_mem, State.withPorts_mem, State.withEngine_plen,
    State.withPorts_plen, hp]
  rfl

/-- Settles O19: the row of a type without a body produces nothing, and ENCODE commits that. -/
theorem encodeOfEmptyContentCompletes : Obligations.EncodeOfEmptyContentCompletes := by
  rintro s p frame hv ht hp rfl
  have hrow : contentDispatch s.hdr.fc (encodeOperands s) = .next ((s.withPorts s.ports).withEngine (.produced [])) :=
    contentDispatch_empty ht _
  rw [exec_encode_of_produced hv hp hrow]
  simp only [encodeCommit, footerEncode_withPorts, List.append_nil]
  rfl

/-- Settles O20: the row produces what its codec's listed answer gives for the space left, and ENCODE commits that. -/
theorem encodeOfExternalContentCompletes : Obligations.EncodeOfExternalContentCompletes := by
  rintro s p body frame port rest cap q hv ht hp ha rfl hle rfl rfl
  have hrow : contentDispatch s.hdr.fc (encodeOperands s) = _ :=
    (contentDispatch_external ht _).trans (externalContent_encoding ha (bodyEncodeBreach_ok.2 hle))
  rw [exec_encode_of_produced hv hp hrow]
  simp only [encodeCommit, footerEncode_withPorts, List.length_append (as := headerEncode s.hdr) (bs := body)]
  rfl

/-! ## ENCODE and STATUS.SECURED -/

/-- The state with the given STATUS.SECURED. -/
def State.withSecured (s : State) (b : Bool) : State := { s with status := { s.status with secured := b } }

/-- The outcome with the given STATUS.SECURED in its next state. -/
def outcomeWithSecured (b : Bool) : Host.Outcome State Fault Refusal → Host.Outcome State Fault Refusal
  | .next t => .next (t.withSecured b)
  | .fault r => .fault r
  | .refused r => .refused r

theorem externalContent_withSecured (port : BodyPort) (s : State) (b : Bool) :
    externalContent port (s.withSecured b) = outcomeWithSecured b (externalContent port s) := by
  unfold externalContent
  rw [show (s.withSecured b).engine = s.engine from rfl]
  split
  · rw [show (s.withSecured b).mem = s.mem from rfl]
    split
    · rfl
    · next bytes hr =>
      rw [show (askBodyDecode port bytes (s.withSecured b)).1 = (askBodyDecode port bytes s).1 from rfl]
      split <;> rfl
  · next cap he =>
    rw [show (askBodyEncode port cap (s.withSecured b)).1 = (askBodyEncode port cap s).1 from rfl]
    split <;> rfl
  · rfl

theorem emptyContent_withSecured (s : State) (b : Bool) :
    emptyContent (s.withSecured b) = outcomeWithSecured b (emptyContent s) := by
  unfold emptyContent
  rw [show (s.withSecured b).engine = s.engine from rfl]
  split <;> rfl

theorem invalidContent_withSecured (fc : Half) (s : State) (b : Bool) :
    invalidContent fc (s.withSecured b) = outcomeWithSecured b (invalidContent fc s) := by
  unfold invalidContent
  rw [show (s.withSecured b).engine = s.engine from rfl]
  split <;> rfl

/-- No content row looks at STATUS. -/
theorem contentDispatch_withSecured (fc : Half) (s : State) (b : Bool) :
    contentDispatch fc (s.withSecured b) = outcomeWithSecured b (contentDispatch fc s) := by
  unfold contentDispatch
  split
  · exact externalContent_withSecured ..
  · exact emptyContent_withSecured ..
  · exact emptyContent_withSecured ..
  · exact externalContent_withSecured ..
  · exact invalidContent_withSecured ..

/-- The end of ENCODE keeps STATUS.SECURED and does not look at it. -/
theorem encodeEnd_withSecured (out p : Bytes) (s : State) (b : Bool) :
    encodeEnd out p (s.withSecured b) = (encodeEnd out p s).withSecured b := by
  unfold encodeEnd
  rw [show (s.withSecured b).engine = s.engine from rfl]
  split
  · rw [show footerEncode (s.withSecured b) = footerEncode s from rfl]
    split <;> rfl
  · rfl
  · rfl

theorem encodeBack_withSecured (out : Bytes) (s : State) (b : Bool) :
    encodeBack out (s.withSecured b) = outcomeWithSecured b (encodeBack out s) := by
  unfold encodeBack
  rw [show (s.withSecured b).mem = s.mem from rfl, show (s.withSecured b).plen = s.plen from rfl,
    show (s.withSecured b).engine = s.engine from rfl]
  split
  · rw [encodeEnd_withSecured]; rfl
  · split <;> rfl

theorem execEncode_withSecured (s : State) (b : Bool) :
    execEncode (s.withSecured b) = outcomeWithSecured b (execEncode s) := by
  unfold execEncode
  rw [show (s.withSecured b).hdr = s.hdr from rfl,
    show encodeOperands (s.withSecured b) = (encodeOperands s).withSecured b from rfl, contentDispatch_withSecured]
  split
  · rfl
  · rfl
  · cases contentDispatch s.hdr.fc (encodeOperands s) with
    | next t => exact encodeBack_withSecured _ t b
    | fault r | refused r => rfl

/-- Settles O23: no part of ENCODE looks at STATUS.SECURED, and every part keeps it. -/
theorem encodeIgnoresSecured : Obligations.EncodeIgnoresSecured := by
  intro s b
  exact execEncode_withSecured s b

end Sys2Proof.Machine
end

section
/-! The checks of SECURE and VERIFY before any port call, in their order, and their no-ops
(spec/43_security_transform.md R183, R184, R188, R189). Obligations O25 and O26. -/

namespace Sys2Proof.Machine

theorem lengthCheck_eq_ok (h : HeaderRegs) : lengthCheck h = .ok () := (lengthCheckNeverFails h).2

theorem modeCheck_eq (h : HeaderRegs) :
    modeCheck h =
      if fcDstMode h.fc = 1 ∨ fcSrcMode h.fc = 1 then .error (.raise .invalidAddressMode 1) else .ok () := by
  rw [modeCheck, demand_eq, ← ite_not]
  simp only [Bool.and_eq_true, bne_iff_ne, ne_eq, not_and_or, not_not]

theorem counterCheck_eq (c : Word) :
    counterCheck c = if c = 0xFFFFFFFF then .error (.raise .counterError 0) else .ok () := by
  rw [counterCheck, demand_eq, ← ite_not]
  simp only [bne_iff_ne, ne_eq, not_not]

/-! ## SECURE -/

/-- SECURE's first checks as one chain (R188). -/
theorem secureGuard_eq (s : State) :
    secureGuard s =
      if s.status.secured = true then .error (.raise .sequenceError 0)
      else if fcSecurity s.hdr.fc = false ∧ s.hdr.auxPresent = true then .error (.raise .securityNotEnabled 0)
      else if fcSecurity s.hdr.fc = true ∧ s.hdr.auxPresent = false then .error (.raise .auxSecHeaderAbsent 0)
      else .ok () := by
  rw [secureGuard, demand_bind, contractCheck_eq]
  cases s.status.secured <;> rfl

/-- SECURE's checks with security on as one chain; LengthCheck is not in it, since it never fails (R184, R188). -/
theorem secureChecks_eq (s : State) :
    secureChecks s =
      if fcDstMode s.hdr.fc = 1 ∨ fcSrcMode s.hdr.fc = 1 then .error (.raise .invalidAddressMode 1)
      else if 127 < s.plen.toNat + tagLen s.hdr.level then .error (.raise .frameTooLong 0)
      else if s.frameCounter = 0xFFFFFFFF then .error (.raise .counterError 0)
      else .ok () := by
  have hroom : demand (decide (s.plen.toNat + tagLen s.hdr.level ≤ bufferSize)) .frameTooLong 0 =
      if 127 < s.plen.toNat + tagLen s.hdr.level then .error (.raise .frameTooLong 0) else .ok () := by
    rw [demand_eq, ← ite_not]
    simp only [decide_eq_true_eq, Nat.not_le]
    rfl
  rw [secureChecks, modeCheck_eq, lengthCheck_eq_ok, hroom, counterCheck_eq]
  split_ifs <;> rfl

theorem exec_secure_of_guard_raise {s : State} {c : Code} {v : Byte} (h : secureGuard s = .error (.raise c v)) :
    exec .secure s = .next (raiseIn .secure c v s) := by
  change execSecure s = _
  rw [execSecure, h]

theorem exec_secure_of_checks_raise {s : State} {c : Code} {v : Byte} (hg : secureGuard s = .ok ())
    (hs : fcSecurity s.hdr.fc = true) (h : secureChecks s = .error (.raise c v)) :
    exec .secure s = .next (raiseIn .secure c v s) := by
  change execSecure s = _
  rw [execSecure, hg]
  simp only [hs, if_true, secureOn, h]

/-- With security off SECURE changes STATUS alone (R188, step 2). -/
theorem exec_secure_off {s : State} (hg : secureGuard s = .ok ()) (hs : fcSecurity s.hdr.fc = false) :
    exec .secure s = .next (secureOff s) := by
  change execSecure s = _
  rw [execSecure, hg]
  simp only [hs, Bool.false_eq_true, if_false]

/-- Settles O25: the first checks and then the others are the statement's chain, and what they raise SECURE raises. -/
theorem secureChecksInOrder : Obligations.SecureChecksInOrder := by
  intro s
  have hg := secureGuard_eq s
  have hc := secureChecks_eq s
  split_ifs at hg ⊢ with hsecured hoff hon hsec hmode hroom hcounter
  · exact exec_secure_of_guard_raise hg
  · exact exec_secure_of_guard_raise hg
  · exact exec_secure_of_guard_raise hg
  · exact exec_secure_off hg hsec
  · rw [if_pos hmode] at hc
    exact exec_secure_of_checks_raise hg (by simpa using hsec) hc
  · rw [if_neg hmode, if_pos hroom] at hc
    exact exec_secure_of_checks_raise hg (by simpa using hsec) hc
  · rw [if_neg hmode, if_neg hroom, if_pos hcounter] at hc
    exact exec_secure_of_checks_raise hg (by simpa using hsec) hc
  · rwa [if_neg hmode, if_neg hroom, if_neg hcounter] at hc

/-! ## VERIFY -/

/-- VERIFY's first checks as one chain (R189). -/
theorem verifyGuard_eq (s : State) :
    verifyGuard s =
      if s.status.frameValid = false ∨ s.status.verified = true then .error (.raise .sequenceError 0)
      else if fcSecurity s.hdr.fc = false ∧ s.hdr.auxPresent = true then .error (.raise .securityNotEnabled 0)
      else if fcSecurity s.hdr.fc = true ∧ s.hdr.auxPresent = false then .error (.raise .auxSecHeaderAbsent 0)
      else .ok () := by
  rw [verifyGuard, demand_bind, contractCheck_eq]
  cases s.status.frameValid <;> cases s.status.verified <;> rfl

/-- VERIFY's checks with security on as one chain; LengthCheck is not in it, since it never fails (R184, R189). -/
theorem verifyChecks_eq (s : State) :
    verifyChecks s =
      if fcDstMode s.hdr.fc = 1 ∨ fcSrcMode s.hdr.fc = 1 then .error (.raise .invalidAddressMode 1)
      else if verifyCounter s = 0xFFFFFFFF then .error (.raise .counterError 0)
      else .ok () := by
  rw [verifyChecks, modeCheck_eq, lengthCheck_eq_ok, counterCheck_eq]
  split_ifs <;> rfl

theorem exec_verify_of_guard_raise {s : State} {c : Code} {v : Byte} (h : verifyGuard s = .error (.raise c v)) :
    exec .verify s = .next (raiseIn .verify c v s) := by
  change execVerify s = _
  rw [execVerify, h]

theorem exec_verify_of_checks_raise {s : State} {c : Code} {v : Byte} (hg : verifyGuard s = .ok ())
    (hs : fcSecurity s.hdr.fc = true) (h : verifyChecks s = .error (.raise c v)) :
    exec .verify s = .next (raiseIn .verify c v s) := by
  change execVerify s = _
  rw [execVerify, hg]
  simp only [hs, if_true, verifyOn, h]

/-- With security off VERIFY changes STATUS alone (R189, step 2). -/
theorem exec_verify_off {s : State} (hg : verifyGuard s = .ok ()) (hs : fcSecurity s.hdr.fc = false) :
    exec .verify s = .next (verifyOff s) := by
  change execVerify s = _
  rw [execVerify, hg]
  simp only [hs, Bool.false_eq_true, if_false]

/-- Settles O26: the first checks and then the others are the statement's chain, and what they raise VERIFY raises. -/
theorem verifyChecksInOrder : Obligations.VerifyChecksInOrder := by
  intro s
  have hg := verifyGuard_eq s
  have hc := verifyChecks_eq s
  change if _ then _ else if _ then _ else if _ then _ else if _ then _ else if _ then _ else
    if verifyCounter s = 0xFFFFFFFF then _ else _
  split_ifs at hg ⊢ with hsequence hoff hon hsec hmode hcounter
  · exact exec_verify_of_guard_raise hg
  · exact exec_verify_of_guard_raise hg
  · exact exec_verify_of_guard_raise hg
  · exact exec_verify_off hg hsec
  · rw [if_pos hmode] at hc
    exact exec_verify_of_checks_raise hg (by simpa using hsec) hc
  · rw [if_neg hmode, if_pos hcounter] at hc
    exact exec_verify_of_checks_raise hg (by simpa using hsec) hc
  · rwa [if_neg hmode, if_neg hcounter] at hc

end Sys2Proof.Machine
end

section
/-! SECURE and VERIFY that complete, and VERIFY's authentication failure (spec/43_security_transform.md R181, R182,
R188, R189, R192): the transform on the operands that steps 5 to 7 give. Obligations O30, O31, O32 and O33. -/

namespace Sys2Proof.Machine

/-! ## Step 8 -/

/-- The state in which SECURE's transform runs. -/
def State.toSeal (s : State) (inst nonce p : Bytes) : State := s.withEngine (.sealing s.hdr.auxCtrl inst nonce p)

/-- The state in which VERIFY's transform runs. -/
def State.toOpen (s : State) (inst nonce body tag : Bytes) : State :=
  s.withEngine (.opening s.hdr.auxCtrl inst nonce body tag)

/-- The outcome of a command that ends by `f`, from the outcome of its row. -/
def endWith (f : State → State) : Host.Outcome State Fault Refusal → Host.Outcome State Fault Refusal
  | .next s => .next (f s)
  | .fault r => .fault r
  | .refused r => .refused r

theorem endWith_ite_fault (f : State → State) (c : Prop) [Decidable c] (r : Fault) (u : State) :
    endWith f (if c then .fault r else .next u) = if c then .fault r else .next (f u) := by
  split_ifs <;> rfl

/-- With a defined payload step 8 of SECURE is SealBody and the end of the command (R188). -/
theorem secureSeal_of_defined {s : State} {p : Bytes} (inst nonce : Bytes)
    (hp : s.mem.readBuf .pbuf 0 s.plen.toNat = some p) :
    secureSeal inst nonce s = endWith secureEnd (sealBody s.hdr.level inst nonce p (s.toSeal inst nonce p)) := by
  have hrow : transformDispatch s.hdr.auxCtrl (s.withEngine (.sealing s.hdr.auxCtrl inst nonce p)) =
      sealBody s.hdr.level inst nonce p (s.toSeal inst nonce p) := transformDispatch_transform _ _
  simp only [secureSeal, hp, hrow]
  cases sealBody s.hdr.level inst nonce p (s.toSeal inst nonce p) <;> rfl

/-- With a defined payload that is as long as its tag step 8 of VERIFY is OpenBody and the end of the command; the tag
is the last bytes of the payload (R189). -/
theorem verifyOpen_of_defined {s : State} {body tag : Bytes} (inst nonce : Bytes)
    (hp : s.mem.readBuf .fbuf s.payload.off.toNat s.payload.len.toNat = some (body ++ tag))
    (ht : tag.length = tagLen s.hdr.level) :
    verifyOpen inst nonce s =
      endWith verifyEnd (openBody s.hdr.level inst nonce body tag (s.toOpen inst nonce body tag)) := by
  have hlen := Memory.readBuf_length hp
  rw [List.length_append, ht] at hlen
  have hbody : s.payload.len.toNat - tagLen s.hdr.level = body.length := by omega
  have hrow : transformDispatch s.hdr.auxCtrl (s.withEngine (.opening s.hdr.auxCtrl inst nonce body tag)) =
      openBody s.hdr.level inst nonce body tag (s.toOpen inst nonce body tag) := transformDispatch_transform _ _
  rw [verifyOpen, if_neg (by omega), hp]
  simp only [hbody, List.take_left, List.drop_left, hrow]
  cases openBody s.hdr.level inst nonce body tag (s.toOpen inst nonce body tag) <;> rfl

/-! ## The commands at step 8 -/

section
variable {s : State} {key inst : Bytes} {ks is : List (Option Bytes)} {ea : BitVec 64}
  (hs : fcSecurity s.hdr.fc = true) (hk : s.ports.keyLookup = some key :: ks)
  (hi : s.ports.aeadInit = some inst :: is) (hx : extAddrOf s.platform s.hdr.srcAddr = some ea)
include hs hk hi hx

/-- SECURE comes to step 8 with the instance and the nonce of FRAME_COUNTER (R188). -/
theorem exec_secure_eq_secureSeal (hg : secureGuard s = .ok ()) (hc : secureChecks s = .ok ()) :
    exec .secure s =
      secureSeal inst (nonceOf ea s.frameCounter s.hdr.level) (s.withPorts (s.initAsked key)) := by
  change execSecure s = _
  rw [execSecure_on hg hc hs, prepare_ready hk hi hx]

/-- VERIFY comes to step 8 with the instance and the nonce of its counter (R189). -/
theorem exec_verify_eq_verifyOpen (hg : verifyGuard s = .ok ()) (hc : verifyChecks s = .ok ()) :
    exec .verify s =
      verifyOpen inst (nonceOf ea (verifyCounter s) s.hdr.level) (s.withPorts (s.initAsked key)) := by
  change execVerify s = _
  rw [execVerify_on hg hc hs, prepare_ready hk hi hx]

omit hs hx in
/-- The ports at step 8, with the listed answers used up (R186, R187). -/
theorem initAsked_of_listed :
    s.initAsked key = { s.ports with
      keyLookup := ks, aeadInit := is,
      log := s.ports.log ++
        [.keyLookup (fcDstMode s.hdr.fc) (scKeyIdMode s.hdr.auxCtrl)
          (s.hdr.kid.take (kidLen (scKeyIdMode s.hdr.auxCtrl))) s.hdr.dstAddr, .aeadInit key] } := by
  rw [State.initAsked, hk, hi]
  rfl

end

/-! ## Levels with a transform -/

section
variable {s : State} {inst nonce p body tag : Bytes} (h0 : s.hdr.level ≠ 0)
include h0

/-- With a transform step 8 of SECURE is one AEAD.seal answer: a fault where it breaks the contract, else the end of
the command on its result (R181, R188). -/
theorem secureSeal_of_answer {a : Option (Bytes × Bytes)} (hp : s.mem.readBuf .pbuf 0 s.plen.toNat = some p)
    (ha : s.ports.aeadSeal.headD (Config.aeadSeal inst nonce (if s.hdr.level.toNat ≤ 3 then p else [])
      (if s.hdr.level.toNat ≤ 3 then [] else p) (tagLen s.hdr.level)) = a) :
    secureSeal inst nonce s =
      if sealBreach (if s.hdr.level.toNat ≤ 3 then [] else p) (tagLen s.hdr.level) a then .fault .portContract
      else .next (secureEnd ((s.withPorts (s.sealAsked inst nonce (if s.hdr.level.toNat ≤ 3 then p else [])
        (if s.hdr.level.toNat ≤ 3 then [] else p) (tagLen s.hdr.level))).withEngine
          (sealResult (if s.hdr.level.toNat ≤ 3 then some p else none) a))) := by
  rw [secureSeal_of_defined inst nonce hp, sealBody_eq h0, sealCall_of_answer (s := s.toSeal inst nonce p) ha,
    endWith_ite_fault]
  rfl

/-- With a transform step 8 of VERIFY is one AEAD.open answer, likewise (R182, R189). -/
theorem verifyOpen_of_answer {a : Option Bytes}
    (hp : s.mem.readBuf .fbuf s.payload.off.toNat s.payload.len.toNat = some (body ++ tag))
    (ht : tag.length = tagLen s.hdr.level)
    (ha : s.ports.aeadOpen.headD (Config.aeadOpen inst nonce (if s.hdr.level.toNat ≤ 3 then body else [])
      (if s.hdr.level.toNat ≤ 3 then [] else body) tag (tagLen s.hdr.level)) = a) :
    verifyOpen inst nonce s =
      if openBreach (if s.hdr.level.toNat ≤ 3 then [] else body) a then .fault .portContract
      else .next (verifyEnd ((s.withPorts (s.openAsked inst nonce (if s.hdr.level.toNat ≤ 3 then body else [])
        (if s.hdr.level.toNat ≤ 3 then [] else body) tag (tagLen s.hdr.level))).withEngine
          (openResult (if s.hdr.level.toNat ≤ 3 then some body else none) a))) := by
  rw [verifyOpen_of_defined inst nonce hp ht, openBody_eq h0 inst nonce body ht,
    openCall_of_answer (s := s.toOpen inst nonce body tag) ha, endWith_ite_fault]
  rfl

end

/-- What the payload is after the transform: itself at the MIC levels, else what the AEAD gave (R181, R182). -/
theorem keep_getD {lvl : BitVec 3} (p x : Bytes) :
    (if lvl.toNat ≤ 3 then some p else none).getD x = if lvl.toNat ≤ 3 then p else x := by
  split_ifs <;> rfl

/-- What the AEAD gets as plaintext or ciphertext has the length that its answer must have (R50). -/
theorem length_ite_nil {lvl : BitVec 3} (p : Bytes) :
    (if lvl.toNat ≤ 3 then [] else p).length = if lvl.toNat ≤ 3 then 0 else p.length := by
  split_ifs <;> rfl

/-- Settles O30: step 8 is AEAD.seal's listed answer, and SECURE commits the payload and the tag of it. -/
theorem secureCompletes : Obligations.SecureCompletes := by
  intro s key inst p ct tag ea ks is ss hg hc hs h0 hk hi ha hx hp hct htag
  have hanswer := secureSeal_of_answer (s := s.withPorts (s.initAsked key)) (inst := inst)
    (nonce := nonceOf ea s.frameCounter s.hdr.level) (a := some (ct, tag)) h0 hp (congrArg (List.headD · _) ha)
  rw [if_neg (by rw [Bool.not_eq_true, sealBreach_some, length_ite_nil]; exact ⟨hct, htag⟩), sealResult,
    keep_getD] at hanswer
  rw [exec_secure_eq_secureSeal hs hk hi hx hg hc, hanswer]
  simp only [State.sealAsked, State.withPorts_ports, initAsked_of_listed hk hi, ha, List.append_assoc,
    List.tail_cons, List.cons_append, List.nil_append]
  rfl

/-- Settles O31: step 8 is AEAD.open's listed answer, and VERIFY commits the payload of it. -/
theorem verifyCompletes : Obligations.VerifyCompletes := by
  intro s key inst body tag pt ea ks is os hg hc hs h0 hk hi ha hx hp htag hpt
  have hanswer := verifyOpen_of_answer (s := s.withPorts (s.initAsked key)) (inst := inst)
    (nonce := nonceOf ea (verifyCounter s) s.hdr.level) (a := some pt) h0 hp htag (congrArg (List.headD · _) ha)
  rw [if_neg (by rw [Bool.not_eq_true, openBreach_some, length_ite_nil]; exact hpt), openResult,
    keep_getD] at hanswer
  rw [exec_verify_eq_verifyOpen hs hk hi hx hg hc, hanswer]
  simp only [State.openAsked, State.withPorts_ports, initAsked_of_listed hk hi, ha, List.append_assoc,
    List.tail_cons, List.cons_append, List.nil_append]
  rfl

/-! ## Level None -/

/-- Writing back what a stretch of a buffer holds changes no byte. -/
theorem Memory.read_writeBuf_of_readBuf {m : Memory} {b : Buffer} {i n : Nat} {bs : Bytes}
    (h : m.readBuf b i n = some bs) (a : Nat) : (m.writeBuf b i bs).read a = m.read a := by
  obtain ⟨hlen, -, hread⟩ := (m.readBuf_eq_some b i n bs).1 h
  rw [m.read_writeBuf]
  split
  · next hin =>
    rw [← hread (a - (b.base + i)) (by omega)]
    congr 1
    omega
  · rfl

theorem tagLen_zero : tagLen 0 = 0 := rfl

/-- Settles O32: the transform of level 0 gives back its operand with no tag, and committing that writes the payload
over itself. -/
theorem levelNoneRunsEveryStep : Obligations.LevelNoneRunsEveryStep := by
  rintro s key inst p ea ks is q hs h0 hk hi hx rfl
  rw [← initAsked_of_listed hk hi]
  refine ⟨fun hg hc hp => ⟨?_, Memory.read_writeBuf_of_readBuf hp⟩,
    fun hg hc hp => ⟨?_, Memory.read_writeBuf_of_readBuf hp⟩⟩
  · rw [exec_secure_eq_secureSeal hs hk hi hx hg hc,
      secureSeal_of_defined (s := s.withPorts (s.initAsked key)) _ _ hp, State.withPorts_hdr, h0]
    change Host.Outcome.next (secureCommit p [] (s.withPorts (s.initAsked key))) = _
    simp only [secureCommit, State.withPorts_plen, State.withPorts_hdr, h0, tagLen_zero, Nat.add_zero,
      BitVec.ofNat_toNat, BitVec.setWidth_eq]
    rfl
  · rw [exec_verify_eq_verifyOpen hs hk hi hx hg hc,
      verifyOpen_of_defined (body := p) (tag := []) _ _ (by rw [List.append_nil]; exact hp)
        (by rw [State.withPorts_hdr, h0]; rfl), State.withPorts_hdr, h0]
    change Host.Outcome.next (verifyCommit p (s.withPorts (s.initAsked key))) = _
    simp only [verifyCommit, State.withPorts_payload, State.withPorts_hdr, h0, tagLen_zero, Nat.sub_zero,
      BitVec.ofNat_toNat, BitVec.setWidth_eq]
    rfl

/-! ## The authentication failure -/

/-- A payload shorter than its tag fails before the AEAD is asked (R189). -/
theorem verifyOpen_of_short {s : State} (inst nonce : Bytes) (h : s.payload.len.toNat < tagLen s.hdr.level) :
    verifyOpen inst nonce s = .next (raiseIn .verify .verificationFailure 0 s) := by
  rw [verifyOpen, if_pos h]

/-- A defined payload that is as long as its tag is a body and a tag. -/
theorem payload_split {s : State} {bs : Bytes}
    (hp : s.mem.readBuf .fbuf s.payload.off.toNat s.payload.len.toNat = some bs)
    (hle : tagLen s.hdr.level ≤ s.payload.len.toNat) :
    ∃ body tag, bs = body ++ tag ∧ tag.length = tagLen s.hdr.level := by
  have hlen := Memory.readBuf_length hp
  refine ⟨_, _, (List.take_append_drop (bs.length - tagLen s.hdr.level) bs).symm, ?_⟩
  rw [List.length_drop]
  omega

/-- Settles O33: both ways end in the raise of VerificationFailure, which is R246's row for it. -/
theorem verificationFailureDiscardsTheFrame : Obligations.VerificationFailureDiscardsTheFrame := by
  rintro s key inst ea ks is hg hc hs hk hi hx (hshort | ⟨h0, hle, ⟨bs, hp⟩, os, ha⟩)
  · refine ⟨s.initAsked key, ?_, fun _ => rfl⟩
    rw [exec_verify_eq_verifyOpen hs hk hi hx hg hc,
      verifyOpen_of_short (s := s.withPorts (s.initAsked key)) _ _ hshort]
    rfl
  · obtain ⟨body, tag, rfl, htag⟩ := payload_split hp hle
    have hanswer := verifyOpen_of_answer (s := s.withPorts (s.initAsked key)) (inst := inst)
      (nonce := nonceOf ea (verifyCounter s) s.hdr.level) (a := none) h0 hp htag (congrArg (List.headD · _) ha)
    rw [openBreach_none, if_neg Bool.false_ne_true] at hanswer
    rw [exec_verify_eq_verifyOpen hs hk hi hx hg hc, hanswer]
    exact ⟨_, rfl, fun hlt => absurd hlt (by omega)⟩

end Sys2Proof.Machine
end

section
/-! What the host sees of a key (spec/60_exceptions.md R251): the key of a KEY_LOOKUP hit goes to AEAD.init, and with
the AEAD's answers listed only the ports' side keeps a trace of it. Obligation O58. -/

namespace Sys2Proof.Machine

/-- What a command makes of the outcome of steps 5 to 7: it raises their code, or goes on with `f`. -/
def afterPrepare (cmd : Command) (f : Bytes → Bytes → State → Host.Outcome State Fault Refusal) :
    Prepared × State → Host.Outcome State Fault Refusal
  | (.failed c, u) => .next (raiseIn cmd c 0 u)
  | (.ready inst nonce, u) => f inst nonce u

section
variable {s : State} {k : Bytes} {ks : List (Option Bytes)} (k' : Bytes) (hk : s.ports.keyLookup = some k :: ks)
  (hi : s.ports.aeadInit ≠ []) (hs : s.ports.aeadSeal ≠ []) (ho : s.ports.aeadOpen ≠ [])
include hk hi hs ho

/-- Steps 5 to 7 with another key differ in the request log alone, which a step 8 that does not look at the log does
not show. -/
theorem afterPrepare_withNextKey (c : Word) (cmd : Command)
    {f : Bytes → Bytes → State → Host.Outcome State Fault Refusal}
    (hf : ∀ inst nonce u l, u.ports.aeadSeal ≠ [] → u.ports.aeadOpen ≠ [] →
      visibleOutcome (f inst nonce (u.withLog l)) = visibleOutcome (f inst nonce u)) :
    visibleOutcome (afterPrepare cmd f (prepare c (s.withNextKey k'))) =
      visibleOutcome (afterPrepare cmd f (prepare c s)) := by
  rcases hp : prepare c s with ⟨r, u⟩
  rcases prepare_key (c := c) s k k' ks hk hi with ⟨d, l, h1, h2⟩ | ⟨inst, nonce, l, h1, h2, h3, h4⟩
  · rw [hp] at h1 h2
    obtain rfl : r = .failed d := h1
    rw [h2]
    exact congrArg Host.Outcome.next (raiseIn_vis ..)
  · rw [hp] at h1 h2 h3 h4
    obtain rfl : r = .ready inst nonce := h1
    rw [h2]
    exact hf inst nonce u l (h3 ▸ hs) (h4 ▸ ho)

theorem secureOn_withNextKey :
    visibleOutcome (secureOn (s.withNextKey k')) = visibleOutcome (secureOn s) := by
  unfold secureOn
  rw [show secureChecks (s.withNextKey k') = secureChecks s from rfl]
  split
  · exact congrArg Host.Outcome.next (raiseIn_key ..)
  · rfl
  · exact afterPrepare_withNextKey k' hk hi hs ho s.frameCounter .secure secureSeal_log

theorem verifyOn_withNextKey :
    visibleOutcome (verifyOn (s.withNextKey k')) = visibleOutcome (verifyOn s) := by
  unfold verifyOn
  rw [show verifyChecks (s.withNextKey k') = verifyChecks s from rfl]
  split
  · exact congrArg Host.Outcome.next (raiseIn_key ..)
  · rfl
  · exact afterPrepare_withNextKey k' hk hi hs ho (verifyCounter s) .verify verifyOpen_log

theorem execSecure_withNextKey :
    visibleOutcome (execSecure (s.withNextKey k')) = visibleOutcome (execSecure s) := by
  unfold execSecure
  rw [show secureGuard (s.withNextKey k') = secureGuard s from rfl, show (s.withNextKey k').hdr = s.hdr from rfl]
  split
  · exact congrArg Host.Outcome.next (raiseIn_key ..)
  · rfl
  · split
    · exact secureOn_withNextKey k' hk hi hs ho
    · rfl

theorem execVerify_withNextKey :
    visibleOutcome (execVerify (s.withNextKey k')) = visibleOutcome (execVerify s) := by
  unfold execVerify
  rw [show verifyGuard (s.withNextKey k') = verifyGuard s from rfl, show (s.withNextKey k').hdr = s.hdr from rfl]
  split
  · exact congrArg Host.Outcome.next (raiseIn_key ..)
  · rfl
  · split
    · exact verifyOn_withNextKey k' hk hi hs ho
    · rfl

end

/-- Settles O58: neither command looks at the key before steps 5 to 7, which leave it in the ports' side alone. -/
theorem oneCommandDoesNotShowTheKey : Obligations.OneCommandDoesNotShowTheKey := by
  rintro i s k k' ks (rfl | rfl) hk hi hs ho
  · exact execSecure_withNextKey k' hk hi hs ho
  · exact execVerify_withNextKey k' hk hi hs ho

end Sys2Proof.Machine
end

section
/-! The host's accesses (spec/20_memory.md R61 to R64, R69; spec/70_reset_and_hazards.md R285): what a register reads
after a write, what a write leaves alone, the reserved offsets, and the busy rule. Obligations O43, O44, O46 and O48. -/

namespace Sys2Proof.Machine

/-! ## A register read after its write -/

/-- The word of a field in the low `n` bits, after a write: `mask` is the field's bits (R22). -/
theorem lowField_written {n : Nat} {mask : Word} (hmask : ∀ k < 32, mask.getLsbD k = decide (k < n)) (w : Word)
    (x : BitVec n) :
    (w.extractLsb' 0 n).setWidth 32 = (w &&& mask) ||| (x.setWidth 32 &&& ~~~mask) := by
  refine BitVec.eq_of_getLsbD_eq fun k hk => ?_
  simp only [BitVec.getLsbD_setWidth, BitVec.getLsbD_extractLsb', BitVec.getLsbD_or, BitVec.getLsbD_and,
    BitVec.getLsbD_not, hk, hmask k hk, decide_true, Bool.true_and, Nat.zero_add]
  by_cases hn : k < n
  · simp [hn]
  · simp [hn, BitVec.getLsbD_of_ge x k (by omega)]

/-- A register that a write stores whole. -/
theorem wholeWord_written (w x : Word) : w = (w &&& 0xFFFFFFFF) ||| (x &&& ~~~0xFFFFFFFF) := by
  refine BitVec.eq_of_getLsbD_eq fun k hk => ?_
  rw [BitVec.getLsbD_or, BitVec.getLsbD_and, BitVec.getLsbD_and, BitVec.getLsbD_not]
  interval_cases k <;> simp

/-- A register that a write does not store. -/
theorem readOnly_written (w x : Word) : x = (w &&& 0) ||| (x &&& ~~~0) := by
  refine BitVec.eq_of_getLsbD_eq fun k hk => ?_
  rw [BitVec.getLsbD_or, BitVec.getLsbD_and, BitVec.getLsbD_and, BitVec.getLsbD_not]
  simp [hk]

theorem cfgWord_written (w : Word) (m : FooterMode) :
    FooterMode.word (if w.getLsbD 0 then .explicit else .noFooter) = (w &&& 1) ||| (m.word &&& ~~~1) := by
  refine BitVec.eq_of_getLsbD_eq fun k hk => ?_
  rw [BitVec.getLsbD_or, BitVec.getLsbD_and, BitVec.getLsbD_and, BitVec.getLsbD_not]
  cases m <;> cases hw : w[0] <;> interval_cases k <;> simp [FooterMode.word, hw]

theorem ctrlWord_written (w : Word) (h : HeaderRegs) :
    (h.writeCtrl w).ctrlWord = (w &&& 0x01FFFC7F) ||| (h.ctrlWord &&& ~~~0x01FFFC7F) := by
  refine BitVec.eq_of_getLsbD_eq fun k hk => ?_
  rw [BitVec.getLsbD_or, BitVec.getLsbD_and, BitVec.getLsbD_and, BitVec.getLsbD_not,
    HeaderRegs.getLsbD_ctrlWord _ hk, HeaderRegs.getLsbD_ctrlWord _ hk]
  by_cases h16 : k < 16
  · rw [HeaderRegs.writeCtrl, getLsbD_fcWithRsvd _ _ h16]
    interval_cases k <;> simp [fcRsvd]
  · interval_cases k <;> simp [HeaderRegs.writeCtrl] at h16 ⊢

/-- A register read after its write: the writable bits are new, the others are as before (R22, R61). -/
theorem regRead_regWrite_same (r : Reg) (w : Word) (s : State) :
    regRead r (regWrite r w s) = (w &&& r.writable) ||| (regRead r s &&& ~~~ r.writable) := by
  cases r with
  | cmd | status | hdrLen | content | payload => exact readOnly_written w _
  | cfg => exact cfgWord_written w _
  | len | plen => exact lowField_written (by decide) w _
  | hdrCtrl => exact ctrlWord_written w _
  | dstPan | srcPan | footer => exact lowField_written (by decide) w _
  | auxCtrl | kid2 => exact lowField_written (by decide) w _
  | dstAddrLo | dstAddrHi | srcAddrLo | srcAddrHi | auxFc | kid0 | kid1 | frameCounter =>
    exact wholeWord_written w _

/-- The step of a register write (R61). -/
theorem step_write_reg {s : State} {r : Reg} {w : Word} {rest : List BusOp} (hr : r ≠ .cmd)
    (he : s.engine.pendingRow = none) (hb : s.status.busy = false)
    (hh : s.host = .write (s.platform.base + r.offset) 32 w :: rest) :
    step s = .next (regWrite r w { s with host := rest }) := by
  rw [step_write he hh (Nat.lt_trans r.offset_lt.1 (by decide)),
    hostWrite_reg (s := { s with host := rest }) w hr hb]

/-- The step of a register read (R61). -/
theorem step_read_reg {s : State} {r : Reg} {rest : List BusOp} (he : s.engine.pendingRow = none)
    (hb : s.status.busy = false) (hh : s.host = .read (s.platform.base + r.offset) 32 :: rest) :
    step s = .next { s with host := rest, readData := regRead r { s with host := rest } } := by
  rw [step_read he hh (Nat.lt_trans r.offset_lt.1 (by decide)), hostRead_reg (s := { s with host := rest }) r hb]

/-- No register reads the host's side. -/
theorem regRead_withHost (r : Reg) (s : State) (l : List BusOp) : regRead r { s with host := l } = regRead r s := by
  cases r <;> rfl

/-- Settles O43: the two steps are a register write and a read of the same register. -/
theorem registerReadsBackWhatWasWritten : Obligations.RegisterReadsBackWhatWasWritten := by
  intro s r w rest hr he hb hh
  have hwrite := step_write_reg hr he hb hh
  obtain ⟨hplatform, hhost, -, -, hengine, hbusy⟩ :=
    regWrite_keeps r w { s with host := .read (s.platform.base + r.offset) 32 :: rest }
  have hread := step_read_reg (r := r) (rest := rest) (by rw [hengine]; exact he) (hbusy.trans hb)
    (by rw [hhost, hplatform])
  exact ⟨_, _, hwrite, hread, rfl, by rw [regRead_withHost, regRead_regWrite_same, regRead_withHost]⟩

/-! ## Writing the same bytes again -/

/-- Writing a byte twice is writing it once, whatever the order of the entries. -/
theorem Memory.write_write_same (m : Memory) (a : Nat) (b : Byte) : (m.write a b).write a b = m.write a b := by
  induction m with
  | nil => simp [Memory.write]
  | cons c m ih =>
    obtain ⟨k, v⟩ := c
    rw [Memory.write]
    split_ifs with hlt heq
    · simp [Memory.write]
    · simp [Memory.write]
    · rw [Memory.write, if_neg hlt, if_neg heq, ih]

/-- A byte that writing it again leaves stays so after a write elsewhere. -/
theorem Memory.write_fixed_of_ne {m : Memory} {a a' : Nat} {b b' : Byte} (hne : a ≠ a') (h : m.write a b = m) :
    (m.write a' b').write a b = m.write a' b' := by
  induction m with
  | nil => simp [Memory.write] at h
  | cons c m ih =>
    obtain ⟨k, v⟩ := c
    rcases Nat.lt_trichotomy a k with hlt | rfl | hgt
    · rw [Memory.write, if_pos hlt] at h
      exact absurd (congrArg List.length h) (by simp)
    · obtain rfl : b = v := by simpa [Memory.write] using h
      rcases Nat.lt_or_gt_of_ne hne.symm with hlt' | hgt'
      · simp [Memory.write, hlt', Nat.lt_asymm hlt', hne]
      · simp [Memory.write, Nat.lt_asymm hgt', hne.symm]
    · have hfixed : Memory.write m a b = m := by simpa [Memory.write, Nat.lt_asymm hgt, Nat.ne_of_gt hgt] using h
      rcases Nat.lt_trichotomy a' k with hlt' | rfl | hgt'
      · simp [Memory.write, hlt', Nat.lt_asymm hgt, Nat.ne_of_gt hgt, Nat.lt_asymm (hlt'.trans hgt), hne, hfixed]
      · simp [Memory.write, Nat.lt_asymm hgt, hne, hfixed]
      · simp [Memory.write, Nat.lt_asymm hgt, Nat.ne_of_gt hgt, Nat.lt_asymm hgt', Nat.ne_of_gt hgt', ih hfixed]

/-- Likewise after a write of byte lanes above it. -/
theorem lanesWrite_fixed_of_lt {m : Memory} {a off : Nat} {b : Byte} (bs : Bytes) (hlt : a < off)
    (h : m.write a b = m) : (lanesWrite m off bs).write a b = lanesWrite m off bs := by
  induction bs generalizing m off with
  | nil => exact h
  | cons x xs ih =>
    rw [lanesWrite]
    split
    · exact ih (by omega) (Memory.write_fixed_of_ne (by omega) h)
    · exact ih (by omega) h

/-- Writing byte lanes twice is writing them once. -/
theorem lanesWrite_lanesWrite (m : Memory) (off : Nat) (bs : Bytes) :
    lanesWrite (lanesWrite m off bs) off bs = lanesWrite m off bs := by
  induction bs generalizing m off with
  | nil => rfl
  | cons x xs ih =>
    simp only [lanesWrite]
    split
    · rw [lanesWrite_fixed_of_lt xs (Nat.lt_succ_self off) (m.write_write_same off x), ih]
    · exact ih m (off + 1)

theorem bufWrite_bufWrite (off n : Nat) (w : Word) (s : State) :
    bufWrite off n w (bufWrite off n w s) = bufWrite off n w s := by
  simp only [bufWrite_eq, lanesWrite_lanesWrite, Bool.and_assoc, Bool.and_self]

/-- The reserved bits that a write keeps are kept by the next (R37). -/
theorem fcRsvd_fcWithRsvd (fc : Half) (r : BitVec 3) : fcRsvd (fcWithRsvd fc r) = r := by
  refine BitVec.eq_of_getLsbD_eq fun k hk => ?_
  rw [fcRsvd, BitVec.getLsbD_extractLsb', getLsbD_fcWithRsvd _ _ (by omega)]
  interval_cases k <;> simp

theorem regWrite_regWrite (r : Reg) (w : Word) (s : State) : regWrite r w (regWrite r w s) = regWrite r w s := by
  cases r with
  | hdrCtrl => simp only [regWrite, HeaderRegs.writeCtrl, fcRsvd_fcWithRsvd]
  | _ => rfl

/-! ## What a host write changes -/

/-- What a write that starts no command does: the register at the offset, nothing at a reserved offset, or the byte
lanes (R61, R63, R64). -/
def writeEffect (off width : Nat) (w : Word) (s : State) : State :=
  if off < 0x100 then
    match regAt off with
    | some r => regWrite r w s
    | none => s
  else bufWrite off (width / 8) w s

theorem writeEffect_reg (r : Reg) (width : Nat) (w : Word) (s : State) :
    writeEffect r.offset width w s = regWrite r w s := by
  rw [writeEffect, if_pos r.offset_lt.1, regAt_of_offset]

theorem writeEffect_reserved {off : Nat} (width : Nat) (w : Word) (s : State) (ho : off < 0x100)
    (hr : regAt off = none) : writeEffect off width w s = s := by
  rw [writeEffect, if_pos ho, hr]

theorem writeEffect_buffer {off : Nat} (width : Nat) (w : Word) (s : State) (ho : 0x100 ≤ off) :
    writeEffect off width w s = bufWrite off (width / 8) w s := by
  rw [writeEffect, if_neg (by omega)]

/-- An allowed write that does not go to CMD is over, with its effect. -/
theorem hostWrite_of_accessOk {off width : Nat} {s : State} (w : Word) (hb : s.status.busy = false)
    (hok : accessOk off width = true) (h0 : off ≠ 0) :
    hostWrite off width w s = .over (.next (writeEffect off width w s)) := by
  simp only [hostWrite, hb, hok, writeEffect, Bool.false_eq_true, if_false, Bool.not_true]
  split
  · cases hr : regAt off with
    | none => rfl
    | some r =>
      have hoff := regAt_offset hr
      cases r with
      | cmd => exact absurd hoff.symm h0
      | _ => rfl
  · rfl

/-- A write that is over was allowed, did not go to CMD, and had its effect. -/
theorem hostWrite_over_eq {off width : Nat} {w : Word} {s t : State}
    (h : hostWrite off width w s = .over (.next t)) :
    (s.status.busy = false ∧ accessOk off width = true ∧ off ≠ 0) ∧ t = writeEffect off width w s := by
  have hb : s.status.busy = false := by
    cases hb : s.status.busy
    · rfl
    · simp [hostWrite, hb] at h
  have hok : accessOk off width = true := by
    by_contra hno
    rw [hostWrite_of_not_accessOk w hb hno] at h
    cases h
  have h0 : off ≠ 0 := by
    rintro rfl
    obtain ⟨rfl, -⟩ := (accessOk_reg_iff (by decide)).1 hok
    rw [hostWrite_cmd w hb] at h
    cases h
  rw [hostWrite_of_accessOk w hb hok h0] at h
  cases h
  exact ⟨⟨hb, hok, h0⟩, rfl⟩

/-- An offset is a register's, a reserved one below 0x100, or one from 0x100 on. -/
theorem offset_cases (off : Nat) :
    (∃ r : Reg, off = r.offset) ∨ (off < 0x100 ∧ regAt off = none) ∨ 0x100 ≤ off := by
  cases hr : regAt off with
  | some r => exact .inl ⟨r, (regAt_offset hr).symm⟩
  | none => exact .inr ((Nat.lt_or_ge off 0x100).imp_left fun h => ⟨h, rfl⟩)

theorem writeEffect_writeEffect (off width : Nat) (w : Word) (s : State) :
    writeEffect off width w (writeEffect off width w s) = writeEffect off width w s := by
  rcases offset_cases off with ⟨r, rfl⟩ | ⟨ho, hr⟩ | ho
  · simp only [writeEffect_reg, regWrite_regWrite]
  · simp only [writeEffect_reserved width w _ ho hr]
  · simp only [writeEffect_buffer width w _ ho, bufWrite_bufWrite]

/-- What a write does to STATUS (R69). -/
theorem writeEffect_status (off width : Nat) (w : Word) (s : State) :
    (writeEffect off width w s).status = { s.status with
      frameValid := s.status.frameValid && !(off == 0x00C || (decide (0x100 ≤ off) && covers .fbuf off (width / 8))),
      verified := s.status.verified && !(off == 0x00C || (decide (0x100 ≤ off) && covers .fbuf off (width / 8))),
      secured := s.status.secured && !(off == 0x010 || (decide (0x100 ≤ off) && covers .pbuf off (width / 8))) } := by
  rcases offset_cases off with ⟨r, rfl⟩ | ⟨ho, hr⟩ | ho
  · rw [writeEffect_reg]
    cases r <;> simp [regWrite, Reg.offset]
  · have hlen : (off == 0x00C) = false := beq_eq_false_iff_ne.2 (by rintro rfl; cases hr)
    have hplen : (off == 0x010) = false := beq_eq_false_iff_ne.2 (by rintro rfl; cases hr)
    simp [writeEffect_reserved width w s ho hr, hlen, hplen, Nat.not_le.2 ho]
  · have hlen : (off == 0x00C) = false := beq_eq_false_iff_ne.2 (by omega)
    have hplen : (off == 0x010) = false := beq_eq_false_iff_ne.2 (by omega)
    simp [writeEffect_buffer width w s ho, bufWrite_eq, hlen, hplen, ho]

/-- What is neither a register nor a buffer byte is the same in both states. -/
def SameBeside (s t : State) : Prop :=
  t.engine = s.engine ∧ t.ports = s.ports ∧ t.platform = s.platform ∧ t.host = s.host ∧ t.readData = s.readData ∧
    t.draws = s.draws

theorem writeEffect_sameBeside (off width : Nat) (w : Word) (s : State) :
    SameBeside s (writeEffect off width w s) := by
  rcases offset_cases off with ⟨r, rfl⟩ | ⟨ho, hr⟩ | ho
  · rw [writeEffect_reg]
    cases r <;> exact ⟨rfl, rfl, rfl, rfl, rfl, rfl⟩
  · rw [writeEffect_reserved width w s ho hr]
    exact ⟨rfl, rfl, rfl, rfl, rfl, rfl⟩
  · rw [writeEffect_buffer width w s ho, bufWrite_eq]
    exact ⟨rfl, rfl, rfl, rfl, rfl, rfl⟩

/-- A write leaves the registers at other offsets, STATUS apart (R61, R69). -/
theorem regRead_writeEffect {off width : Nat} (w : Word) (s : State) {r : Reg} (hs : r ≠ .status)
    (hne : r.offset ≠ off) : regRead r (writeEffect off width w s) = regRead r s := by
  rcases offset_cases off with ⟨r', rfl⟩ | ⟨ho, hr⟩ | ho
  · rw [writeEffect_reg]
    exact regWrite_other w s (fun h => hne (congrArg _ h)) hs
  · rw [writeEffect_reserved width w s ho hr]
  · rw [writeEffect_buffer width w s ho]
    exact bufWrite_other off _ w s hs

/-- A write below 0x100 stores no byte. -/
theorem writeEffect_mem {off : Nat} (width : Nat) (w : Word) (s : State) (ho : off < 0x100) :
    (writeEffect off width w s).mem = s.mem := by
  rcases offset_cases off with ⟨r, rfl⟩ | ⟨-, hr⟩ | hge
  · rw [writeEffect_reg]
    exact (regWrite_keeps r w s).2.2.2.1
  · rw [writeEffect_reserved width w s ho hr]
  · omega

/-- A write leaves every byte outside its own. -/
theorem read_writeEffect {off width a : Nat} (w : Word) (s : State) (ha : a < off ∨ off + width / 8 ≤ a) :
    (writeEffect off width w s).mem.read a = s.mem.read a := by
  rcases Nat.lt_or_ge off 0x100 with ho | ho
  · rw [writeEffect_mem width w s ho]
  · rw [writeEffect_buffer width w s ho]
    exact bufWrite_read w s ha

/-- Settles O44: an answered write is its effect, and an answered read changes what `hostRead_cases` names. -/
theorem hostAccessSideEffects : Obligations.HostAccessSideEffects := by
  refine ⟨fun s t off width w h => ?_, fun s t off width h => ?_, fun s w => hostWrite_cmd w⟩
  · obtain ⟨⟨hb, hok, h0⟩, rfl⟩ := hostWrite_over_eq h
    have hbusy : (writeEffect off width w s).status.busy = false := by rw [writeEffect_status]; exact hb
    refine ⟨writeEffect_status off width w s, ?_, fun r => regRead_writeEffect w s, writeEffect_mem width w s,
      fun a => read_writeEffect w s, writeEffect_sameBeside off width w s⟩
    rw [hostWrite_of_accessOk w hbusy hok h0, writeEffect_writeEffect]
  · obtain ⟨d, k, rfl⟩ := hostRead_cases h
    rfl

/-! ## The reserved offsets -/

/-- No register lies above 0x054 (R22, R64). -/
theorem regAt_eq_none {off : Nat} (h : 0x058 ≤ off) : regAt off = none := by
  cases hr : regAt off with
  | none => rfl
  | some r =>
    have hoff := regAt_offset hr
    have hle : r.offset ≤ 0x054 := by cases r <;> decide
    omega

/-- The byte after each buffer is in no buffer (R53, R54). -/
theorem reserved_byte {off : Nat} (h : off = 0x17F ∨ off = 0x1FF) :
    isBufferOffset off = false ∧ ∀ b, covers b off 1 = false := by
  rcases h with rfl | rfl <;> exact ⟨by decide, fun b => by cases b <;> decide⟩

theorem bufRead_reserved {off : Nat} (h : off = 0x17F ∨ off = 0x1FF) (s : State) :
    bufRead off 1 s = { s with readData := 0 } := by
  have hlane := (laneRead_defined s off).2 (reserved_byte h).1
  simp only [bufRead, lanesRead, hlane]
  rfl

theorem bufWrite_reserved {off : Nat} (h : off = 0x17F ∨ off = 0x1FF) (w : Word) (s : State) :
    bufWrite off 1 w s = s := by
  obtain ⟨hbuf, hcovers⟩ := reserved_byte h
  simp [bufWrite_eq, hcovers, toLE, lanesWrite, hbuf]

/-- Settles O48: below 0x100 no register is found at the offset, and from 0x100 on its byte is in no buffer. -/
theorem reservedOffsetsHoldNoState : Obligations.ReservedOffsetsHoldNoState := by
  rintro s off width w hb (⟨hlo, hhi, hal, rfl⟩ | ⟨hoff, rfl⟩)
  · have hr := regAt_eq_none hlo
    have hok := (accessOk_reg_iff (width := 32) hhi).2 ⟨rfl, hal⟩
    refine ⟨by simp [hostRead, hb, hok, hhi, hr], ?_⟩
    rw [hostWrite_of_accessOk w hb hok (by omega), writeEffect_reserved 32 w s hhi hr]
  · have ho : 0x100 ≤ off := by omega
    have hok := (accessOk_buffer_iff (n := 1) (by simp) ho).2 (Nat.mod_one off)
    have hread := hostRead_buffer (n := 1) hb ho hok
    have hwrite := hostWrite_buffer (n := 1) w hb ho hok
    rw [bufRead_reserved hoff] at hread
    rw [bufWrite_reserved hoff] at hwrite
    exact ⟨hread, hwrite⟩

/-! ## The busy rule -/

theorem statusRead_iff {off width : Nat} : statusRead off width = true ↔ off = 0x004 ∧ width = 32 := by
  simp [statusRead, Reg.offset]

/-- While busy a STATUS read is answered and every other read is refused (R285). -/
theorem hostRead_of_busy {s : State} (off width : Nat) (hb : s.status.busy = true) :
    hostRead off width s =
      if off = 0x004 ∧ width = 32 then .next { s with readData := s.status.word } else .refused .busyAccess := by
  by_cases hst : off = 0x004 ∧ width = 32
  · obtain ⟨rfl, rfl⟩ := hst
    simp only [hostRead, hb]
    rfl
  · rw [if_neg hst]
    simp [hostRead, hb, mt statusRead_iff.1 hst]

/-- While busy every write is refused (R285). -/
theorem hostWrite_of_busy {s : State} (off width : Nat) (w : Word) (hb : s.status.busy = true) :
    hostWrite off width w s = .over (.refused .busyAccess) := by
  simp [hostWrite, hb]

/-- Settles O46: the step of either access is the host's access at the offset, which the busy rule decides. -/
theorem onlyStatusIsReadWhileBusy : Obligations.OnlyStatusIsReadWhileBusy := by
  intro s off width w rest op ho he hb hh hop
  rcases hop with rfl | rfl
  · rw [step_read he hh ho, hostRead_of_busy (s := { s with host := rest }) off width hb]
    simp only [BusOp.read.injEq, Nat.add_left_cancel_iff]
  · rw [step_write he hh ho, hostWrite_of_busy (s := { s with host := rest }) off width w hb,
      if_neg (by simp)]

end Sys2Proof.Machine
end

section
/-! The faults (spec/60_exceptions.md R257): a port that breaks its contract (spec/10_state.md R50, R51), and an
undefined byte that a command reads (spec/10_state.md R55). Obligations O41 and O42. -/

namespace Sys2Proof.Machine

/-! ## A command whose first half or content row faults -/

/-- What the header reads undefined ends DECODE (R257). -/
theorem exec_decode_of_front_fault {s : State} {r : Fault} (h : decodeFront s = .error (.fault r)) :
    exec .decode s = .fault r := by
  change execDecode s = _
  rw [execDecode, h]

theorem exec_decode_of_header_fault {s : State} {r : Fault} (h : headerDecode s.mem s.len.toNat = .error (.fault r)) :
    exec .decode s = .fault r :=
  exec_decode_of_front_fault (by rw [decodeFront, h]; rfl)

theorem exec_decode_of_content_fault {s : State} {h : Hdr} {hl : Nat} {r : Fault} (hf : decodeFront s = .ok (h, hl))
    (hc : contentDispatch h.fc (decodeOperands h hl s) = .fault r) : exec .decode s = .fault r := by
  change execDecode s = _
  simp only [execDecode, hf, hc]

theorem exec_encode_of_content_fault {s : State} {r : Fault} (hv : headerValidate s.hdr = .ok ())
    (hc : contentDispatch s.hdr.fc (encodeOperands s) = .fault r) : exec .encode s = .fault r := by
  change execEncode s = _
  simp only [execEncode, hv, hc]

/-! ## A port that breaks its contract -/

/-- A codec that reports more bytes than it was given, whether its answer is listed or free (R51). -/
theorem externalContent_decoding_breach {s : State} {port : BodyPort} {fc : Half} {cur fin n : Nat} {bytes : Bytes}
    (hr : s.mem.readBuf .fbuf cur (fin - cur) = some bytes)
    (ha : (s.ports.decodeAnswers port).headD (Config.bodyDecode port s.ports.log.length bytes) = .ok n)
    (hlt : bytes.length < n) :
    externalContent port (s.withEngine (.decoding fc cur fin)) = .fault .portContract := by
  have hans : (askBodyDecode port bytes (s.withEngine (.decoding fc cur fin))).1 = .ok n := ha
  simp [externalContent, hr, hans, bodyDecodeBreach, hlt]

/-- A codec that gives more bytes than the space left, likewise (R51). -/
theorem externalContent_encoding_overflow {s : State} {port : BodyPort} {fc : Half} {outLen cap : Nat} {body : Bytes}
    (ha : (s.ports.encodeAnswers port).headD (Config.bodyEncode port s.ports.log.length cap) = .ok body)
    (hlt : cap < body.length) :
    externalContent port (s.withEngine (.encoding fc outLen cap)) = .fault .portContract := by
  have hans : (askBodyEncode port cap (s.withEngine (.encoding fc outLen cap))).1 = .ok body := ha
  simp [externalContent, hans, bodyEncodeBreach, hlt]

/-- Settles O41: the row or step 8 meets the answer that breaks the contract, and its fault ends the command. -/
theorem portBreachesFault : Obligations.PortBreachesFault := by
  refine ⟨fun s h hl n port bytes hd ht hfit hr ha hlt => ?_, fun s port body cap hv ht hcap ha hlt => ?_,
    fun s key inst p ct tag ea ks is hg hc hs h0 hk hi hx hp ha hlen => ?_,
    fun s key inst body tag pt ea ks is hg hc hs h0 hk hi hx hp htag ha hlen => ?_⟩
  · exact exec_decode_of_content_fault (decodeFront_eq_ok.2 ⟨hd, hfit⟩)
      ((contentDispatch_external ht _).trans (externalContent_decoding_breach hr ha hlt))
  · subst hcap
    exact exec_encode_of_content_fault hv
      ((contentDispatch_external ht _).trans (externalContent_encoding_overflow ha hlt))
  · rw [exec_secure_eq_secureSeal hs hk hi hx hg hc,
      secureSeal_of_answer (s := s.withPorts (s.initAsked key)) h0 hp ha, if_pos]
    rw [← Bool.not_eq_false, sealBreach_some, length_ite_nil, not_and_or]
    exact hlen
  · rw [exec_verify_eq_verifyOpen hs hk hi hx hg hc,
      verifyOpen_of_answer (s := s.withPorts (s.initAsked key))
        (nonce := nonceOf ea (verifyCounter s) s.hdr.level) h0 hp htag ha, if_pos]
    rw [← Bool.not_eq_false, openBreach_some, length_ite_nil]
    exact hlen

/-! ## An undefined byte -/

theorem readField_of_undefined {m : Memory} {fin cur n : Nat} (hf : cur + n ≤ fin) (h : m.readBuf .fbuf cur n = none) :
    readField m fin cur n = .error (.fault .uninitRead) := by
  rw [readField, demand_bind, if_pos (by simpa using hf), readFbuf, h]

/-- An undefined frame control word is the first that HeaderDecode reads. -/
theorem headerDecode_of_undefined {m : Memory} {fin : Nat} (hf : 2 ≤ fin) (h : m.readBuf .fbuf 0 2 = none) :
    headerDecode m fin = .error (.fault .uninitRead) := by
  rw [headerDecode, fcDecode, readField_of_undefined (by omega) h]
  rfl

/-- The bytes for a body codec are read before it is asked (R170). -/
theorem externalContent_of_undefined {s : State} {port : BodyPort} {fc : Half} {cur fin : Nat}
    (hr : s.mem.readBuf .fbuf cur (fin - cur) = none) :
    externalContent port (s.withEngine (.decoding fc cur fin)) = .fault .uninitRead := by
  simp [externalContent, hr]

/-- An undefined footer ends a DECODE whose content is known (R220). -/
theorem exec_decode_of_undefined_footer {s : State} {h : Hdr} {hl n : Nat} {q : Ports}
    (hf : decodeFront s = .ok (h, hl)) (hft : footerDecode s = none)
    (hc : contentDispatch h.fc (decodeOperands h hl s) = .next ((s.withPorts q).withEngine (.consumed n))) :
    exec .decode s = .fault .uninitRead := by
  change execDecode s = _
  simp only [execDecode, hf, hc, decodeBack, footerDecode_withEngine, footerDecode_withPorts, hft,
    State.withEngine_engine]

/-- An undefined payload ends an ENCODE whose content is known (R221). -/
theorem exec_encode_of_undefined_payload {s : State} {body : Bytes} {q : Ports} (hv : headerValidate s.hdr = .ok ())
    (hp : s.mem.readBuf .pbuf 0 s.plen.toNat = none)
    (hc : contentDispatch s.hdr.fc (encodeOperands s) = .next ((s.withPorts q).withEngine (.produced body))) :
    exec .encode s = .fault .uninitRead := by
  change execEncode s = _
  simp only [execEncode, hv, hc, encodeBack, State.withEngine_mem, State.withPorts_mem, State.withEngine_plen,
    State.withPorts_plen, hp, State.withEngine_engine]

theorem secureSeal_of_undefined {s : State} (inst nonce : Bytes) (hp : s.mem.readBuf .pbuf 0 s.plen.toNat = none) :
    secureSeal inst nonce s = .fault .uninitRead := by
  rw [secureSeal, hp]

theorem verifyOpen_of_undefined {s : State} (inst nonce : Bytes) (hle : tagLen s.hdr.level ≤ s.payload.len.toNat)
    (hp : s.mem.readBuf .fbuf s.payload.off.toNat s.payload.len.toNat = none) :
    verifyOpen inst nonce s = .fault .uninitRead := by
  rw [verifyOpen, if_neg (by omega), hp]

/-- A host read of one undefined byte is a free draw (R55). -/
theorem bufRead_of_undefined {s : State} {a : Nat} (hbuf : isBufferOffset a = true) (ha : s.mem.read a = none) :
    bufRead a 1 s = { s with readData := (Config.freeByte s.draws).setWidth 32, draws := s.draws + 1 } := by
  have hlane : laneRead a s = (Config.freeByte s.draws, { s with draws := s.draws + 1 }) := by
    simp [laneRead, hbuf, ha]
  have hword (b : Byte) : ofLE 32 [b] = b.setWidth 32 := by
    apply BitVec.eq_of_toNat_eq
    simp [ofLE, fromLE]
  simp only [bufRead, lanesRead, hlane, hword]

/-- A failed ENCODE leaves FBUF undefined (R246). -/
theorem Raised.encode_undefines {s t : State} (h : Raised .encode s t) {i : Nat} (hi : i < 127) :
    t.mem.read (0x100 + i) = none := by
  obtain ⟨p, c, v, rfl, -⟩ := h
  rw [raiseIn_encode_mem, Memory.undefineBuf, Memory.read_undefine, if_pos]
  simp only [Buffer.base, bufferSize]
  omega

/-- A byte that one lane of a buffer access writes is defined (R55). -/
theorem lanesWrite_read_byte (m : Memory) {a : Nat} (b : Byte) (h : isBufferOffset a = true) :
    (lanesWrite m a [b]).read a = some b := by
  simp [lanesWrite, h, Memory.read_write_same]

/-- A host read of one undefined byte is answered with a draw (R55). -/
theorem hostRead_of_undefined {s : State} {a : Nat} (hbuf : isBufferOffset a = true) (ha : s.mem.read a = none)
    (hb : s.status.busy = false) :
    hostRead a 8 s = .next
      { s with readData := (Config.freeByte s.draws).setWidth 32, draws := s.draws + 1 } := by
  have ho : 0x100 ≤ a := by
    have := (isBufferOffset_iff a).1 hbuf
    omega
  rw [← bufRead_of_undefined hbuf ha]
  exact hostRead_buffer (n := 1) hb ho ((accessOk_buffer_iff (n := 1) (by simp) ho).2 (Nat.mod_one a))

theorem footerDecode_of_undefined {s : State} (hm : s.footerMode = .explicit)
    (h : s.mem.readBuf .fbuf (s.len.toNat - 2) 2 = none) : footerDecode s = none := by
  simp [footerDecode, hm, h]

/-- A type with a codec of its own has one. -/
theorem bodyPort_of_type {fc : Half} (h : fcType fc = 0 ∨ fcType fc = 3) :
    ∃ port : BodyPort, fcType fc = 0 ∧ port = .beacon ∨ fcType fc = 3 ∧ port = .command := by
  rcases h with h | h
  · exact ⟨.beacon, .inl ⟨h, rfl⟩⟩
  · exact ⟨.command, .inr ⟨h, rfl⟩⟩

/-- Settles O42: each byte that a command needs, undefined, faults at the read that meets it; the header's reads are
`ReadsBytes.headerDecode`, the rest are the content row's, the footer's and the payload's. -/
theorem undefinedBytes : Obligations.UndefinedBytes := by
  refine ⟨fun s a => rfl, fun m a b => lanesWrite_read_byte m b, fun m b i bs h => m.readBuf_writeBuf b i bs h,
    fun s t h hbad i hi => (exec_encode_failed h hbad).encode_undefines hi, fun s a => hostRead_of_undefined,
    fun s hlen h => exec_decode_of_header_fault (headerDecode_of_undefined hlen h), fun s m hext => ⟨?_, ?_⟩,
    fun s h hl hd hfit => ⟨fun ht hr => ?_, fun hm hft => ⟨fun ht => ?_, fun port n bytes rest ht hr ha hle => ?_⟩⟩,
    fun s hv hp => ⟨fun ht => ?_, fun port body rest ht ha hle => ?_⟩,
    fun s key inst ea ks is hs hk hi hx => ⟨fun hg hc hp => ?_, fun hg hc hle hp => ?_⟩⟩
  · intro h hl i hd hlt hgap
    exact exec_decode_of_header_fault
      (ReadsBytes.headerDecode.gap s.mem m _ _ i hext hd (Nat.zero_le i) hlt hgap)
  · intro c i hd hlt hgap
    exact exec_decode_of_header_fault
      (ReadsBytes.headerDecode.short s.mem m _ c i hext hd (Nat.zero_le i) hlt hgap)
  · obtain ⟨port, hport⟩ := bodyPort_of_type ht
    exact exec_decode_of_content_fault (decodeFront_eq_ok.2 ⟨hd, hfit⟩)
      ((contentDispatch_external hport _).trans (externalContent_of_undefined hr))
  · exact exec_decode_of_undefined_footer (n := 0) (q := s.ports) (decodeFront_eq_ok.2 ⟨hd, hfit⟩)
      (footerDecode_of_undefined hm hft) (contentDispatch_empty ht _)
  · exact exec_decode_of_undefined_footer (decodeFront_eq_ok.2 ⟨hd, hfit⟩) (footerDecode_of_undefined hm hft)
      ((contentDispatch_external ht _).trans (externalContent_decoding hr ha (bodyDecodeBreach_ok.2 hle)))
  · exact exec_encode_of_undefined_payload (body := []) (q := s.ports) hv hp (contentDispatch_empty ht _)
  · exact exec_encode_of_undefined_payload hv hp
      ((contentDispatch_external ht _).trans (externalContent_encoding ha (bodyEncodeBreach_ok.2 hle)))
  · rw [exec_secure_eq_secureSeal hs hk hi hx hg hc]
    exact secureSeal_of_undefined (s := s.withPorts (s.initAsked key)) inst _ hp
  · rw [exec_verify_eq_verifyOpen hs hk hi hx hg hc]
    exact verifyOpen_of_undefined (s := s.withPorts (s.initAsked key)) inst _ hle hp

end Sys2Proof.Machine
end
